-- ==== Sys2Proof/Word.lean ====
section
/-! DEFINITION. Word: the bit-vector types of TFD-PB (widths of 10_state.md R25, 30_encoding.md R71 to R73). -/

namespace Sys2Proof

/-- Eight bits: a display code, a two-wire byte, a byte of string memory. -/
abbrev Byte := BitVec 8

/-- Four bits: what one enable pulse moves over the display bus (R19). -/
abbrev Nibble := BitVec 4

/-- An address of string memory, `STR_AW` = 16 bits (R7, R51). -/
abbrev StrAddr := BitVec 16

/-- A 24-bit sample of the load-cell ADC (R25, R145). -/
abbrev Sample := BitVec 24

/-- A `FLOAT` bit pattern: IEEE 754 binary32 (R7, R9, decision D16). -/
abbrev FLOAT := BitVec 32

/-- The 32-bit operand field of a command word (R71). -/
abbrev Imm := BitVec 32

/-- A command word, `op ++ imm` (R71). -/
abbrev CmdWord := BitVec 40

end Sys2Proof
end

