-- ==== Sys2Proof/Syntax.lean ====
section
/-! DEFINITION. Syntax: the fifteen operations of 30_encoding.md R70 and R74, one constructor per row of the opcode table. -/

namespace Sys2Proof

/-- An operation with its operand. A byte, an address and a float are the bits of the operand field (R73); a sample
count is a number, of which a command word can hold 0 to 255 (R73; `Instr.wf`). -/
inductive Instr where
  /-- `LCD.INIT` (R101). -/
  | lcdInit
  /-- `LCD.WRI code` (R98). -/
  | lcdWri (code : Byte)
  /-- `LCD.WRC byte` (R99). -/
  | lcdWrc (byte : Byte)
  /-- `LCD.WRS addr` (R100). -/
  | lcdWrs (addr : StrAddr)
  /-- `TWI.START` (R125). -/
  | twiStart
  /-- `TWI.STOP` (R126). -/
  | twiStop
  /-- `TWI.WRB b` (R127). -/
  | twiWrb (b : Byte)
  /-- `TWI.RDA` (R128). -/
  | twiRda
  /-- `TWI.RDN` (R129). -/
  | twiRdn
  /-- `ADC.RAW` (R147). -/
  | adcRaw
  /-- `ADC.AVG n` (R150). -/
  | adcAvg (n : Nat)
  /-- `WGH.MASS n` (R164). -/
  | wghMass (n : Nat)
  /-- `WGH.TARE n` (R165). -/
  | wghTare (n : Nat)
  /-- `WGH.CAL ref` (R166). -/
  | wghCal (ref : FLOAT)
  /-- `DSP.RUN target` (R184). -/
  | dspRun (target : FLOAT)
deriving DecidableEq, Repr

end Sys2Proof
end

