-- ==== Sys2Proof/WellFormed.lean ====
section
/-! DEFINITION. WellFormed: which terms of `Instr` a command word can carry (30_encoding.md R73). -/

namespace Sys2Proof

/-- A sample count fits the operand field: `n = imm[7:0]`, an unsigned count 0 to 255 (R73). A count of 0 is well formed:
it decodes and then faults (R207, vector V-E2). -/
def countFits (n : Nat) : Bool := decide (n < 256)

/-- Every operand has a place in the command word (R72, R73). Byte, address and float operands have it by their type. -/
def Instr.wf : Instr → Bool
  | .lcdInit => true
  | .lcdWri _ => true
  | .lcdWrc _ => true
  | .lcdWrs _ => true
  | .twiStart => true
  | .twiStop => true
  | .twiWrb _ => true
  | .twiRda => true
  | .twiRdn => true
  | .adcRaw => true
  | .adcAvg n => countFits n
  | .wghMass n => countFits n
  | .wghTare n => countFits n
  | .wghCal _ => true
  | .dspRun _ => true

end Sys2Proof
end

