-- ==== Sys2Proof/Decode.lean ====
section
/-! DEFINITION. Decode: command words to operations and back (30_encoding.md R71 to R77). Decoding is total; a word that is no command
is rejected by name. -/

namespace Sys2Proof

/-- Why a word is no command. -/
inductive DecodeError where
  /-- `op` is none of the fifteen codes of R74 (R75). -/
  | reservedOp
  /-- A bit of `imm` that the format says must be 0 is 1 (R76). -/
  | reservedBits
deriving DecidableEq, Repr

/-- The five operand formats (R72). -/
inductive Format where
  | N | B | C | A | F
deriving DecidableEq, Repr

/-- The bits of `imm` that a format says must be 0 (R72). -/
def Format.mustBeZero : Format → Imm
  | .N => 0xFFFFFFFF#32
  | .B => 0xFFFFFF00#32
  | .C => 0xFFFFFF00#32
  | .A => 0xFFFF0000#32
  | .F => 0x00000000#32

/-- `op = cmd_word[39:32]` (R71). -/
def opField (w : CmdWord) : Byte := w.extractLsb' 32 8

/-- `imm = cmd_word[31:0]` (R71). -/
def immField (w : CmdWord) : Imm := w.extractLsb' 0 32

/-- `imm[7:0]` as a byte operand (R73). -/
def byteOperand (imm : Imm) : Byte := imm.extractLsb' 0 8

/-- `imm[7:0]` as an unsigned count (R73). -/
def countOperand (imm : Imm) : Nat := (imm.extractLsb' 0 8).toNat

/-- `imm[15:0]`, unsigned, not scaled (R73). -/
def addrOperand (imm : Imm) : StrAddr := imm.extractLsb' 0 16

/-- The format an `op` has, and none for a reserved one (R74). -/
def formatOf (op : Byte) : Option Format :=
  match op.toNat with
  | 0x10 => some .N
  | 0x11 => some .B
  | 0x12 => some .B
  | 0x13 => some .A
  | 0x20 => some .N
  | 0x21 => some .N
  | 0x22 => some .B
  | 0x23 => some .N
  | 0x24 => some .N
  | 0x30 => some .N
  | 0x31 => some .C
  | 0x40 => some .C
  | 0x41 => some .C
  | 0x42 => some .F
  | 0x50 => some .F
  | _ => none

/-- The operation an `op` selects, with its operand assembled from `imm` (R73, R74). -/
def operationOf (op : Byte) (imm : Imm) : Option Instr :=
  match op.toNat with
  | 0x10 => some .lcdInit
  | 0x11 => some (.lcdWri (byteOperand imm))
  | 0x12 => some (.lcdWrc (byteOperand imm))
  | 0x13 => some (.lcdWrs (addrOperand imm))
  | 0x20 => some .twiStart
  | 0x21 => some .twiStop
  | 0x22 => some (.twiWrb (byteOperand imm))
  | 0x23 => some .twiRda
  | 0x24 => some .twiRdn
  | 0x30 => some .adcRaw
  | 0x31 => some (.adcAvg (countOperand imm))
  | 0x40 => some (.wghMass (countOperand imm))
  | 0x41 => some (.wghTare (countOperand imm))
  | 0x42 => some (.wghCal imm)
  | 0x50 => some (.dspRun imm)
  | _ => none

/-- The operation a command word stands for. `ReservedOp` is answered before `ReservedBits` (R75, R76, R214). -/
def decode (w : CmdWord) : Except DecodeError Instr :=
  match formatOf (opField w), operationOf (opField w) (immField w) with
  | some f, some i => if immField w &&& f.mustBeZero = 0#32 then .ok i else .error .reservedBits
  | _, _ => .error .reservedOp

/-- The `op` code of an operation (R74). -/
def opcode : Instr → Byte
  | .lcdInit => 0x10
  | .lcdWri _ => 0x11
  | .lcdWrc _ => 0x12
  | .lcdWrs _ => 0x13
  | .twiStart => 0x20
  | .twiStop => 0x21
  | .twiWrb _ => 0x22
  | .twiRda => 0x23
  | .twiRdn => 0x24
  | .adcRaw => 0x30
  | .adcAvg _ => 0x31
  | .wghMass _ => 0x40
  | .wghTare _ => 0x41
  | .wghCal _ => 0x42
  | .dspRun _ => 0x50

/-- The operand field of an operation: the operand in its place, 0 in every must-be-zero bit (R72, R73). -/
def immOf : Instr → Imm
  | .lcdInit => 0
  | .lcdWri code => code.setWidth 32
  | .lcdWrc byte => byte.setWidth 32
  | .lcdWrs addr => addr.setWidth 32
  | .twiStart => 0
  | .twiStop => 0
  | .twiWrb b => b.setWidth 32
  | .twiRda => 0
  | .twiRdn => 0
  | .adcRaw => 0
  | .adcAvg n => (BitVec.ofNat 8 n).setWidth 32
  | .wghMass n => (BitVec.ofNat 8 n).setWidth 32
  | .wghTare n => (BitVec.ofNat 8 n).setWidth 32
  | .wghCal ref => ref
  | .dspRun target => target

/-- The command word of a well-formed operation, `op ++ imm` (R71). -/
def encode (i : Instr) : CmdWord := opcode i ++ immOf i

/-- The host's reading of one opcode-table row: the row's bits `w`, `nbits` of them, every bit above them 0. A command is one
40-bit word numbered as the table numbers it (R71), so nothing is laid out in bytes. -/
def decodeTableWord (nbits w : Nat) : Option Instr :=
  match decode (BitVec.ofNat 40 (w % 2 ^ nbits)) with
  | .ok i => some i
  | .error _ => none

end Sys2Proof
end

