-- ==== Sys2Proof/Config.lean ====
section
/-! DEFINITION. Config: the implementation parameters of 00_scope.md R7, and the free values of the model.

A row of R7 marked OPEN is an opaque constant: nothing can be proved of its value. The parameters are gathered in the plain
record `Params`, of which `State` holds one, so that a claim about every state is a claim about every configuration
(log 6). The free values at the end answer what the environment answers freely (R43) and fill what a `return` leaves
unspecified (R24). -/

namespace Sys2Proof

/-- The seven named durations of the spec (R7, R254). -/
inductive Duration where
  | tSettle | tPwrup | tInit1 | tInit2 | tAdcClk | tDispPoll | tMsg
deriving DecidableEq, Repr

/-- A step of `LCD_INIT_SEQ` (R101). -/
inductive InitStep where
  /-- `Wait(T)`: a delay. -/
  | wait (T : Duration)
  /-- `Nibble(x)`: one nibble alone, not followed by a poll. -/
  | nibble (x : Nibble)
  /-- `Instr(code)`: a full instruction write with its handshake. -/
  | instr (code : Byte)
deriving DecidableEq, Repr

/-- An element of a message list (R182). -/
inductive MsgElem where
  /-- `I(code)`: written to the instruction register. -/
  | instr (code : Byte)
  /-- `C(byte)`: written to the data register. -/
  | char (byte : Byte)
deriving DecidableEq, Repr

/-- `ADC_SAMPLE_PHASE`: where in a clock pulse the data line is sampled (R7, R143). -/
inductive SamplePhase where
  | high | afterLow
deriving DecidableEq, Repr

/-- `BF_READ_PULSES`: enable pulses per busy-flag poll iteration, 1 or 2 (R7, R97). -/
inductive PollPulses where
  | one | two
deriving DecidableEq, Repr

/-- The parameters of R7 that a rule of the block reads, and the opaque ones it only names. -/
structure Params where
  /-- `BF_BIT`, 0 to 3 (R97). -/
  bfBit : Fin 4
  /-- `BF_READ_PULSES` (R97). -/
  bfReadPulses : PollPulses
  /-- `LCD_INIT_SEQ` (R101). -/
  lcdInitSeq : List InitStep
  /-- `ADC_EXTRA_PULSES`, 0 to 3 (R145). -/
  adcExtraPulses : Fin 4
  /-- `ADC_SAMPLE_PHASE` (R143). -/
  adcSamplePhase : SamplePhase
  /-- `OFFSET_RESET` (R37). -/
  offsetReset : FLOAT
  /-- `SCALE_RESET` (R37). -/
  scaleReset : FLOAT
  /-- `MIN_SUPPLY`, finite (R7, R183). -/
  minSupply : FLOAT
  /-- `N_AVAIL`, 1 to 255 (R7, R184). -/
  nAvail : Nat
  /-- `MSG_WAIT` (R182). -/
  msgWait : List MsgElem
  /-- `MSG_INSUFF` (R182). -/
  msgInsuff : List MsgElem
  /-- `MSG_DONE` (R182). -/
  msgDone : List MsgElem
  /-- `DUTY_IDLE`, opaque (R38). -/
  dutyIdle : Nat
  /-- `DUTY_FEED`, opaque (R38). -/
  dutyFeed : Nat
  /-- `T_SETTLE`, in a unit the spec does not fix (R254); so are the six after it. -/
  tSettle : Nat
  tPwrup : Nat
  tInit1 : Nat
  tInit2 : Nat
  tAdcClk : Nat
  tDispPoll : Nat
  tMsg : Nat
deriving DecidableEq, Repr

/-- The value of a named duration, a lower bound of the time a `Delay` takes (R13, R254). -/
def Params.duration (p : Params) : Duration → Nat
  | .tSettle => p.tSettle
  | .tPwrup => p.tPwrup
  | .tInit1 => p.tInit1
  | .tInit2 => p.tInit2
  | .tAdcClk => p.tAdcClk
  | .tDispPoll => p.tDispPoll
  | .tMsg => p.tMsg

/-- The ranges R7 gives that the types of `Params` do not already carry: `N_AVAIL` is 1 to 255 and `MIN_SUPPLY` is finite. -/
def Params.wf (p : Params) : Bool :=
  decide (0 < p.nAvail) && decide (p.nAvail < 256) && decide (p.minSupply.extractLsb' 23 8 ≠ 0xFF#8)

/-! ### Constants R7 gives a value -/

/-- `LCD_BUS_BITS` (R7): the width of `Nibble`. -/
def Config.lcdBusBits : Nat := 4
/-- `LCD_COLS`, `LCD_ROWS` (R7): used by no rule of the block (R108). -/
def Config.lcdCols : Nat := 16
def Config.lcdRows : Nat := 2
/-- `STR_AW` (R7, R51). -/
def Config.strAw : Nat := 16
/-- `ADC_BITS` (R7, R141). -/
def Config.adcBits : Nat := 24
/-- `ADC_SIGN_MASK` (R7, R146). -/
def Config.adcSignMask : Sample := 0x800000#24
/-- `CAL_SAMPLES` (R7, R166). -/
def Config.calSamples : Nat := 100
/-- `DEFAULT_TARGET` = 30 (R7, R193): the host's, used by no rule of the block. Bit pattern of 30.0. -/
def Config.defaultTarget : FLOAT := 0x41F00000#32
/-- `RTC_NREGS` (R7): the host's, used by program P2 only. -/
def Config.rtcNRegs : Nat := 7

/-- The default `LCD_INIT_SEQ` (R102). PRESUMED: the spec takes the list from general knowledge (entry G3), log 7. -/
def Config.lcdInitSeq : List InitStep :=
  [.wait .tPwrup, .nibble 0x3, .wait .tInit1, .nibble 0x3, .wait .tInit2, .nibble 0x3, .wait .tInit2,
   .nibble 0x2, .wait .tInit2, .instr 0x28, .instr 0x08, .instr 0x01, .instr 0x06, .instr 0x0C]

/-! ### OPEN parameters: opaque, nothing can be proved of their values (R7, log 6) -/

opaque Config.offsetReset : FLOAT
opaque Config.scaleReset : FLOAT
/-- `MIN_SUPPLY` is any FINITE float (R7): a sign, an exponent field other than 255 and a fraction, each free. -/
opaque Config.minSupplySign : BitVec 1
opaque Config.minSupplyExponent : Fin 255
opaque Config.minSupplyFraction : BitVec 23
/-- `N_AVAIL` is 1 to 255 (R7): one more than a free number below 255. -/
opaque Config.nAvailLessOne : Fin 255
opaque Config.msgWait : List MsgElem
opaque Config.msgInsuff : List MsgElem
opaque Config.msgDone : List MsgElem
opaque Config.dutyIdle : Nat
opaque Config.dutyFeed : Nat
opaque Config.tSettle : Nat
opaque Config.tPwrup : Nat
opaque Config.tInit1 : Nat
opaque Config.tInit2 : Nat
opaque Config.tAdcClk : Nat
opaque Config.tDispPoll : Nat
opaque Config.tMsg : Nat
/-- `RTC_ADDR7` (R7, R53): the host's, used by program P2 only. -/
opaque Config.rtcAddr7 : BitVec 7

/-- The configuration of the machine: R7's defaults where it gives one, the opaque constants where it says OPEN. -/
def Config.params : Params where
  bfBit := 3
  bfReadPulses := .two
  lcdInitSeq := Config.lcdInitSeq
  adcExtraPulses := 0
  adcSamplePhase := .high
  offsetReset := Config.offsetReset
  scaleReset := Config.scaleReset
  minSupply := Config.minSupplySign ++ BitVec.ofNat 8 Config.minSupplyExponent.val ++ Config.minSupplyFraction
  nAvail := Config.nAvailLessOne.val + 1
  msgWait := Config.msgWait
  msgInsuff := Config.msgInsuff
  msgDone := Config.msgDone
  dutyIdle := Config.dutyIdle
  dutyFeed := Config.dutyFeed
  tSettle := Config.tSettle
  tPwrup := Config.tPwrup
  tInit1 := Config.tInit1
  tInit2 := Config.tInit2
  tAdcClk := Config.tAdcClk
  tDispPoll := Config.tDispPoll
  tMsg := Config.tMsg

/-! ### Free values

Each is applied to the counter `State.draws`, so that every use is a fresh value; none has a body. -/

/-- The four bits the environment drives on `lcd_d` at a read (R43). -/
opaque Config.freeLcdD : Nat → Nibble
/-- The level the environment drives on `adc_dout` at a read (R43). -/
opaque Config.freeAdcDout : Nat → Bool
/-- The transfer-complete flag the engine answers a poll with (R30, R43). -/
opaque Config.freeTwiTc : Nat → Bool
/-- The byte a slave supplies with a completed receive (R123). -/
opaque Config.freeTwiByte : Nat → Byte
/-- `rsp_next` after a return that does not name it: true is `WEIGHT` (R24). -/
opaque Config.freeRspNext : Nat → Bool
/-- `rsp_byte` after a return that does not name it (R24). -/
opaque Config.freeRspByte : Nat → Byte
/-- `rsp_u24` after a return that does not name it (R24). -/
opaque Config.freeRspU24 : Nat → Sample
/-- `rsp_f` after a return that does not name it (R24). -/
opaque Config.freeRspF : Nat → FLOAT
/-- Sign and payload of the NaN an operation on these two operands produces: never observable in a run (R9), log 14. -/
opaque Config.nanBits : FLOAT → FLOAT → BitVec 23

end Sys2Proof
end

