-- ==== Sys2Proof/Machine/Float.lean ====
section
/-! DEFINITION. Float: the `FLOAT` operations of 00_scope.md R9, IEEE 754 binary32 with round to nearest even, gradual underflow and no
flags (decision D16). A finite value is an integer number of units of 2^-149, so sums are exact in `Int`, quotients exact as
fractions, and every operation rounds once, in `roundFraction`. -/

namespace Sys2Proof.Machine

/-- The sign bit, `f[31]` (R72). -/
def floatSign (f : FLOAT) : Bool := f.getLsbD 31

/-- The exponent field, `f[30:23]` (R72). -/
def floatExponent (f : FLOAT) : Nat := (f.extractLsb' 23 8).toNat

/-- The fraction field, `f[22:0]` (R72). -/
def floatFraction (f : FLOAT) : Nat := (f.extractLsb' 0 23).toNat

/-- Neither an infinity nor a NaN (R9). -/
def isFinite (f : FLOAT) : Bool := floatExponent f != 255

/-- A NaN. -/
def isNaN (f : FLOAT) : Bool := floatExponent f == 255 && floatFraction f != 0

/-- An infinity of either sign. -/
def isInfinite (f : FLOAT) : Bool := floatExponent f == 255 && floatFraction f == 0

/-- +0 or -0. -/
def isZero (f : FLOAT) : Bool := floatExponent f == 0 && floatFraction f == 0

/-- The magnitude of a finite value in units of 2^-149. -/
def magnitude (f : FLOAT) : Nat :=
  if floatExponent f = 0 then floatFraction f else (2 ^ 23 + floatFraction f) * 2 ^ (floatExponent f - 1)

/-- A finite value in units of 2^-149. -/
def units (f : FLOAT) : Int := if floatSign f then -(magnitude f : Int) else (magnitude f : Int)

/-- The infinity of a sign. -/
def floatInfinity (neg : Bool) : FLOAT := if neg then 0xFF800000#32 else 0x7F800000#32

/-- The zero of a sign. -/
def floatZero (neg : Bool) : FLOAT := if neg then 0x80000000#32 else 0x00000000#32

/-- The NaN of an operation on `a` and `b`: quiet, with free sign and payload (R9: never observable, log 14). -/
def floatNaN (a b : FLOAT) : FLOAT :=
  let bits := Config.nanBits a b
  bits.extractLsb' 22 1 ++ 0xFF#8 ++ 1#1 ++ bits.extractLsb' 0 22

/-- `n / d` rounded to an integer, ties to even. -/
def divNearestEven (n d : Nat) : Nat :=
  if 2 * (n % d) > d ∨ (2 * (n % d) = d ∧ (n / d) % 2 = 1) then n / d + 1 else n / d

/-- How far the units of 2^-149 are coarsened so that the quotient fits 24 bits: 0 for a subnormal or the lowest normal binade. -/
def coarsening (q : Nat) : Nat := Nat.log2 q - 23

/-- Exponent and fraction field together of the magnitude nearest to `n / d` units, ties to even; `0x7F800000` (infinity) when it
rounds beyond the largest finite value. -/
def packMagnitude (n d : Nat) : Nat :=
  let k := coarsening (n / d)
  min (k * 2 ^ 23 + divNearestEven n (d * 2 ^ k)) 0x7F800000

/-- The value of sign `neg` and magnitude `n / d` units of 2^-149, rounded once. -/
def roundFraction (neg : Bool) (n d : Nat) : FLOAT :=
  BitVec.ofNat 32 (packMagnitude n d + if neg then 2 ^ 31 else 0)

/-- `u2f(k)` (R9). -/
def u2f (k : Nat) : FLOAT := roundFraction false (k * 2 ^ 149) 1

/-- The value with the other sign. -/
def fneg (f : FLOAT) : FLOAT := f ^^^ 0x80000000#32

/-- `fadd(a, b)` (R9). An exact zero sum is +0 unless both operands are negative. -/
def fadd (a b : FLOAT) : FLOAT :=
  if isNaN a || isNaN b then floatNaN a b
  else if isInfinite a then (if isInfinite b && (floatSign a != floatSign b) then floatNaN a b else a)
  else if isInfinite b then b
  else if units a + units b = 0 then floatZero (floatSign a && floatSign b)
  else roundFraction (decide (units a + units b < 0)) (units a + units b).natAbs 1

/-- `fsub(a, b)` (R9). -/
def fsub (a b : FLOAT) : FLOAT := fadd a (fneg b)

/-- `fdiv(a, b)` (R9). -/
def fdiv (a b : FLOAT) : FLOAT :=
  let neg := floatSign a != floatSign b
  if isNaN a || isNaN b then floatNaN a b
  else if isInfinite a then (if isInfinite b then floatNaN a b else floatInfinity neg)
  else if isInfinite b then floatZero neg
  else if isZero b then (if isZero a then floatNaN a b else floatInfinity neg)
  else roundFraction neg (magnitude a * 2 ^ 149) (magnitude b)

/-- The bits of a non-NaN as a number that orders them: +0 and -0 are equal, the infinities are the extremes. -/
def floatOrder (f : FLOAT) : Int :=
  if floatSign f then -((f.extractLsb' 0 31).toNat : Int) else ((f.extractLsb' 0 31).toNat : Int)

/-- `flt(a, b)`: `a < b`, false when either is a NaN (R9). -/
def flt (a b : FLOAT) : Bool := !isNaN a && !isNaN b && decide (floatOrder a < floatOrder b)

/-- `fge(a, b)`: `a >= b`, false when either is a NaN (R9). -/
def fge (a b : FLOAT) : Bool := !isNaN a && !isNaN b && decide (floatOrder b ≤ floatOrder a)

end Sys2Proof.Machine
end

