-- ==== Sys2Proof/Machine/Operands.lean ====
section
/-! DEFINITION. Operands: how the operations use their operands (20_memory.md R54; 30_encoding.md R73, R83; 60_exceptions.md R207, R208). The
assembly of an operand from the command word is in Decode.lean. -/

namespace Sys2Proof.Machine

/-- `v[7:4]`, sent first (R54). -/
def highNibble (v : Byte) : Nibble := v.extractLsb' 4 4

/-- `v[3:0]`, sent second (R54). -/
def lowNibble (v : Byte) : Nibble := v.extractLsb' 0 4

/-- The address of the string byte after `a`, modulo 2^16 (R51, R83). -/
def nextStringAddr (a : StrAddr) : StrAddr := a + 1#16

/-- A sample count is outside the domain (R207). -/
def countIsZero (n : Nat) : Bool := n == 0

/-- The operand of `WGH.CAL` is outside the domain: +0, -0, an infinity or a NaN (R166, R208). -/
def badReference (ref : FLOAT) : Bool := isZero ref || !isFinite ref

/-- The operand of `DSP.RUN` is outside the domain: an infinity or a NaN (R184, R208). -/
def badTarget (target : FLOAT) : Bool := !isFinite target

/-- `adc_shift` after one more bit: shifted left by one, the old bit 23 dropped, the new bit in bit 0 (R144, R145). -/
def shiftIn (shift : Sample) (bit : Bool) : Sample := (shift <<< 1) ||| (BitVec.ofBool bit).setWidth 24

/-- The raw sample of a word as shifted in: the sign bit inverted (R146). -/
def rawSample (shift : Sample) : Sample := shift ^^^ Config.adcSignMask

end Sys2Proof.Machine
end

