-- ==== Sys2Proof/Machine/State.lean ====
section
/-! DEFINITION. State: the state of 10_state.md as plain data, the faults and refusals of 60_exceptions.md R209, and reset (R49). -/

namespace Sys2Proof.Machine

/-! ### Stops -/

/-- Faults (R205, R206): legal commands reach them and the source defines no result. The run ends; the state is the one the last
completed step left. Every one is safe: it removes no run whose result the spec gives. -/
inductive Fault where
  /-- A sample count of 0 reached `ReadAverage` or `Mass` (R207): `ADC.AVG`, `WGH.MASS`, `WGH.TARE`. Safe. -/
  | zeroSamples
  /-- `wgh_scale` zero or not finite, or `wgh_offset` not finite (R208): `WGH.MASS`, `WGH.CAL`, `DSP.RUN`. Safe. -/
  | badCalibration
  /-- An operand outside the domain (R208): `WGH.CAL` of a zero or non-finite mass, `DSP.RUN` of a non-finite target. Safe. -/
  | badArgument
  /-- A computed mass or scale is not finite (R208): `WGH.MASS`, `WGH.CAL`, `DSP.RUN`. Safe. -/
  | notFinite
  /-- The MODEL's own: `seq` holds a position that its operation's pseudocode does not have. No run reaches such a state (log 13).
  Raised by any operation. Safe. -/
  | positionOutsideOperation
deriving DecidableEq, Repr

/-- Refusals (R205, R210, R211): commands the spec does not allow. Checked when the command is presented; the run ends. Safe. -/
inductive Refusal where
  /-- An arm of `exec` that has no meaning yet. No arm is left so. Safe. -/
  | notModelled (mnemonic : String)
  /-- `op` is not in the table (R75, R210): raised by decoding. Safe. -/
  | reservedOp
  /-- A must-be-zero bit of `imm` is 1 (R76, R210): raised by decoding. Safe. -/
  | reservedBits
  /-- `lcd_inited` = 0 (R104, R211): `LCD.WRI`, `LCD.WRC`, `LCD.WRS`, `DSP.RUN`. Safe. -/
  | lcdNotInitialised
  /-- `twi_owned` = 0 (R131, R211): `TWI.STOP`, `TWI.WRB`, `TWI.RDA`, `TWI.RDN`. Safe. -/
  | twiNotStarted
deriving DecidableEq, Repr

/-! ### Small types -/

/-- `rsp_outcome` (R24, R201). -/
inductive RspOutcome where
  | ok | insufficient
deriving DecidableEq, Repr

/-- `rsp_next` (R24, R189). -/
inductive RspNext where
  | main | weight
deriving DecidableEq, Repr

/-- The value a `return` hands over, and with it the response field it goes to (R24, R78). -/
inductive RetVal where
  | none
  | byte (b : Byte)
  | u24 (v : Sample)
  | float (f : FLOAT)
  | next (n : RspNext)
deriving DecidableEq, Repr

/-- A pin direction (R12). -/
inductive Direction where
  | input | output
deriving DecidableEq, Repr

/-- The 1-bit outputs the pseudocode writes (R26, R34). -/
inductive OutPin where
  | lcdRs | lcdRw | lcdE | adcSck
deriving DecidableEq, Repr

/-- The pins and pin groups of the display and the ADC (R26, R27, R34). -/
inductive Pin where
  | lcdRs | lcdRw | lcdE | lcdD | adcSck | adcDout
deriving DecidableEq, Repr

/-- `motor_level` (R38). -/
inductive MotorLevel where
  | idle | feeding
deriving DecidableEq, Repr

/-- `twi_req` (R29): the bus action handed over and not yet complete. -/
inductive TwiReq where
  | none | start | stop | tx | rxAck | rxNack
deriving DecidableEq, Repr

/-- An answer of the two-wire engine to one poll: the flag, and the byte that goes with a completed receive (R123). -/
structure TwiAnswer where
  tc : Bool
  byte : Byte
deriving DecidableEq, Repr

/-! ### The sequencer -/

/-- A call of a primitive (R11 to R16): what one step of the sequencer does (R10). -/
inductive Prim where
  /-- `PinDir(lcd_d, d)`. -/
  | pinDir (d : Direction)
  /-- `PinWrite(p, v)` of a 1-bit output. -/
  | pinWrite (p : OutPin) (v : Bool)
  /-- `PinWrite(lcd_d, nib)`. -/
  | busWrite (nib : Nibble)
  /-- `bf <- PinRead(lcd_d)[BF_BIT]` (R97). -/
  | readBusy
  /-- `r <- PinRead(adc_dout)` of the ready poll (R142). -/
  | readReady
  /-- `bit <- PinRead(adc_dout)` of a data pulse (R143). -/
  | readBit
  /-- `Delay(T)`. -/
  | delay (T : Duration)
  /-- `SetMotorRate(level)`. -/
  | motor (level : MotorLevel)
  /-- `TwiReq(kind, b)`; `b` is present for `TX` only (R122). -/
  | twiReq (kind : TwiReq) (b : Option Byte)
  /-- `tc <- TwiPoll()` (R123). -/
  | twiPoll
  /-- `c <- MemRead(str_ptr, 1)` (R100). -/
  | memRead
  /-- `return (outcome, value)` (R16). -/
  | ret (outcome : RspOutcome) (value : RetVal)
deriving DecidableEq, Repr

/-- The three messages of `DSP.RUN` (R182). -/
inductive Msg where
  | wait | insuff | done
deriving DecidableEq, Repr

/-- What a display transfer with its handshake belongs to, and what of a list is still to be sent after it. -/
inductive LcdUse where
  /-- The one byte of `LCD.WRI` or `LCD.WRC`. -/
  | single
  /-- A character of `LCD.WRS`. -/
  | string
  /-- An `Instr` step of `LCD.INIT`; `rest` are the steps after it. -/
  | init (rest : List InitStep)
  /-- An element of a message; `rest` are the elements after it. -/
  | message (m : Msg) (rest : List MsgElem)
deriving DecidableEq, Repr

/-- Which call of `ReadRawSample`, `ReadAverage` or `Mass` is running: the only one of its operation, or in `DSP.RUN` the
availability reading or a reading of the loop (R184). -/
inductive Reading where
  | only | base | loop
deriving DecidableEq, Repr

/-- Where the pseudocode goes on once the straight-line piece at hand is done: a place where it tests, loops, returns from a helper
procedure or starts (R21: positions inside helpers count). -/
inductive Place where
  /-- Before the operation's first statement. -/
  | start
  /-- `until bf = 0` of `LcdWaitReady` (R97). -/
  | lcdUntil (u : LcdUse)
  /-- After `LcdWaitReady` has returned; for a list, before its next element. -/
  | lcdDone (u : LcdUse)
  /-- `if c = 0x00` of `LCD.WRS` (R100). -/
  | strRead
  /-- `until tc = 1` of `TwiWait` (R124). -/
  | twiUntil
  /-- `until r = 0` of `AdcWaitReady` (R142). -/
  | adcUntil (q : Reading)
  /-- After `AdcPulseBit` has returned (R145). -/
  | adcPulse (q : Reading)
  /-- After the extra pulses (R145). -/
  | adcExtra (q : Reading)
  /-- `dsp_cur <- Mass(1)` of the dispensing loop (R184). -/
  | dspMass
  /-- After `return`: nothing is left. -/
  | finished
deriving DecidableEq, Repr

/-- `seq` (R21): `IDLE`, or `BUSY(op, pos)` with `pos` given as the rest of the straight-line piece being run and the place where the
pseudocode goes on after it. -/
inductive Seq where
  | idle
  | busy (op : Instr) (todo : List Prim) (place : Place)
deriving DecidableEq, Repr

/-- The local variables of the pseudocode that outlive the step that sets them (R97, R100, R124, R142, R143). The model's own, log 21. -/
structure Locals where
  /-- `bf`: the busy flag read last. -/
  bf : Bool
  /-- `bit`: the data bit sampled last. -/
  bit : Bool
  /-- `r`: the level the ready poll read last. -/
  r : Bool
  /-- `tc`: the flag `TwiPoll` answered last. -/
  tc : Bool
  /-- `c`: the byte `MemRead` returned last. -/
  c : Byte
deriving DecidableEq, Repr

/-! ### Events -/

/-- Events of the history (R10 to R16, R23, R206, R210). -/
inductive Event where
  | cmd (w : CmdWord)
  | mem (addr : StrAddr) (v : Byte)
  | dir (p : Pin) (d : Direction)
  | write (p : OutPin) (v : Bool)
  | busWrite (nib : Nibble)
  | busRead (nib : Nibble)
  | adcRead (v : Bool)
  | delay (T : Duration)
  | motor (level : MotorLevel)
  | twi (kind : TwiReq) (b : Option Byte)
  | twiTc (tc : Bool) (r : Option Byte)
  /-- `Ret(op, outcome, value)`, the operation given by its op code (log 23). -/
  | ret (op : Byte) (outcome : RspOutcome) (value : RetVal)
  /-- `Fault(kind)`: only in `observed`, since the stop that ends the run carries it (log 12). -/
  | fault (kind : Fault)
  /-- `Refuse(kind)`: only in `observed` (log 12). -/
  | refuse (kind : Refusal)
deriving DecidableEq, Repr

/-! ### The state -/

/-- The answers the environment has already settled on, oldest first, one queue for each source; a read past the end of its queue
is answered by an opaque free value (R43, log 3). The model's own. -/
structure EnvQueue where
  /-- Levels of `lcd_d` for `PinRead(lcd_d)`. -/
  lcd : List Nibble
  /-- Levels of `adc_dout` for `PinRead(adc_dout)`. -/
  adc : List Bool
  /-- Answers to `TwiPoll()`. -/
  twi : List TwiAnswer
deriving DecidableEq, Repr

/-- String memory, as its cells in rising order of address; see `Memory.wf`, `Memory.read` (R51). -/
abbrev Memory := List Host.Cell

/-- The state of TFD-PB (R20). INVENTORY.md lists each field with the rule that names it. -/
structure State where
  -- ports (R22 to R24, R225)
  cmdValid : Bool
  cmdWord : CmdWord
  rspValid : Bool
  rspOutcome : RspOutcome
  rspNext : RspNext
  rspByte : Byte
  rspU24 : Sample
  rspF : FLOAT
  powerCycle : Bool
  -- the sequencer (R21)
  seq : Seq
  loc : Locals
  -- data registers (R25)
  lcdByte : Byte
  strPtr : StrAddr
  twiDr : Byte
  adcShift : Sample
  adcCnt : BitVec 5
  avgSum : FLOAT
  avgI : BitVec 8
  wghOffset : FLOAT
  wghScale : FLOAT
  dspTarget : FLOAT
  dspBase : FLOAT
  dspCur : FLOAT
  -- pins and control state (R26, R27, R29, R30, R34, R38)
  lcdRs : Bool
  lcdRw : Bool
  lcdE : Bool
  lcdDOut : Nibble
  lcdDDir : Direction
  adcSck : Bool
  motorLevel : MotorLevel
  twiReq : TwiReq
  twiTc : Bool
  -- bookkeeping (R28, R32, R48)
  lcdInited : Bool
  twiOwned : Bool
  hist : List Event
  -- string memory (R51)
  strmem : Memory
  -- the model's own: configuration (R7), environment answers (R43), free values used
  params : Params
  env : EnvQueue
  draws : Nat
deriving DecidableEq, Repr

/-- The three outcomes of a step of this machine. -/
abbrev Result := Host.Outcome State Fault Refusal

/-- The state after reset and pin bring-up (R49, R231, R232) of a block with parameters `p`. What R49 leaves unspecified has the value
log 5 names. -/
def State.resetWith (p : Params) : State where
  cmdValid := false
  cmdWord := 0
  rspValid := false
  rspOutcome := .ok
  rspNext := .main
  rspByte := 0
  rspU24 := 0
  rspF := 0
  powerCycle := false
  seq := .idle
  loc := { bf := false, bit := false, r := false, tc := false, c := 0 }
  lcdByte := 0
  strPtr := 0
  twiDr := 0
  adcShift := 0
  adcCnt := 0
  avgSum := 0
  avgI := 0
  wghOffset := p.offsetReset
  wghScale := p.scaleReset
  dspTarget := 0
  dspBase := 0
  dspCur := 0
  lcdRs := false
  lcdRw := false
  lcdE := false
  lcdDOut := 0
  lcdDDir := .output
  adcSck := false
  motorLevel := .idle
  twiReq := .none
  twiTc := false
  lcdInited := false
  twiOwned := false
  hist := []
  strmem := []
  params := p
  env := { lcd := [], adc := [], twi := [] }
  draws := 0

/-- The machine right after reset (R49). -/
def State.reset : State := State.resetWith Config.params

end Sys2Proof.Machine
end

