-- ==== Sys2Proof/Machine/Flags.lean ====
section
/-! DEFINITION. Flags: the flags of 10_state.md R40 and the tests the operations make. No operation sets a flag as a side effect of arithmetic. -/

namespace Sys2Proof.Machine

/-- The busy flag in a nibble read from `lcd_d`: bit `BF_BIT`, 1 is busy (R40 (1), R97). -/
def busyFlag (p : Params) (nib : Nibble) : Bool := nib.getLsbD p.bfBit.val

/-- ADC ready: the data line reads 0 (R40 (3), R142). -/
def adcReady (level : Bool) : Bool := !level

/-- The block is busy: `seq != IDLE` (R40 (4)). -/
def State.isBusy (s : State) : Bool := s.seq != .idle

/-- `rsp_outcome` as its bit (R24, R201). -/
def RspOutcome.bit : RspOutcome → BitVec 1
  | .ok => 0
  | .insufficient => 1

/-- `rsp_next` as its bit (R24). -/
def RspNext.bit : RspNext → BitVec 1
  | .main => 0
  | .weight => 1

/-- The calibration `Mass` refuses to use: a zero or non-finite scale, a non-finite offset (R163, R208). -/
def badCalibration (offset scale : FLOAT) : Bool := isZero scale || !isFinite scale || !isFinite offset

/-- `(a - offset) / divisor`: the mass of an average (R161, R163) and the scale of a calibration (R161, R166). -/
def calibrated (a offset divisor : FLOAT) : FLOAT := fdiv (fsub a offset) divisor

/-- The supply gate: abort when `available < MIN_SUPPLY` or `available < target` (R183). -/
def supplyInsufficient (p : Params) (available target : FLOAT) : Bool := flt available p.minSupply || flt available target

/-- The stopping test `(baseline - current) >= target` (R185). -/
def targetReleased (baseline current target : FLOAT) : Bool := fge (fsub baseline current) target

/-- The direction of a pin: every pin but `lcd_d` has a fixed one (R26, R27, R34, R232). -/
def State.pinDirection (s : State) : Pin → Direction
  | .lcdRs => .output
  | .lcdRw => .output
  | .lcdE => .output
  | .lcdD => s.lcdDDir
  | .adcSck => .output
  | .adcDout => .input

/-- What the block drives on `lcd_d`: the latch, and nothing while the group is an input (R12, R27). -/
def State.lcdDDriven (s : State) : Option Nibble :=
  match s.lcdDDir with
  | .output => some s.lcdDOut
  | .input => none

/-- `scl` and `sda` are both released, idle high: no action is in progress and the bus is not owned (R33, R121, R232; log 18). -/
def State.twiLinesReleased (s : State) : Bool := s.twiReq == .none && !s.twiOwned

/-- The duty value behind the motor level (R38). -/
def State.motorDuty (s : State) : Nat :=
  match s.motorLevel with
  | .idle => s.params.dutyIdle
  | .feeding => s.params.dutyFeed

end Sys2Proof.Machine
end

