-- ==== Sys2Proof/Machine/Ops.lean ====
section
/-! DEFINITION. Ops: string memory, the environment's answers, the primitives (00_scope.md R10 to R16), acceptance and return, the
sequencer that every operation shares, reset, and what the host can do.

There is no exception entry and no exception return to model: "There is no trap entry: nothing is saved, no mode changes, no mask changes,
control goes nowhere" (R215, R216). A fault ends the run (R206). -/

namespace Sys2Proof.Machine

/-! ### String memory (R51) -/

/-- What a byte that the host has not written reads as. DESIGN CHOICE, unsafe: the spec gives `STRMEM` no contents (log 8). -/
def strmemUnwritten : Byte := 0x00#8

/-- The cells of `m` have strictly rising addresses from `lo` on, all below 2^16, and none holds what an unlisted byte reads as. -/
def Memory.wfFrom (lo : Nat) : Memory → Bool
  | [] => true
  | (a, v) :: rest => decide (lo ≤ a) && decide (a < 65536) && (v != strmemUnwritten) && Memory.wfFrom (a + 1) rest

/-- The canonical form: equal memories are equal lists. -/
def Memory.wf (m : Memory) : Bool := Memory.wfFrom 0 m

/-- The byte at an address. -/
def Memory.read : Memory → Nat → Byte
  | [], _ => strmemUnwritten
  | (a, v) :: rest, addr => if a = addr then v else Memory.read rest addr

/-- The memory with one byte changed, in canonical form again. -/
def Memory.write : Memory → Nat → Byte → Memory
  | [], addr, v => if v = strmemUnwritten then [] else [(addr, v)]
  | (a, w) :: rest, addr, v =>
    if addr < a then (if v = strmemUnwritten then (a, w) :: rest else (addr, v) :: (a, w) :: rest)
    else if addr = a then (if v = strmemUnwritten then rest else (addr, v) :: rest)
    else (a, w) :: Memory.write rest addr v

/-- `STRMEM[addr]` (R51). -/
def State.strByte (s : State) (addr : StrAddr) : Byte := Memory.read s.strmem addr.toNat

/-! ### Events and the environment's answers -/

/-- An event is appended to the history (R10, R48). -/
def State.emit (s : State) (e : Event) : State := { s with hist := s.hist ++ [e] }

/-- The level of `lcd_d` at this read and the state after it: the next settled answer, else a free value (R43). -/
def State.drawLcd (s : State) : Nibble × State :=
  match s.env.lcd with
  | v :: rest => (v, { s with env := { s.env with lcd := rest } })
  | [] => (Config.freeLcdD s.draws, { s with draws := s.draws + 1 })

/-- The level of `adc_dout` at this read and the state after it (R43). -/
def State.drawAdc (s : State) : Bool × State :=
  match s.env.adc with
  | v :: rest => (v, { s with env := { s.env with adc := rest } })
  | [] => (Config.freeAdcDout s.draws, { s with draws := s.draws + 1 })

/-- The engine's answer to this poll and the state after it (R30, R43). -/
def State.drawTwi (s : State) : TwiAnswer × State :=
  match s.env.twi with
  | v :: rest => (v, { s with env := { s.env with twi := rest } })
  | [] => ({ tc := Config.freeTwiTc s.draws, byte := Config.freeTwiByte s.draws }, { s with draws := s.draws + 1 })

/-! ### Primitives -/

/-- `PinWrite(p, v)` of a 1-bit output (R12, R26, R34). -/
def State.pinWrite (s : State) (p : OutPin) (v : Bool) : State :=
  match p with
  | .lcdRs => { s with lcdRs := v }.emit (.write .lcdRs v)
  | .lcdRw => { s with lcdRw := v }.emit (.write .lcdRw v)
  | .lcdE => { s with lcdE := v }.emit (.write .lcdE v)
  | .adcSck => { s with adcSck := v }.emit (.write .adcSck v)

/-- `bf <- PinRead(lcd_d)[BF_BIT]`: four bits read, one kept (R97). -/
def State.readBusy (s : State) : State :=
  let (nib, s') := s.drawLcd
  { s' with loc := { s'.loc with bf := busyFlag s'.params nib } }.emit (.busRead nib)

/-- `r <- PinRead(adc_dout)` (R142). -/
def State.readReady (s : State) : State :=
  let (v, s') := s.drawAdc
  { s' with loc := { s'.loc with r := v } }.emit (.adcRead v)

/-- `bit <- PinRead(adc_dout)` (R143). -/
def State.readBit (s : State) : State :=
  let (v, s') := s.drawAdc
  { s' with loc := { s'.loc with bit := v } }.emit (.adcRead v)

/-- `TwiReq(kind, b)`: the flag is cleared, the action handed over, and a byte to transmit goes to the data register (R122). -/
def State.requestTwi (s : State) (kind : TwiReq) (b : Option Byte) : State :=
  { s with twiTc := false, twiReq := kind, twiDr := b.getD s.twiDr }.emit (.twi kind b)

/-- The action is a receive (R123). -/
def TwiReq.receives : TwiReq → Bool
  | .rxAck => true
  | .rxNack => true
  | _ => false

/-- `tc <- TwiPoll()`. On 1 the action has finished: the flag is set, nothing is pending, and a received byte is in the data register.
On 0 nothing changes (R123). -/
def State.pollTwi (s : State) : State :=
  let (ans, s') := s.drawTwi
  let s'' := { s' with loc := { s'.loc with tc := ans.tc } }
  if ans.tc then
    if s''.twiReq.receives then
      { s'' with twiTc := true, twiReq := .none, twiDr := ans.byte }.emit (.twiTc true (some ans.byte))
    else { s'' with twiTc := true, twiReq := .none }.emit (.twiTc true none)
  else s''.emit (.twiTc false none)

/-- `c <- MemRead(str_ptr, 1)` (R11, R82, R100). -/
def State.readString (s : State) : State :=
  { s with loc := { s.loc with c := s.strByte s.strPtr } }.emit (.mem s.strPtr (s.strByte s.strPtr))

/-- `return (outcome, value)`: the response is driven, the field the value goes to is written, the other value fields are free, and the
sequencer is idle (R16, R24). -/
def State.respond (s : State) (op : Instr) (outcome : RspOutcome) (value : RetVal) : State :=
  { s with
    seq := .idle
    rspValid := true
    rspOutcome := outcome
    rspNext := match value with
      | .next n => n
      | _ => if Config.freeRspNext s.draws then .weight else .main
    rspByte := match value with
      | .byte b => b
      | _ => Config.freeRspByte s.draws
    rspU24 := match value with
      | .u24 v => v
      | _ => Config.freeRspU24 s.draws
    rspF := match value with
      | .float f => f
      | _ => Config.freeRspF s.draws
    draws := s.draws + 1 }.emit (.ret (opcode op) outcome value)

/-- One primitive call of operation `op`: its effect and its one event (R10). -/
def doPrim (op : Instr) (prim : Prim) (s : State) : State :=
  match prim with
  | .pinDir d => { s with lcdDDir := d }.emit (.dir .lcdD d)
  | .pinWrite p v => s.pinWrite p v
  | .busWrite nib => { s with lcdDOut := nib }.emit (.busWrite nib)
  | .readBusy => s.readBusy
  | .readReady => s.readReady
  | .readBit => s.readBit
  | .delay T => s.emit (.delay T)
  | .motor level => { s with motorLevel := level }.emit (.motor level)
  | .twiReq kind b => s.requestTwi kind b
  | .twiPoll => s.pollTwi
  | .memRead => s.readString
  | .ret outcome value => s.respond op outcome value

/-! ### The sequencer -/

/-- What running the pseudocode from a place up to its next primitive comes to: silent statements (register writes, tests, loop
exits) have made `s` of the state, and `prim` is called next, then `rest`, then the pseudocode goes on at `place`; or a
fault is raised. The silent statements take effect together with that primitive (R10, log 15). -/
inductive Advance where
  | go (s : State) (prim : Prim) (rest : List Prim) (place : Place)
  | fault (f : Fault)

/-- A position the operation's pseudocode does not have (log 13). -/
def outsideOperation : Advance := .fault .positionOutsideOperation

/-- `return (outcome, value)` as what comes next. -/
def returning (s : State) (outcome : RspOutcome) (value : RetVal) : Advance := .go s (.ret outcome value) [] .finished

/-- Acceptance: the operation is latched, its command word recorded, the old response withdrawn (R23, R24). The host takes the command off the port
(R23; log 20). -/
def State.accept (s : State) (op : Instr) : State :=
  { s with cmdValid := false, rspValid := false, seq := .busy op [] .start }.emit (.cmd (encode op))

/-- The step that an advance makes of a state in operation `op`. -/
def Advance.run (op : Instr) : Advance → Result
  | .go s prim rest place => .next (doPrim op prim { s with seq := .busy op rest place })
  | .fault f => .fault f

/-- One step of operation `op`. Idle: the command is accepted, unless `gate` refuses it (R23, R211). Busy with `op`: the statement at the
position is run (R10, R21). Busy with another operation: a command presented now is not accepted, and leaves nothing (R23,
vector V-E3; log 2). -/
def runOperation (op : Instr) (gate : State → Option Refusal) (resume : Place → State → Advance) (s : State) : Result :=
  match s.seq with
  | .idle =>
    match gate s with
    | some r => .refused r
    | none => .next (s.accept op)
  | .busy running todo place =>
    if running = op then
      match todo with
      | prim :: rest => .next (doPrim op prim { s with seq := .busy op rest place })
      | [] => (resume place s).run op
    else .next s

/-- An operation that is accepted in every state. -/
def admitAlways (_ : State) : Option Refusal := none

/-- `LCD.WRI`, `LCD.WRC`, `LCD.WRS` and `DSP.RUN` need `lcd_inited` (R104, R211, R238). -/
def admitDisplay (s : State) : Option Refusal := if s.lcdInited then none else some .lcdNotInitialised

/-- `TWI.STOP`, `TWI.WRB`, `TWI.RDA` and `TWI.RDN` need `twi_owned` (R131, R211). -/
def admitOwned (s : State) : Option Refusal := if s.twiOwned then none else some .twiNotStarted

/-! ### Fetch, reset and the host -/

/-- The operation presented on the command port (R22, R23), or why it is refused (R210). -/
def State.presented (s : State) : Except Refusal Instr :=
  match decode s.cmdWord with
  | .ok i => .ok i
  | .error .reservedOp => .error .reservedOp
  | .error .reservedBits => .error .reservedBits

/-- The restart (R230, R234): the state of R49. The configuration stays, and so does what is not the block's: the environment's settled
answers and the supply of free values (log 9). -/
def State.restart (s : State) : State :=
  { State.resetWith s.params with env := s.env, draws := s.draws }

/-- The host presents a command. It does so only when the block is idle (R23, R225). -/
def State.hostPresent (s : State) (w : CmdWord) : State :=
  if s.isBusy then s else { s with cmdValid := true, cmdWord := w }

/-- The host writes a byte of string memory. It does so only when the block is idle (R66, R225). -/
def State.hostWriteString (s : State) (addr : StrAddr) (v : Byte) : State :=
  if s.isBusy then s else { s with strmem := Memory.write s.strmem addr.toNat v }

/-- The host removes power, at any time (R225, R230). -/
def State.hostPowerCycle (s : State) : State := { s with powerCycle := true }

end Sys2Proof.Machine
end

