-- ==== Sys2Proof/Machine/Lcd.lean ====
section
/-! DEFINITION. Lcd: unit U1, the parallel display driver (41_lcd.md R90 to R107). -/

namespace Sys2Proof.Machine

/-! ### Helper procedures -/

/-- `LcdPulseE()` (R92). -/
def lcdPulseE : List Prim :=
  [.delay .tSettle, .pinWrite .lcdE true, .delay .tSettle, .pinWrite .lcdE false, .delay .tSettle]

/-- `LcdPutNibble(nib)` (R93). -/
def lcdPutNibble (nib : Nibble) : List Prim := .busWrite nib :: lcdPulseE

/-- One iteration of the poll after its first `Delay(T_SETTLE)` (R97). -/
def lcdPollRest (p : Params) : List Prim :=
  [.pinWrite .lcdE true, .delay .tSettle, .readBusy, .pinWrite .lcdE false, .delay .tSettle] ++
    match p.bfReadPulses with
    | .one => []
    | .two => lcdPulseE

/-- `LcdWaitReady()` up to its first `until` (R97). -/
def lcdWaitReady (p : Params) : List Prim :=
  [.pinDir .input, .pinWrite .lcdRs false, .pinWrite .lcdRw true, .delay .tSettle] ++ lcdPollRest p

/-- What `LcdWriteByte(rs, v)` does after it has written `lcd_rs` (R96). -/
def lcdWriteByteRest (v : Byte) : List Prim :=
  .pinWrite .lcdRw false :: (lcdPutNibble (highNibble v) ++ lcdPutNibble (lowNibble v))

/-- `LcdWriteByte(rs, v); LcdWaitReady()` (R96, R97, R103). -/
def lcdTransfer (rs : Bool) (v : Byte) (u : LcdUse) (s : State) : Advance :=
  .go { s with lcdByte := v } (.pinWrite .lcdRs rs) (lcdWriteByteRest v ++ lcdWaitReady s.params) (.lcdUntil u)

/-- `until bf = 0`, then the bus is restored (R97, R241). -/
def lcdUntil (u : LcdUse) (s : State) : Advance :=
  if s.loc.bf then .go s (.delay .tSettle) (lcdPollRest s.params) (.lcdUntil u)
  else .go s (.pinWrite .lcdRw false) [.pinDir .output] (.lcdDone u)

/-! ### LCD.WRI and LCD.WRC -/

/-- The pseudocode of `LCD.WRI code` (R98). -/
def resumeLcdWri (code : Byte) (place : Place) (s : State) : Advance :=
  match place with
  | .start => lcdTransfer false code .single s
  | .lcdUntil u => lcdUntil u s
  | .lcdDone _ => returning s .ok .none
  | _ => outsideOperation

/-- `LCD.WRI code` (R98). -/
def execLcdWri (code : Byte) (s : State) : Result :=
  runOperation (.lcdWri code) admitDisplay (resumeLcdWri code) s

/-- The pseudocode of `LCD.WRC byte` (R99). -/
def resumeLcdWrc (byte : Byte) (place : Place) (s : State) : Advance :=
  match place with
  | .start => lcdTransfer true byte .single s
  | .lcdUntil u => lcdUntil u s
  | .lcdDone _ => returning s .ok .none
  | _ => outsideOperation

/-- `LCD.WRC byte` (R99). -/
def execLcdWrc (byte : Byte) (s : State) : Result :=
  runOperation (.lcdWrc byte) admitDisplay (resumeLcdWrc byte) s

/-! ### LCD.WRS -/

/-- The pseudocode of `LCD.WRS addr` (R100). -/
def resumeLcdWrs (addr : StrAddr) (place : Place) (s : State) : Advance :=
  match place with
  | .start => .go { s with strPtr := addr } .memRead [] .strRead
  | .strRead => if s.loc.c = 0x00#8 then returning s .ok .none else lcdTransfer true s.loc.c .string s
  | .lcdUntil u => lcdUntil u s
  | .lcdDone _ => .go { s with strPtr := nextStringAddr s.strPtr } .memRead [] .strRead
  | _ => outsideOperation

/-- `LCD.WRS addr` (R100). -/
def execLcdWrs (addr : StrAddr) (s : State) : Result :=
  runOperation (.lcdWrs addr) admitDisplay (resumeLcdWrs addr) s

/-! ### LCD.INIT -/

/-- `for s in LCD_INIT_SEQ` with `steps` left, then the end of `LCD.INIT` (R101). -/
def lcdInitSteps (steps : List InitStep) (s : State) : Advance :=
  match steps with
  | [] => returning { s with lcdInited := true } .ok .none
  | .wait T :: rest => .go s (.delay T) [] (.lcdDone (.init rest))
  | .nibble x :: rest => .go s (.busWrite x) lcdPulseE (.lcdDone (.init rest))
  | .instr code :: rest => lcdTransfer false code (.init rest) s

/-- The pseudocode of `LCD.INIT` (R101). -/
def resumeLcdInit (place : Place) (s : State) : Advance :=
  match place with
  | .start =>
    .go s (.pinDir .output) [.pinWrite .lcdRs false, .pinWrite .lcdRw false, .pinWrite .lcdE false]
      (.lcdDone (.init s.params.lcdInitSeq))
  | .lcdUntil u => lcdUntil u s
  | .lcdDone (.init steps) => lcdInitSteps steps s
  | _ => outsideOperation

/-- `LCD.INIT` (R101). -/
def execLcdInit (s : State) : Result :=
  runOperation .lcdInit admitAlways resumeLcdInit s

end Sys2Proof.Machine
end

