-- ==== Sys2Proof/Machine/Adc.lean ====
section
/-! DEFINITION. Adc: unit U3, the load-cell serial reader (43_adc.md R140 to R154). -/

namespace Sys2Proof.Machine

/-! ### Helper procedures -/

/-- `ReadRawSample()` from its beginning: the first read of `AdcWaitReady()` (R142, R145). -/
def adcReadSample (q : Reading) (s : State) : Advance := .go s .readReady [] (.adcUntil q)

/-- `AdcPulseBit()` after it has raised the clock (R143). -/
def adcPulseRest (p : Params) : List Prim :=
  match p.adcSamplePhase with
  | .high => [.delay .tAdcClk, .readBit, .pinWrite .adcSck false, .delay .tAdcClk]
  | .afterLow => [.delay .tAdcClk, .pinWrite .adcSck false, .readBit, .delay .tAdcClk]

/-- `AdcPulseBit()` (R143). -/
def adcPulseBit (q : Reading) (s : State) : Advance := .go s (.pinWrite .adcSck true) (adcPulseRest s.params) (.adcPulse q)

/-- An extra pulse after its clock has been raised: nothing is sampled (R145). -/
def adcExtraRest : List Prim := [.delay .tAdcClk, .pinWrite .adcSck false, .delay .tAdcClk]

/-- `n` whole extra pulses (R145). -/
def adcExtraPulses : Nat → List Prim
  | 0 => []
  | n + 1 => .pinWrite .adcSck true :: (adcExtraRest ++ adcExtraPulses n)

/-- `until r = 0` of `AdcWaitReady()`, then the register is cleared and the first pulse begins (R142, R145). -/
def adcUntil (q : Reading) (s : State) : Advance :=
  if adcReady s.loc.r then adcPulseBit q { s with adcShift := 0, adcCnt := 0 } else adcReadSample q s

/-- The register and the counter after a data pulse (R145). -/
def State.takeBit (s : State) : State :=
  { s with adcShift := shiftIn s.adcShift s.loc.bit, adcCnt := s.adcCnt + 1 }

/-- After a data pulse: the bit is shifted in; the next pulse, the extra pulses, or the end of `ReadRawSample()` (R145). -/
def adcAfterPulse (q : Reading) (done : State → Advance) (s : State) : Advance :=
  if s.takeBit.adcCnt < 24 then adcPulseBit q s.takeBit
  else
    match s.params.adcExtraPulses.val with
    | 0 => done s.takeBit
    | n + 1 => .go s.takeBit (.pinWrite .adcSck true) (adcExtraRest ++ adcExtraPulses n) (.adcExtra q)

/-- `ReadAverage(n)` from its beginning (R149). -/
def averageStart (n : Nat) (q : Reading) (s : State) : Advance :=
  if countIsZero n then .fault .zeroSamples
  else adcReadSample q { s with avgSum := u2f 0, avgI := 0 }

/-- The averager's registers after a sample (R149). -/
def State.takeSample (s : State) : State :=
  { s with avgSum := fadd s.avgSum (u2f (rawSample s.adcShift).toNat), avgI := s.avgI + 1 }

/-- After a sample of `ReadAverage(n)`: the next sample, or the mean (R149). -/
def averageAfterSample (n : Nat) (q : Reading) (done : FLOAT → State → Advance) (s : State) : Advance :=
  if s.takeSample.avgI.toNat < n then adcReadSample q s.takeSample
  else done (fdiv s.takeSample.avgSum (u2f n)) s.takeSample

/-- The places inside `ReadRawSample()`, with what follows a whole sample. -/
def resumeSample (done : Reading → State → Advance) (place : Place) (s : State) : Advance :=
  match place with
  | .adcUntil q => adcUntil q s
  | .adcPulse q => adcAfterPulse q (done q) s
  | .adcExtra q => done q s
  | _ => outsideOperation

/-! ### Operations -/

/-- The pseudocode of `ADC.RAW` (R147). -/
def resumeAdcRaw (place : Place) (s : State) : Advance :=
  match place with
  | .start => adcReadSample .only s
  | _ => resumeSample (fun _ s => returning s .ok (.u24 (rawSample s.adcShift))) place s

/-- `ADC.RAW` (R147). -/
def execAdcRaw (s : State) : Result :=
  runOperation .adcRaw admitAlways resumeAdcRaw s

/-- The pseudocode of `ADC.AVG n` (R150). -/
def resumeAdcAvg (n : Nat) (place : Place) (s : State) : Advance :=
  match place with
  | .start => averageStart n .only s
  | _ => resumeSample (fun q => averageAfterSample n q fun a s => returning s .ok (.float a)) place s

/-- `ADC.AVG n` (R150). -/
def execAdcAvg (n : Nat) (s : State) : Result :=
  runOperation (.adcAvg n) admitAlways (resumeAdcAvg n) s

end Sys2Proof.Machine
end

