-- ==== Sys2Proof/Machine/Wgh.lean ====
section
/-! DEFINITION. Wgh: unit U4, the weighing service (44_weigh.md R160 to R169). -/

namespace Sys2Proof.Machine

/-! ### Helper procedure Mass -/

/-- `Mass(n)` from its beginning: the checks, in order, then `ReadAverage(n)` (R163, R214). -/
def massStart (n : Nat) (q : Reading) (s : State) : Advance :=
  if countIsZero n then .fault .zeroSamples
  else if badCalibration s.wghOffset s.wghScale then .fault .badCalibration
  else averageStart n q s

/-- `Mass` after its average `a` (R163). -/
def massFinish (done : FLOAT → State → Advance) (a : FLOAT) (s : State) : Advance :=
  if isFinite (calibrated a s.wghOffset s.wghScale) then done (calibrated a s.wghOffset s.wghScale) s else .fault .notFinite

/-! ### Operations -/

/-- The pseudocode of `WGH.MASS n` (R164). -/
def resumeWghMass (n : Nat) (place : Place) (s : State) : Advance :=
  match place with
  | .start => massStart n .only s
  | _ => resumeSample (fun q => averageAfterSample n q (massFinish fun m s => returning s .ok (.float m))) place s

/-- `WGH.MASS n` (R164). -/
def execWghMass (n : Nat) (s : State) : Result :=
  runOperation (.wghMass n) admitAlways (resumeWghMass n) s

/-- The pseudocode of `WGH.TARE n` (R165). -/
def resumeWghTare (n : Nat) (place : Place) (s : State) : Advance :=
  match place with
  | .start => averageStart n .only s
  | _ => resumeSample (fun q => averageAfterSample n q fun a s => returning { s with wghOffset := a } .ok .none) place s

/-- `WGH.TARE n` (R165). -/
def execWghTare (n : Nat) (s : State) : Result :=
  runOperation (.wghTare n) admitAlways (resumeWghTare n) s

/-- `WGH.CAL ref` from its beginning: the checks, in order, then `ReadAverage(CAL_SAMPLES)` (R166, R214). -/
def calibrateStart (ref : FLOAT) (s : State) : Advance :=
  if badReference ref then .fault .badArgument
  else if !isFinite s.wghOffset then .fault .badCalibration
  else averageStart Config.calSamples .only s

/-- `WGH.CAL ref` after its average `a` (R166). -/
def calibrateFinish (ref : FLOAT) (a : FLOAT) (s : State) : Advance :=
  if isFinite (calibrated a s.wghOffset ref) then returning { s with wghScale := calibrated a s.wghOffset ref } .ok .none
  else .fault .notFinite

/-- The pseudocode of `WGH.CAL ref` (R166). -/
def resumeWghCal (ref : FLOAT) (place : Place) (s : State) : Advance :=
  match place with
  | .start => calibrateStart ref s
  | _ => resumeSample (fun q => averageAfterSample Config.calSamples q (calibrateFinish ref)) place s

/-- `WGH.CAL ref` (R166). -/
def execWghCal (ref : FLOAT) (s : State) : Result :=
  runOperation (.wghCal ref) admitAlways (resumeWghCal ref) s

end Sys2Proof.Machine
end

