-- ==== Sys2Proof/Machine/Dsp.lean ====
section
/-! DEFINITION. Dsp: unit U5, the dispensing controller (45_dispense.md R180 to R193). -/

namespace Sys2Proof.Machine

/-- `ShowMessage` with `elems` left, then `done` (R182). -/
def showMessage (m : Msg) (elems : List MsgElem) (done : State → Advance) (s : State) : Advance :=
  match elems with
  | [] => done s
  | .instr code :: rest => lcdTransfer false code (.message m rest) s
  | .char byte :: rest => lcdTransfer true byte (.message m rest) s

/-- What follows each message: the availability reading; the end of an abort; the end of a completed run (R184, R189, R192). -/
def dspAfterMessage (m : Msg) (s : State) : Advance :=
  match m with
  | .wait => massStart s.params.nAvail .base s
  | .insuff => .go s (.delay .tMsg) [.ret .insufficient (.next .weight)] .finished
  | .done => .go s (.delay .tMsg) [.ret .ok (.next .main)] .finished

/-- The supply gate on the availability reading `m`, which is kept as the baseline (R183, R184, R186). -/
def dspGate (m : FLOAT) (s : State) : Advance :=
  if supplyInsufficient s.params m s.dspTarget then
    showMessage .insuff s.params.msgInsuff (dspAfterMessage .insuff) { s with dspBase := m }
  else .go { s with dspBase := m } (.motor .feeding) [.delay .tDispPoll] .dspMass

/-- The stopping test on a reading `m` of the loop (R184, R185). -/
def dspTest (m : FLOAT) (s : State) : Advance :=
  if targetReleased s.dspBase m s.dspTarget then
    .go { s with dspCur := m } (.motor .idle) [] (.lcdDone (.message .done s.params.msgDone))
  else .go { s with dspCur := m } (.delay .tDispPoll) [] .dspMass

/-- What follows a whole sample: the availability reading averages `N_AVAIL` samples, a loop reading is a single sample (R184). -/
def dspAfterSample (q : Reading) (s : State) : Advance :=
  match q with
  | .base => averageAfterSample s.params.nAvail .base (massFinish dspGate) s
  | .loop => averageAfterSample 1 .loop (massFinish dspTest) s
  | .only => outsideOperation

/-- The pseudocode of `DSP.RUN target` (R184). -/
def resumeDspRun (target : FLOAT) (place : Place) (s : State) : Advance :=
  match place with
  | .start =>
    if badTarget target then .fault .badArgument
    else showMessage .wait s.params.msgWait (dspAfterMessage .wait) { s with dspTarget := target }
  | .lcdUntil u => lcdUntil u s
  | .lcdDone (.message m elems) => showMessage m elems (dspAfterMessage m) s
  | .dspMass => massStart 1 .loop s
  | _ => resumeSample dspAfterSample place s

/-- `DSP.RUN target` (R184). -/
def execDspRun (target : FLOAT) (s : State) : Result :=
  runOperation (.dspRun target) admitDisplay (resumeDspRun target) s

end Sys2Proof.Machine
end

