-- ==== Sys2Proof/Machine/Twi.lean ====
section
/-! DEFINITION. Twi: unit U2, the two-wire serial master (42_twi.md R120 to R135). -/

namespace Sys2Proof.Machine

/-- `TwiReq(kind, b); TwiWait()` up to its first `until` (R122, R124). -/
def twiAction (kind : TwiReq) (b : Option Byte) (s : State) : Advance := .go s (.twiReq kind b) [.twiPoll] .twiUntil

/-- `until tc = 1` of `TwiWait()`, then `done` (R124). -/
def twiUntil (done : State → Advance) (s : State) : Advance :=
  if s.loc.tc then done s else .go s .twiPoll [] .twiUntil

/-- The pseudocode of `TWI.START` (R125). -/
def resumeTwiStart (place : Place) (s : State) : Advance :=
  match place with
  | .start => twiAction .start none s
  | .twiUntil => twiUntil (fun s => returning { s with twiOwned := true } .ok .none) s
  | _ => outsideOperation

/-- `TWI.START` (R125); with `twi_owned` = 1 a repeated start (R132). -/
def execTwiStart (s : State) : Result :=
  runOperation .twiStart admitAlways resumeTwiStart s

/-- The pseudocode of `TWI.STOP` (R126). -/
def resumeTwiStop (place : Place) (s : State) : Advance :=
  match place with
  | .start => twiAction .stop none s
  | .twiUntil => twiUntil (fun s => returning { s with twiOwned := false } .ok .none) s
  | _ => outsideOperation

/-- `TWI.STOP` (R126). -/
def execTwiStop (s : State) : Result :=
  runOperation .twiStop admitOwned resumeTwiStop s

/-- The pseudocode of `TWI.WRB b` (R127). The slave's acknowledge bit is not read (R31; log 19). -/
def resumeTwiWrb (b : Byte) (place : Place) (s : State) : Advance :=
  match place with
  | .start => twiAction .tx (some b) s
  | .twiUntil => twiUntil (fun s => returning s .ok .none) s
  | _ => outsideOperation

/-- `TWI.WRB b` (R127). -/
def execTwiWrb (b : Byte) (s : State) : Result :=
  runOperation (.twiWrb b) admitOwned (resumeTwiWrb b) s

/-- The pseudocode of `TWI.RDA` (R128). -/
def resumeTwiRda (place : Place) (s : State) : Advance :=
  match place with
  | .start => twiAction .rxAck none s
  | .twiUntil => twiUntil (fun s => returning s .ok (.byte s.twiDr)) s
  | _ => outsideOperation

/-- `TWI.RDA` (R128). -/
def execTwiRda (s : State) : Result :=
  runOperation .twiRda admitOwned resumeTwiRda s

/-- The pseudocode of `TWI.RDN` (R129). -/
def resumeTwiRdn (place : Place) (s : State) : Advance :=
  match place with
  | .start => twiAction .rxNack none s
  | .twiUntil => twiUntil (fun s => returning s .ok (.byte s.twiDr)) s
  | _ => outsideOperation

/-- `TWI.RDN` (R129). -/
def execTwiRdn (s : State) : Result :=
  runOperation .twiRdn admitOwned resumeTwiRdn s

end Sys2Proof.Machine
end

