-- ==== Sys2Proof/Machine/Dispatch.lean ====
section
/-! DEFINITION. Dispatch: one arm per operation. `exec i s` is ONE step of the sequencer for operation `i` (log 1). -/

namespace Sys2Proof.Machine

def exec (i : Instr) (s : State) : Host.Outcome State Fault Refusal :=
  match i with
  | .lcdInit => Sys2Proof.Machine.execLcdInit s
  | .lcdWri code => Sys2Proof.Machine.execLcdWri code s
  | .lcdWrc byte => Sys2Proof.Machine.execLcdWrc byte s
  | .lcdWrs addr => Sys2Proof.Machine.execLcdWrs addr s
  | .twiStart => Sys2Proof.Machine.execTwiStart s
  | .twiStop => Sys2Proof.Machine.execTwiStop s
  | .twiWrb b => Sys2Proof.Machine.execTwiWrb b s
  | .twiRda => Sys2Proof.Machine.execTwiRda s
  | .twiRdn => Sys2Proof.Machine.execTwiRdn s
  | .adcRaw => Sys2Proof.Machine.execAdcRaw s
  | .adcAvg n => Sys2Proof.Machine.execAdcAvg n s
  | .wghMass n => Sys2Proof.Machine.execWghMass n s
  | .wghTare n => Sys2Proof.Machine.execWghTare n s
  | .wghCal ref => Sys2Proof.Machine.execWghCal ref s
  | .dspRun target => Sys2Proof.Machine.execDspRun target s

end Sys2Proof.Machine
end

