-- ==== Sys2Proof/Machine/Step.lean ====
section
/-! DEFINITION. Step: one step of the machine (10_state.md R21, R23; 70_reset_and_hazards.md R230). -/

namespace Sys2Proof.Machine

/-- One step. Power removed: the restart, whatever was running (R230). Busy: one step of the running operation; the command port is not looked at (R23).
Idle with a command presented: the command is decoded and accepted, or refused (R23, R210). Idle without one: nothing happens. -/
def step (s : State) : Host.Outcome State Fault Refusal :=
  if s.powerCycle then .next s.restart
  else
    match s.seq with
    | .busy op _ _ => exec op s
    | .idle =>
      if s.cmdValid then
        match s.presented with
        | .ok i => exec i s
        | .error r => .refused r
      else .next s

/-- `s` with the command word `w` of `nbits` bits presented to an idle, powered block, so that the next step accepts it (R23, log 11). -/
def State.withFetchWord (s : State) (nbits w : Nat) : State :=
  { s with powerCycle := false, seq := .idle, cmdValid := true, cmdWord := BitVec.ofNat 40 (w % 2 ^ nbits) }

end Sys2Proof.Machine
end

