-- ==== Sys2Proof/Safety.lean ====
section
/-! DEFINITION. Safety: the terms claims are stated in: running one operation, reachable states, the observed history, pin traces, the state
between operations, and the soundness of the sequencer's position. -/

namespace Sys2Proof.Machine

/-! ### Runs -/

/-- `k` steps of operation `i`, stopping at the first fault or refusal. -/
def runOp (i : Instr) : Nat → State → Result
  | 0, s => .next s
  | k + 1, s =>
    match exec i s with
    | .next s' => runOp i k s'
    | .fault f => .fault f
    | .refused r => .refused r

/-- The states the block can be in, whatever its parameters (R7): after reset, after a step, after an act of the host (R225), and after the
environment has settled on answers (R43). -/
inductive Reachable : State → Prop where
  | reset (p : Params) : Reachable (State.resetWith p)
  | step {s t : State} : Reachable s → step s = .next t → Reachable t
  | present {s : State} (w : CmdWord) : Reachable s → Reachable (s.hostPresent w)
  | writeString {s : State} (a : StrAddr) (v : Byte) : Reachable s → Reachable (s.hostWriteString a v)
  | powerCycle {s : State} : Reachable s → Reachable s.hostPowerCycle
  | answers {s : State} (env : EnvQueue) : Reachable s → Reachable { s with env := env }

/-- The history an observer has after a step of `s`: a stop is recorded as the event R206 or R210 gives it (log 12). -/
def observed (s : State) : Result → List Event
  | .next t => t.hist
  | .fault f => s.hist ++ [.fault f]
  | .refused r => s.hist ++ [.refuse r]

/-- The least time the delays of a history take (R13, R255). -/
def minElapsed (p : Params) (h : List Event) : Nat :=
  (h.map fun e => match e with
    | .delay T => p.duration T
    | _ => 0).sum

/-! ### Traces: the events of the helper procedures, written from the pseudocode -/

/-- The events of `LcdPulseE()` (R92). -/
def tracePulseE : List Event :=
  [.delay .tSettle, .write .lcdE true, .delay .tSettle, .write .lcdE false, .delay .tSettle]

/-- The events of `LcdPutNibble(nib)` (R93). -/
def traceNibble (nib : Nibble) : List Event := .busWrite nib :: tracePulseE

/-- The events of `LcdWriteByte(rs, v)` (R96). -/
def traceByte (rs : Bool) (v : Byte) : List Event :=
  [.write .lcdRs rs, .write .lcdRw false] ++ traceNibble (v.extractLsb' 4 4) ++ traceNibble (v.extractLsb' 0 4)

/-- The events of one iteration of the busy-flag poll that reads `nib` (R97). -/
def tracePoll (p : Params) (nib : Nibble) : List Event :=
  [.delay .tSettle, .write .lcdE true, .delay .tSettle, .busRead nib, .write .lcdE false, .delay .tSettle] ++
    match p.bfReadPulses with
    | .one => []
    | .two => tracePulseE

/-- The events of `LcdWaitReady()` whose status reads are `nibs` (R97). -/
def traceWait (p : Params) (nibs : List Nibble) : List Event :=
  [.dir .lcdD .input, .write .lcdRs false, .write .lcdRw true] ++ nibs.flatMap (tracePoll p) ++
    [.write .lcdRw false, .dir .lcdD .output]

/-- The events of one display transfer with its handshake (R96, R97). -/
def traceTransfer (p : Params) (rs : Bool) (v : Byte) (nibs : List Nibble) : List Event :=
  traceByte rs v ++ traceWait p nibs

/-- The events of a transfer whose handshake has not ended: `nibs` are the status reads so far (R96, R97, R105). -/
def traceBusy (p : Params) (rs : Bool) (v : Byte) (nibs : List Nibble) : List Event :=
  traceByte rs v ++ [.dir .lcdD .input, .write .lcdRs false, .write .lcdRw true] ++ nibs.flatMap (tracePoll p)

/-- The events of `AdcPulseBit()` that samples `b` (R143). -/
def traceBit (p : Params) (b : Bool) : List Event :=
  match p.adcSamplePhase with
  | .high => [.write .adcSck true, .delay .tAdcClk, .adcRead b, .write .adcSck false, .delay .tAdcClk]
  | .afterLow => [.write .adcSck true, .delay .tAdcClk, .write .adcSck false, .adcRead b, .delay .tAdcClk]

/-- The events of one extra pulse (R145). -/
def traceExtra : List Event :=
  [.write .adcSck true, .delay .tAdcClk, .write .adcSck false, .delay .tAdcClk]

/-- One conversion of the ADC as the block sees it: how often the line reads not ready, and then the bits in pulse order (R142, R145). -/
structure Conversion where
  waits : Nat
  bits : List Bool
deriving DecidableEq, Repr

/-- The levels of `adc_dout` that one conversion takes. -/
def Conversion.levels (c : Conversion) : List Bool := List.replicate c.waits true ++ false :: c.bits

/-- The word the bits of a conversion make, the first bit sampled in the most significant place (R55, R144). -/
def Conversion.word (c : Conversion) : Sample := c.bits.foldl (fun w b => (w <<< 1) ||| (BitVec.ofBool b).setWidth 24) 0#24

/-- The raw sample of a conversion (R146). -/
def Conversion.raw (c : Conversion) : Sample := c.word ^^^ 0x800000#24

/-- The word in the shift register after conversions, `w` before them (R145). -/
def shiftAfter (w : Sample) (cs : List Conversion) : Sample := (cs.map Conversion.word).getLastD w

/-- The events of `ReadRawSample()` (R142, R143, R145). -/
def traceSample (p : Params) (c : Conversion) : List Event :=
  List.replicate c.waits (.adcRead true) ++ [.adcRead false] ++ c.bits.flatMap (traceBit p) ++
    (List.replicate p.adcExtraPulses.val traceExtra).flatten

/-- The sum of the samples, in order, each addition rounded (R149). -/
def sumOf (cs : List Conversion) : FLOAT := cs.foldl (fun a c => fadd a (u2f c.raw.toNat)) (u2f 0)

/-- The arithmetic mean as `ReadAverage` computes it (R149). -/
def meanOf (cs : List Conversion) : FLOAT := fdiv (sumOf cs) (u2f cs.length)

/-- The levels of `adc_dout` that conversions take one after another. -/
def levelsOf (cs : List Conversion) : List Bool := cs.flatMap Conversion.levels

/-- Events, and steps, of one iteration of the busy-flag poll (R97; vector V-L1). -/
def pollSteps (p : Params) : Nat :=
  match p.bfReadPulses with
  | .one => 6
  | .two => 11

/-- A byte written to the display, with the answers to the status reads of its handshake: `busy` in order, and then `ready` (R97). -/
structure LcdWrite where
  byte : Byte
  busy : List Nibble
  ready : Nibble
deriving DecidableEq, Repr

/-- All the status reads of a handshake. -/
def LcdWrite.reads (w : LcdWrite) : List Nibble := w.busy ++ [w.ready]

/-- Every read but the last has bit `BF_BIT` at 1, the last has it at 0 (R97). -/
def LcdWrite.answers (p : Params) (w : LcdWrite) : Prop :=
  (∀ nib ∈ w.busy, nib.getLsbD p.bfBit.val = true) ∧ w.ready.getLsbD p.bfBit.val = false

/-- One status read or more, all with bit `BF_BIT` at 1 (R97, R105). -/
def StaysBusy (p : Params) (nibs : List Nibble) : Prop := nibs ≠ [] ∧ ∀ nib ∈ nibs, nib.getLsbD p.bfBit.val = true

/-- The status reads of writes one after another. -/
def readsOf (ws : List LcdWrite) : List Nibble := ws.flatMap LcdWrite.reads

/-- String memory holds the bytes `cs`, none of them 0x00, from `addr` on, and then 0x00 (R51, R100). -/
def holdsString (s : State) (addr : StrAddr) : List Byte → Prop
  | [] => s.strByte addr = 0x00#8
  | c :: cs => s.strByte addr = c ∧ c ≠ 0x00#8 ∧ holdsString s (addr + 1#16) cs

/-- The events of `LCD.WRS` after acceptance and before `return` (R100). -/
def traceString (p : Params) (addr : StrAddr) : List LcdWrite → List Event
  | [] => [.mem addr 0x00#8]
  | w :: ws => .mem addr w.byte :: (traceTransfer p true w.byte w.reads ++ traceString p (addr + 1#16) ws)

/-- String memory holds the bytes `cs`, none of them 0x00, from `addr` on, whatever follows them (R51, R100). -/
def holdsChars (s : State) (addr : StrAddr) : List Byte → Prop
  | [] => True
  | c :: cs => s.strByte addr = c ∧ c ≠ 0x00#8 ∧ holdsChars s (addr + 1#16) cs

/-- The events of the characters `ws` of a string, read from `addr` on and written (R100). -/
def traceChars (p : Params) (addr : StrAddr) : List LcdWrite → List Event
  | [] => []
  | w :: ws => .mem addr w.byte :: (traceTransfer p true w.byte w.reads ++ traceChars p (addr + 1#16) ws)

/-- The codes of the `Instr` steps of an initialisation list (R101). -/
def initCodes (steps : List InitStep) : List Byte :=
  steps.filterMap fun st => match st with
    | .instr code => some code
    | _ => none

/-- The events of an initialisation list whose `Instr` steps are the writes `ws` (R101). -/
def traceInit (p : Params) : List InitStep → List LcdWrite → List Event
  | [], _ => []
  | .wait T :: rest, ws => .delay T :: traceInit p rest ws
  | .nibble x :: rest, ws => traceNibble x ++ traceInit p rest ws
  | .instr _ :: _, [] => []
  | .instr code :: rest, w :: ws => traceTransfer p false code w.reads ++ traceInit p rest ws

/-- `lcd_d_out` after an initialisation list, `nib` before it: every `Nibble` step and every nibble of an `Instr` step is put on the bus
(R93, R101). -/
def latchAfterInit (nib : Nibble) : List InitStep → Nibble
  | [] => nib
  | .wait _ :: rest => latchAfterInit nib rest
  | .nibble x :: rest => latchAfterInit x rest
  | .instr code :: rest => latchAfterInit (code.extractLsb' 0 4) rest

/-- The last byte written to the display, `v` if none was (R96). -/
def lastByte (v : Byte) (ws : List LcdWrite) : Byte := (ws.map LcdWrite.byte).getLastD v

/-- `lcd_d_out` after writes, `nib` before them: the low nibble of the last byte (R54, R96). -/
def lastLatch (nib : Nibble) (ws : List LcdWrite) : Nibble := (ws.map fun w => w.byte.extractLsb' 0 4).getLastD nib

/-- `lcd_rs` after writes, `rs` before them: every handshake leaves it 0 (R97, R107). -/
def lastRs (rs : Bool) (ws : List LcdWrite) : Bool := if ws.isEmpty then rs else false

/-- The byte of a message element (R182). -/
def elemCode : MsgElem → Byte
  | .instr code => code
  | .char byte => byte

/-- The register a message element goes to: 0 instruction, 1 data (R182). -/
def elemRs : MsgElem → Bool
  | .instr _ => false
  | .char _ => true

/-- The events of `ShowMessage` whose elements are the writes `ws` (R182). -/
def traceMessage (p : Params) (elems : List MsgElem) (ws : List LcdWrite) : List Event :=
  (elems.zip ws).flatMap fun x => traceTransfer p (elemRs x.1) (elemCode x.1) x.2.reads

/-- The writes are those of the message, and the display answers them. -/
def ShowsMessage (p : Params) (elems : List MsgElem) (ws : List LcdWrite) : Prop :=
  elems.map elemCode = ws.map LcdWrite.byte ∧ ∀ w ∈ ws, w.answers p

/-- The events of the dispensing loop over single readings `ls` (R184). -/
def traceLoop (p : Params) (ls : List Conversion) : List Event :=
  ls.flatMap fun c => .delay .tDispPoll :: traceSample p c

/-- The calibrated mass of conversions (R161, R163). -/
def massOf (s : State) (cs : List Conversion) : FLOAT := fdiv (fsub (meanOf cs) s.wghOffset) s.wghScale

/-- Every conversion has its 24 bits (R145). -/
def WholeSamples (cs : List Conversion) : Prop := ∀ c ∈ cs, c.bits.length = 24

/-- The calibration `Mass` accepts (R163, R239). -/
def Calibrated (s : State) : Prop := isZero s.wghScale = false ∧ isFinite s.wghScale = true ∧ isFinite s.wghOffset = true

/-- `s` with everything taken from `t` that a statement leaves open: the local variables of the pseudocode, the response fields a `return`
does not name (R24), and how many free values have been used. -/
def State.openTo (s t : State) : State :=
  { s with
    loc := t.loc
    rspNext := t.rspNext
    rspByte := t.rspByte
    rspU24 := t.rspU24
    rspF := t.rspF
    draws := t.draws }

/-- The command word of an operation without operand: format N (R71, R72). -/
def wordN (op : Byte) : CmdWord := op ++ (0#32 : Imm)

/-- The command word of an operation with a byte operand: format B (R71, R72). -/
def wordB (op b : Byte) : CmdWord := op ++ ((0#24 : BitVec 24) ++ b : Imm)

/-- The command word of an operation with a sample count: format C (R71, R72). -/
def wordC (op : Byte) (n : Nat) : CmdWord := op ++ ((0#24 : BitVec 24) ++ BitVec.ofNat 8 n : Imm)

/-- The command word of an operation with an address: format A (R71, R72). -/
def wordA (op : Byte) (a : StrAddr) : CmdWord := op ++ ((0#16 : BitVec 16) ++ a : Imm)

/-- The command word of an operation with a float: format F (R71, R72). -/
def wordF (op : Byte) (f : FLOAT) : CmdWord := op ++ f

/-- The operation that is running. -/
def State.running (s : State) : Option Instr :=
  match s.seq with
  | .idle => none
  | .busy op _ _ => some op

/-- The fifteen op codes (R74). -/
def definedOps : List Byte :=
  [0x10, 0x11, 0x12, 0x13, 0x20, 0x21, 0x22, 0x23, 0x24, 0x30, 0x31, 0x40, 0x41, 0x42, 0x50]

/-- The operations that need `lcd_inited` (R104, R238). -/
def needsDisplay : Instr → Bool
  | .lcdWri _ => true
  | .lcdWrc _ => true
  | .lcdWrs _ => true
  | .dspRun _ => true
  | _ => false

/-- The operations that need `twi_owned` (R131). -/
def needsBus : Instr → Bool
  | .twiStop => true
  | .twiWrb _ => true
  | .twiRda => true
  | .twiRdn => true
  | _ => false

/-- The state admits the operation (R211). -/
def Admitted (i : Instr) (s : State) : Prop :=
  (needsDisplay i = true → s.lcdInited = true) ∧ (needsBus i = true → s.twiOwned = true)

/-! ### Between operations -/

/-- The pin state that every operation finds and leaves (R236). -/
def AtRest (s : State) : Prop :=
  s.lcdE = false ∧ s.lcdRw = false ∧ s.lcdDDir = .output ∧ s.adcSck = false ∧ s.twiReq = .none ∧ s.motorLevel = .idle

/-! ### Runs of `DSP.RUN` -/

/-- `Mass` of conversions is finite (R163). -/
def FiniteMass (s : State) (cs : List Conversion) : Prop := isFinite (massOf s cs) = true

/-- The supply gate lets the availability reading `cs` pass (R183). -/
def GatePasses (s : State) (target : FLOAT) (cs : List Conversion) : Prop :=
  flt (massOf s cs) s.params.minSupply = false ∧ flt (massOf s cs) target = false

/-- Readings of the dispensing loop over which it goes on: each finite, none fallen from that of `cs` by the target (R185). -/
def FeedsOver (s : State) (target : FLOAT) (cs ls : List Conversion) : Prop :=
  ∀ l ∈ ls, FiniteMass s [l] ∧ fge (fsub (massOf s cs) (massOf s [l])) target = false

/-- What `DSP.RUN target` needs so that it is accepted and begins its work: an idle block at rest with the display initialised, the
parameters in their ranges, and a finite target (R7, R184, R236). -/
structure DspStarts (s : State) (target : FLOAT) : Prop where
  idle : s.seq = .idle
  inited : s.lcdInited = true
  rest : AtRest s
  params : s.params.wf = true
  target : isFinite target = true

/-- What it needs to end its availability reading: the display takes the waiting message as the writes `ws`, the calibration is good, and
the ADC answers with `N_AVAIL` whole conversions `cs`; `restL` and `restA` are the answers after these (R184). -/
structure DspOpens (s : State) (target : FLOAT) (ws : List LcdWrite) (cs : List Conversion) (restL : List Nibble) (restA : List Bool) :
    Prop extends DspStarts s target where
  shows : ShowsMessage s.params s.params.msgWait ws
  lcd : s.env.lcd = readsOf ws ++ restL
  calibrated : Calibrated s
  count : cs.length = s.params.nAvail
  whole : WholeSamples cs
  adc : s.env.adc = levelsOf cs ++ restA

/-- The events of `DSP.RUN target` from its acceptance to the end of its availability reading (R184). -/
def traceOpening (p : Params) (target : FLOAT) (ws : List LcdWrite) (cs : List Conversion) : List Event :=
  .cmd (wordF 0x50 target) :: (traceMessage p p.msgWait ws ++ cs.flatMap (traceSample p))

/-! ### Runs that have not ended -/

/-- `t` is reached from `s` by the events `h` of operation `i`, which is still running: no response, the calibration as it was, and the
motor at `level`. -/
structure RunsOn (i : Instr) (s : State) (h : List Event) (level : MotorLevel) (t : State) : Prop where
  run : runOp i h.length s = .next t
  hist : t.hist = s.hist ++ h
  running : t.running = some i
  silent : t.rspValid = false
  motor : t.motorLevel = level
  offset : t.wghOffset = s.wghOffset
  scale : t.wghScale = s.wghScale

/-- After the events `h` the operation polls the busy flag, with the bus an input and `lcd_rw` at 1 (R105, R204). -/
def PollsOn (i : Instr) (s : State) (h : List Event) (level : MotorLevel) : Prop :=
  ∃ t, RunsOn i s h level t ∧ t.lcdDDir = .input ∧ t.lcdRw = true

/-- After the events `h` the operation polls the ADC's ready line in its reading `q`, with the clock at `sck` (R153, R204). -/
def AwaitsReady (i : Instr) (s : State) (h : List Event) (level : MotorLevel) (q : Reading) (sck : Bool) : Prop :=
  ∃ t, RunsOn i s h level t ∧ t.adcSck = sck ∧ t.seq = .busy i [] (.adcUntil q)

/-- After exactly the events `h` the operation's next step is the fault `f`. The run ends in the state those events left (R206). -/
def FaultsAfter (i : Instr) (s : State) (h : List Event) (level : MotorLevel) (f : Fault) : Prop :=
  ∃ t, RunsOn i s h level t ∧ exec i t = .fault f

/-- How many samples an operation that reads the ADC takes, `DSP.RUN` apart (R147, R150, R164 to R166). -/
def sampleCount : Instr → Nat
  | .adcRaw => 1
  | .adcAvg n => n
  | .wghMass n => n
  | .wghTare n => n
  | .wghCal _ => 100
  | _ => 0

/-- The checks such an operation makes before its first read of the ADC let it pass (R163, R166). -/
def ChecksPass (s : State) : Instr → Prop
  | .wghMass _ => Calibrated s
  | .wghCal ref => isZero ref = false ∧ isFinite ref = true ∧ isFinite s.wghOffset = true
  | _ => True

/-- The reading whose last sample is whole once the next step has run its silent statements (R145). -/
def State.reading (s : State) : Option Reading :=
  match s.seq with
  | .busy _ [] (.adcPulse q) => some q
  | .busy _ [] (.adcExtra q) => some q
  | _ => none

/-- The word of that sample: after the last data pulse its bit is still to be shifted in, after the extra pulses it is there (R145). -/
def State.finishedWord (s : State) : Sample :=
  match s.seq with
  | .busy _ [] (.adcPulse _) => shiftIn s.adcShift s.loc.bit
  | _ => s.adcShift

/-- The mean of `n` samples of which that one is the last (R149). -/
def State.finishedMean (s : State) (n : Nat) : FLOAT := fdiv (fadd s.avgSum (u2f (rawSample s.finishedWord).toNat)) (u2f n)

/-- That sample ends an average of `n`, and `(average - offset) / divisor` is not finite (R163, R166). -/
def State.quotientNotFinite (s : State) (n : Nat) (divisor : FLOAT) : Prop :=
  n ≤ (s.avgI + 1).toNat ∧ isFinite (fdiv (fsub (s.finishedMean n) s.wghOffset) divisor) = false

/-- The pulse counter: 0 to 23 on the way to the end of a data pulse and there, 0 to 24 everywhere else (R25, R145). -/
def Counted (s : State) : Prop :=
  match s.seq with
  | .busy _ _ (.adcPulse _) => s.adcCnt.toNat ≤ 23
  | _ => s.adcCnt.toNat ≤ 24

/-! ### Sound positions -/

/-- The lines whose level between operations R236 fixes, and the motor. -/
structure Lines where
  rw : Bool
  e : Bool
  dir : Direction
  sck : Bool
  motor : MotorLevel
deriving DecidableEq, Repr

/-- The lines of a state. -/
def State.lines (s : State) : Lines :=
  { rw := s.lcdRw, e := s.lcdE, dir := s.lcdDDir, sck := s.adcSck, motor := s.motorLevel }

/-- What a primitive makes of the lines. -/
def Lines.after (l : Lines) : Prim → Lines
  | .pinDir d => { l with dir := d }
  | .pinWrite .lcdRw v => { l with rw := v }
  | .pinWrite .lcdE v => { l with e := v }
  | .pinWrite .adcSck v => { l with sck := v }
  | .motor level => { l with motor := level }
  | _ => l

/-- The lines between operations. -/
def restLines : Lines := { rw := false, e := false, dir := .output, sck := false, motor := .idle }

/-- Now and after each primitive of a straight-line piece, `lcd_rw` is 1 only while the bus is an input (R241). -/
def contentionFree (l : Lines) : List Prim → Bool
  | [] => !l.rw || l.dir == .input
  | p :: rest => (!l.rw || l.dir == .input) && contentionFree (l.after p) rest

/-- The lines with which the pseudocode stands at a place: at `until bf = 0` the bus is an input and `lcd_rw` is 1 (R97, R204); in the
dispensing loop the motor is at `FEEDING` (R184, R188); everywhere else as between operations. -/
def linesAt : Place → Lines
  | .lcdUntil _ => { restLines with rw := true, dir := .input }
  | .dspMass => { restLines with motor := .feeding }
  | .adcUntil .loop => { restLines with motor := .feeding }
  | .adcPulse .loop => { restLines with motor := .feeding }
  | .adcExtra .loop => { restLines with motor := .feeding }
  | _ => restLines

/-- The display operations and the one that shows messages. -/
def usesDisplay : Instr → Bool
  | .lcdInit => true
  | .lcdWri _ => true
  | .lcdWrc _ => true
  | .lcdWrs _ => true
  | .dspRun _ => true
  | _ => false

/-- The operations that read the ADC. -/
def usesAdc : Instr → Bool
  | .adcRaw => true
  | .adcAvg _ => true
  | .wghMass _ => true
  | .wghTare _ => true
  | .wghCal _ => true
  | .dspRun _ => true
  | _ => false

/-- The operations of U2. -/
def usesTwi : Instr → Bool
  | .twiStart => true
  | .twiStop => true
  | .twiWrb _ => true
  | .twiRda => true
  | .twiRdn => true
  | _ => false

/-- The primitives that can stand in the rest of a straight-line piece of an operation. -/
def primFits (op : Instr) : Prim → Bool
  | .pinDir _ => usesDisplay op
  | .pinWrite .adcSck _ => usesAdc op
  | .pinWrite _ _ => usesDisplay op
  | .busWrite _ => usesDisplay op
  | .readBusy => usesDisplay op
  | .readBit => usesAdc op
  | .delay _ => true
  | _ => false

/-- The operation is `DSP.RUN`. -/
def isDispense : Instr → Bool
  | .dspRun _ => true
  | _ => false

/-- The display transfers an operation makes. -/
def useFits (op : Instr) : LcdUse → Bool
  | .single => match op with
    | .lcdWri _ => true
    | .lcdWrc _ => true
    | _ => false
  | .string => match op with
    | .lcdWrs _ => true
    | _ => false
  | .init _ => match op with
    | .lcdInit => true
    | _ => false
  | .message _ _ => isDispense op

/-- The readings an operation makes: `DSP.RUN` its two kinds, the others the only one they have. -/
def readingFits (op : Instr) (q : Reading) : Bool := usesAdc op && (isDispense op == (q != .only))

/-- The places an operation's pseudocode has. -/
def placeFits (op : Instr) : Place → Bool
  | .start => true
  | .lcdUntil u => useFits op u
  | .lcdDone u => useFits op u
  | .strRead => useFits op .string
  | .twiUntil => usesTwi op
  | .adcUntil q => readingFits op q
  | .adcPulse q => readingFits op q
  | .adcExtra q => readingFits op q
  | .dspMass => isDispense op
  | .finished => isDispense op

/-- The rest of a straight-line piece fits the place that follows it: only the two endings of `DSP.RUN` leave a `return` for a later step,
and a poll of the engine is the last thing before its `until`. -/
def todoFits (op : Instr) (todo : List Prim) (place : Place) : Bool :=
  match place with
  | .finished => todo == [.ret .insufficient (.next .weight)] || todo == [.ret .ok (.next .main)]
  | .twiUntil => todo == [] || todo == [.twiPoll]
  | _ => todo.all (primFits op)

/-- The bus action of an operation of U2 (R125 to R129). -/
def actionOf : Instr → TwiReq
  | .twiStart => .start
  | .twiStop => .stop
  | .twiWrb _ => .tx
  | .twiRda => .rxAck
  | .twiRdn => .rxNack
  | _ => .none

/-- The byte handed over with it: `TX` has one (R122, R127). -/
def payloadOf : Instr → Option Byte
  | .twiWrb b => some b
  | _ => none

/-- The two-wire engine: inside a wait that has not seen its action complete, that action is pending and the flag is 0; nothing is pending
anywhere else (R122, R123, R135). -/
def TwiSound (op : Instr) (s : State) (todo : List Prim) (place : Place) : Prop :=
  match place with
  | .twiUntil =>
    (todo = [] ∧ s.loc.tc = true ∧ s.twiReq = .none ∧ s.twiTc = true) ∨
      ((todo = [] → s.loc.tc = false) ∧ s.twiReq = actionOf op ∧ s.twiTc = false)
  | _ => s.twiReq = .none

/-- The sequencer's position is one its operation's pseudocode has, and the pins are as the pseudocode has left them there. Idle: the
pins are at rest (R236). -/
def Sound (s : State) : Prop :=
  match s.seq with
  | .idle => AtRest s
  | .busy op todo place =>
    placeFits op place = true ∧ todoFits op todo place = true ∧ todo.foldl Lines.after s.lines = linesAt place ∧
      contentionFree s.lines todo = true ∧ TwiSound op s todo place

end Sys2Proof.Machine
end

