-- ==== Sys2Proof/Certificates/Slice0/Obligations.lean ====
section
/-! DEFINITION. Obligations: what the provers are asked to prove of the model. Float operations, traces and invariants are the definitions of
Machine/Float.lean and Safety.lean. A run is stated with its number of steps equal to the number of its events, since every step appends one
event (R10). `s.openTo t` leaves open what the spec leaves open, and every other field of the state after is named or unchanged. -/

open Sys2Proof Sys2Proof.Machine

/-! ### Encoding -/

/-- O1. Decoding undoes encoding for every well-formed operation with every operand (R73, R74). -/
def Obligations.DecodeAfterEncode : Prop :=
  ∀ i : Instr, i.wf = true → decode (encode i) = .ok i

/-- O2. Every word that decodes is the encoding of what it decodes to, which is well formed: each command has one word (R71 to R76). -/
def Obligations.EncodeAfterDecode : Prop :=
  ∀ (w : CmdWord) (i : Instr), decode w = .ok i → i.wf = true ∧ encode i = w

/-- O3. One word of each row of the opcode map, written out from R72 and R74, decodes to its operation. -/
def Obligations.SpecWordsDecode : Prop :=
  decode 0x1000000000#40 = .ok .lcdInit ∧ decode 0x1100000001#40 = .ok (.lcdWri 0x01) ∧
  decode 0x1200000041#40 = .ok (.lcdWrc 0x41) ∧ decode 0x1300000100#40 = .ok (.lcdWrs 0x0100) ∧
  decode 0x2000000000#40 = .ok .twiStart ∧ decode 0x2100000000#40 = .ok .twiStop ∧
  decode 0x22000000D0#40 = .ok (.twiWrb 0xD0) ∧ decode 0x2300000000#40 = .ok .twiRda ∧
  decode 0x2400000000#40 = .ok .twiRdn ∧ decode 0x3000000000#40 = .ok .adcRaw ∧
  decode 0x310000000A#40 = .ok (.adcAvg 10) ∧ decode 0x400000000A#40 = .ok (.wghMass 10) ∧
  decode 0x410000000A#40 = .ok (.wghTare 10) ∧ decode 0x4242C80000#40 = .ok (.wghCal 0x42C80000) ∧
  decode 0x5041F00000#40 = .ok (.dspRun 0x41F00000)

/-- O4. The 241 values of `op` outside the opcode map are refused with `ReservedOp` (R75). -/
def Obligations.ReservedOpRefused : Prop :=
  ((List.range 256).filter fun k => decide (BitVec.ofNat 8 k ∉ definedOps)).length = 241 ∧
  ∀ w : CmdWord, (decode w = .error .reservedOp ↔ w.extractLsb' 32 8 ∉ definedOps) ∧
    ∀ s : State, s.powerCycle = false → s.seq = .idle → s.cmdValid = true → s.cmdWord = w →
      w.extractLsb' 32 8 ∉ definedOps → step s = .refused .reservedOp

/-- O5. A command with a must-be-zero bit at 1 is refused with `ReservedBits`, and only such a command is (R72, R76). -/
def Obligations.ReservedBitsRefused : Prop :=
  ∀ w : CmdWord,
    let op : Byte := w.extractLsb' 32 8
    let reserved : Prop :=
      (op ∈ ([0x10, 0x20, 0x21, 0x23, 0x24, 0x30] : List Byte) ∧ w.extractLsb' 0 32 ≠ 0#32) ∨
      (op ∈ ([0x11, 0x12, 0x22, 0x31, 0x40, 0x41] : List Byte) ∧ w.extractLsb' 8 24 ≠ 0#24) ∨
      (op = 0x13#8 ∧ w.extractLsb' 16 16 ≠ 0#16)
    (decode w = .error .reservedBits ↔ reserved) ∧
    ∀ s : State, s.powerCycle = false → s.seq = .idle → s.cmdValid = true → s.cmdWord = w → reserved →
      step s = .refused .reservedBits

/-! ### The machine -/

/-- O6. A step runs the decoded command, or one step of the running operation, or, with neither, nothing (R21, R23; the last clause is the
model's reading, log 11). -/
def Obligations.StepRunsDecoded : Prop :=
  ∀ s : State, s.powerCycle = false →
    (∀ i, s.seq = .idle → s.cmdValid = true → decode s.cmdWord = .ok i → step s = exec i s) ∧
    (∀ i todo place, s.seq = .busy i todo place → step s = exec i s) ∧
    (s.seq = .idle → s.cmdValid = false → step s = .next s)

/-- O7. From an idle block with a command presented, the machine's steps are the steps of that operation, up to its return (R21, R23). -/
def Obligations.MachineRunsOperation : Prop :=
  ∀ (i : Instr) (k : Nat) (s t : State), s.powerCycle = false → s.seq = .idle → s.cmdValid = true → decode s.cmdWord = .ok i →
    runOp i k s = .next t → (∀ j u, 0 < j → j < k → runOp i j s = .next u → u.seq ≠ .idle) → Sys2Proof.core.run k s = .next t

/-- O8. Acceptance: the command is latched, its event appended, the old response withdrawn, nothing else moves (R23, R24;
`cmdValid` falling with it is the model's, log 20). -/
def Obligations.AcceptCommand : Prop :=
  ∀ (i : Instr) (s : State), s.powerCycle = false → s.seq = .idle → s.cmdValid = true → decode s.cmdWord = .ok i → Admitted i s →
    step s = .next { s with
      cmdValid := false
      rspValid := false
      seq := .busy i [] .start
      hist := s.hist ++ [.cmd s.cmdWord] }

/-- O9. While the block is busy its steps do not depend on the command port: a command presented then is neither accepted nor queued
(R23). -/
def Obligations.BusyIgnoresCommandPort : Prop :=
  ∀ (s : State) (v : Bool) (w : CmdWord), s.powerCycle = false → s.seq ≠ .idle →
    step { s with cmdValid := v, cmdWord := w } =
      match step s with
      | .next t => .next { t with cmdValid := v, cmdWord := w }
      | .fault f => .fault f
      | .refused r => .refused r

/-- O10. The host cannot present a command or change string memory while the block is busy (R225); another operation's `exec` leaves a busy
block as it is (the model's choice, log 2). -/
def Obligations.HostWaitsWhileBusy : Prop :=
  ∀ (s : State) (i : Instr) (todo : List Prim) (place : Place), s.seq = .busy i todo place →
    (∀ w, s.hostPresent w = s) ∧ (∀ a v, s.hostWriteString a v = s) ∧ (∀ j, j ≠ i → exec j s = .next s)

/-- O11. Commands whose state is not there are refused at acceptance, before their first step (R104, R131, R211, R238). -/
def Obligations.StateRefusals : Prop :=
  ∀ (i : Instr) (s : State), s.powerCycle = false → s.seq = .idle → s.cmdValid = true → decode s.cmdWord = .ok i →
    (needsDisplay i = true → s.lcdInited = false → step s = .refused .lcdNotInitialised) ∧
    (needsBus i = true → s.twiOwned = false → step s = .refused .twiNotStarted)

/-- O12. A running operation is never refused: refusals come at acceptance only (R211). -/
def Obligations.BusyNeverRefused : Prop :=
  ∀ (s : State) (r : Refusal), step s = .refused r → s.powerCycle = false ∧ s.seq = .idle ∧ s.cmdValid = true

/-- O13. Every step of an operation, acceptance included, appends exactly one event (R10, R48). -/
def Obligations.OneEventPerStep : Prop :=
  ∀ (i : Instr) (s t : State), (s.seq = .idle ∨ s.running = some i) → exec i s = .next t → ∃ e : Event, t.hist = s.hist ++ [e]

/-- O14. Power removed: one step leads to the state of R49, in the middle of whatever was running (R230 to R232, R234;
the field `powerCycle` is the model's form of this input, log 10, and what it keeps is log 9). -/
def Obligations.RestartAtAnyStep : Prop :=
  ∀ s : State, s.powerCycle = true → ∃ t : State, step s = .next t ∧ t.powerCycle = false ∧
    t.seq = .idle ∧ t.rspValid = false ∧ t.lcdInited = false ∧ t.twiReq = .none ∧ t.twiTc = false ∧ t.twiOwned = false ∧
    t.motorLevel = .idle ∧ t.wghOffset = s.params.offsetReset ∧ t.wghScale = s.params.scaleReset ∧ t.hist = [] ∧
    t.lcdRs = false ∧ t.lcdRw = false ∧ t.lcdE = false ∧ t.lcdDDir = .output ∧ t.lcdDOut = 0b0000#4 ∧ t.adcSck = false ∧
    t.twiLinesReleased = true ∧ t.params = s.params

/-- O15. The state right after reset, every value the spec gives (R49). -/
def Obligations.ResetValues : Prop :=
  State.reset.seq = .idle ∧ State.reset.rspValid = false ∧ State.reset.lcdInited = false ∧ State.reset.twiReq = .none ∧
  State.reset.twiTc = false ∧ State.reset.twiOwned = false ∧ State.reset.motorLevel = .idle ∧
  State.reset.wghOffset = Config.offsetReset ∧ State.reset.wghScale = Config.scaleReset ∧ State.reset.hist = [] ∧
  State.reset.lcdRs = false ∧ State.reset.lcdRw = false ∧ State.reset.lcdE = false ∧ State.reset.lcdDDir = .output ∧
  State.reset.lcdDOut = 0b0000#4 ∧ State.reset.adcSck = false ∧ State.reset.pinDirection .adcDout = .input

/-! ### Who writes what -/

/-- O16. String memory: read where the pointer points, with the event `Mem` (R11, R100), never written by a step, wrapping (R51); a host write
(R225) is read back and changes one byte, for a memory in canonical form (the form, and what an unwritten byte reads as, are the model's,
log 8). -/
def Obligations.StringMemory : Prop :=
  (∀ s t : State, s.powerCycle = false → step s = .next t → t.strmem = s.strmem) ∧
  (∀ (op : Instr) (s : State), (doPrim op .memRead s).loc.c = s.strByte s.strPtr ∧
    (doPrim op .memRead s).hist = s.hist ++ [.mem s.strPtr (s.strByte s.strPtr)]) ∧
  (∀ a : StrAddr, (nextStringAddr a).toNat = (a.toNat + 1) % 65536) ∧
  (∀ (s : State) (a b : StrAddr) (v : Byte), Memory.wf s.strmem = true → s.seq = .idle →
    (s.hostWriteString a v).strByte b = if b = a then v else s.strByte b)

/-- O17. String memory keeps its canonical form, and in that form equal contents are equal data (the form is the model's, log 8). -/
def Obligations.MemoryCanonical : Prop :=
  Memory.wf State.reset.strmem = true ∧
  (∀ s t : State, Memory.wf s.strmem = true → step s = .next t → Memory.wf t.strmem = true) ∧
  (∀ (s : State) (a : StrAddr) (v : Byte), Memory.wf s.strmem = true → Memory.wf (s.hostWriteString a v).strmem = true) ∧
  (∀ m m' : Memory, Memory.wf m = true → Memory.wf m' = true →
    (∀ a : StrAddr, Memory.read m a.toNat = Memory.read m' a.toNat) → m = m')

/-- O18. The parameters are constants: no step changes them, a restart included (R41). -/
def Obligations.ParamsConstant : Prop :=
  ∀ s t : State, step s = .next t → t.params = s.params

/-- O19. `wgh_offset` is written by the last step of `WGH.TARE` and `wgh_scale` by the last step of `WGH.CAL`, by nothing else (R36, R165, R166;
that the write falls in the step of the `return` is R10 as the model reads it, log 15). -/
def Obligations.CalibrationWriters : Prop :=
  ∀ s t : State, s.powerCycle = false → step s = .next t →
    (t.wghOffset ≠ s.wghOffset → (∃ n, s.running = some (.wghTare n)) ∧ t.seq = .idle) ∧
    (t.wghScale ≠ s.wghScale → (∃ ref, s.running = some (.wghCal ref)) ∧ t.seq = .idle)

/-- O20. Each data register is written only by the operations R25 lists for it. -/
def Obligations.RegisterOwners : Prop :=
  ∀ s t : State, Sound s → s.powerCycle = false → step s = .next t →
    (t.lcdByte ≠ s.lcdByte → ∃ i, s.running = some i ∧ usesDisplay i = true) ∧
    (t.strPtr ≠ s.strPtr → ∃ addr, s.running = some (.lcdWrs addr)) ∧
    (t.twiDr ≠ s.twiDr → (∃ b, s.running = some (.twiWrb b)) ∨ s.running = some .twiRda ∨ s.running = some .twiRdn) ∧
    (t.adcShift ≠ s.adcShift ∨ t.adcCnt ≠ s.adcCnt → ∃ i, s.running = some i ∧ usesAdc i = true) ∧
    (t.avgSum ≠ s.avgSum ∨ t.avgI ≠ s.avgI → ∃ i, s.running = some i ∧ usesAdc i = true ∧ i ≠ .adcRaw) ∧
    (t.dspTarget ≠ s.dspTarget ∨ t.dspBase ≠ s.dspBase ∨ t.dspCur ≠ s.dspCur → ∃ target, s.running = some (.dspRun target))

/-- O21. The control state has its writers: `lcd_inited` the return of `LCD.INIT`, `twi_owned` the returns of `TWI.START` and `TWI.STOP`,
the motor `DSP.RUN`, the bus and the clock their own operations (R28, R32, R38, R41). -/
def Obligations.ControlStateWriters : Prop :=
  ∀ s t : State, Sound s → s.powerCycle = false → step s = .next t →
    (t.lcdInited ≠ s.lcdInited → s.running = some .lcdInit ∧ t.lcdInited = true ∧ t.seq = .idle) ∧
    (t.twiOwned ≠ s.twiOwned → t.seq = .idle ∧
      (s.running = some .twiStart ∧ t.twiOwned = true ∨ s.running = some .twiStop ∧ t.twiOwned = false)) ∧
    (t.motorLevel ≠ s.motorLevel → ∃ target, s.running = some (.dspRun target)) ∧
    (t.lcdDDir ≠ s.lcdDDir ∨ t.lcdDOut ≠ s.lcdDOut ∨ t.lcdRs ≠ s.lcdRs ∨ t.lcdRw ≠ s.lcdRw ∨ t.lcdE ≠ s.lcdE →
      ∃ i, s.running = some i ∧ usesDisplay i = true) ∧
    (t.adcSck ≠ s.adcSck → ∃ i, s.running = some i ∧ usesAdc i = true) ∧
    (t.twiReq ≠ s.twiReq ∨ t.twiTc ≠ s.twiTc → ∃ i, s.running = some i ∧ usesTwi i = true)

/-! ### Invariants -/

/-- O22. Every step keeps the sequencer at a position its operation has, with the pins as the pseudocode left them there, at rest when idle,
and the bus free of contention. -/
def Obligations.SoundKept : Prop :=
  ∀ s t : State, Sound s → step s = .next t → Sound t

/-- O23. The state after reset is sound, whatever the parameters. -/
def Obligations.SoundAtReset : Prop := Sound State.reset ∧ ∀ p : Params, Sound (State.resetWith p)

/-- O24. Every state reachable from the reset of a block with any parameters is sound; spelled out for an idle one: its pins are at rest (R236;
a faulted run has no further state, log 12). -/
def Obligations.ReachableSound : Prop :=
  ∀ s : State, Reachable s → Sound s ∧ (s.seq = .idle → AtRest s)

/-- O25. In every sound state, so in every reachable one, the block and the display do not both drive the bus: while `lcd_rw` is 1 the bus
is an input (R241). -/
def Obligations.NoBusContention : Prop :=
  ∀ s : State, Sound s → s.lcdRw = true → s.lcdDDir = .input

/-- O26. In every sound state, so in every reachable one, the motor is at `FEEDING` only while a `DSP.RUN` is running (R38, R188). -/
def Obligations.MotorFeedsOnlyInRun : Prop :=
  ∀ s : State, Sound s → s.motorLevel = .feeding → ∃ target, s.running = some (.dspRun target)

/-- O27. In every sound state, so in every reachable one, in which `adc_sck` is 1, the running piece of pseudocode still writes it 0
(R152, R248). -/
def Obligations.ClockNeverRests : Prop :=
  ∀ s : State, Sound s → s.adcSck = true →
    ∃ i todo place, s.seq = .busy i todo place ∧ usesAdc i = true ∧ Prim.pinWrite .adcSck false ∈ todo

/-- O28. `adc_cnt` is 0 to 24 (R25): 0 to 23 up to the end of each data pulse, 0 to 24 elsewhere. Every step keeps this, from every state that
has it and for all parameters; reset has it, so every reachable state does. -/
def Obligations.SampleCounterBounded : Prop :=
  (∀ s t : State, Counted s → step s = .next t → Counted t) ∧ (∀ p : Params, Counted (State.resetWith p)) ∧
  ∀ s : State, Reachable s → Counted s ∧ s.adcCnt.toNat ≤ 24

/-- O29. Which operation raises which fault, and under which condition on its operand, the calibration or the finished average (R207, R208,
R209); the model's own fault (log 13) is raised in no sound state. -/
def Obligations.FaultTable : Prop :=
  ∀ (s : State) (f : Fault), Sound s → s.params.wf = true → step s = .fault f →
    ∃ i, s.running = some i ∧
      match f with
      | .zeroSamples => i = .adcAvg 0 ∨ i = .wghMass 0 ∨ i = .wghTare 0
      | .badCalibration =>
        ¬ Calibrated s ∧ ((∃ n, i = .wghMass n) ∨ (∃ ref, i = .wghCal ref ∧ isFinite s.wghOffset = false) ∨ ∃ target, i = .dspRun target)
      | .badArgument =>
        (∃ ref, i = .wghCal ref ∧ (isZero ref = true ∨ isFinite ref = false)) ∨ ∃ target, i = .dspRun target ∧ isFinite target = false
      | .notFinite =>
        (∃ n, i = .wghMass n ∧ s.reading = some .only ∧ s.quotientNotFinite n s.wghScale) ∨
          (∃ ref, i = .wghCal ref ∧ s.reading = some .only ∧ s.quotientNotFinite 100 ref) ∨
          ∃ target, i = .dspRun target ∧
            ((s.reading = some .base ∧ s.quotientNotFinite s.params.nAvail s.wghScale) ∨
              (s.reading = some .loop ∧ s.quotientNotFinite 1 s.wghScale))
      | .positionOutsideOperation => False

/-! ### Runs of the display operations -/

/-- O30. `LCD.WRI code`, whole, for every code and every answer of the busy flag that ends (R96 to R98). -/
def Obligations.LcdWriRun : Prop :=
  ∀ (s : State) (code : Byte) (w : LcdWrite) (rest : List Nibble), s.seq = .idle → s.lcdInited = true → w.byte = code →
    w.answers s.params → s.env.lcd = w.reads ++ rest →
    let h : List Event := .cmd (wordB 0x11 code) :: (traceTransfer s.params false code w.reads ++ [.ret 0x11 .ok .none])
    ∃ t : State, runOp (.lcdWri code) h.length s = .next t ∧ t = { s.openTo t with
      cmdValid := false
      seq := .idle
      rspValid := true
      rspOutcome := .ok
      lcdByte := code
      lcdRs := false
      lcdRw := false
      lcdE := false
      lcdDOut := code.extractLsb' 0 4
      lcdDDir := .output
      env := { s.env with lcd := rest }
      hist := s.hist ++ h }

/-- O31. `LCD.WRC byte`, whole (R96, R97, R99). -/
def Obligations.LcdWrcRun : Prop :=
  ∀ (s : State) (byte : Byte) (w : LcdWrite) (rest : List Nibble), s.seq = .idle → s.lcdInited = true → w.byte = byte →
    w.answers s.params → s.env.lcd = w.reads ++ rest →
    let h : List Event := .cmd (wordB 0x12 byte) :: (traceTransfer s.params true byte w.reads ++ [.ret 0x12 .ok .none])
    ∃ t : State, runOp (.lcdWrc byte) h.length s = .next t ∧ t = { s.openTo t with
      cmdValid := false
      seq := .idle
      rspValid := true
      rspOutcome := .ok
      lcdByte := byte
      lcdRs := false
      lcdRw := false
      lcdE := false
      lcdDOut := byte.extractLsb' 0 4
      lcdDDir := .output
      env := { s.env with lcd := rest }
      hist := s.hist ++ h }

/-- O32. `LCD.WRS addr`, whole, for a string of any length, the empty one and one that crosses 0xFFFF included (R100). -/
def Obligations.LcdWrsRun : Prop :=
  ∀ (s : State) (addr : StrAddr) (ws : List LcdWrite) (rest : List Nibble), s.seq = .idle → s.lcdInited = true → AtRest s →
    holdsString s addr (ws.map LcdWrite.byte) → (∀ w ∈ ws, w.answers s.params) → s.env.lcd = readsOf ws ++ rest →
    let h : List Event := .cmd (wordA 0x13 addr) :: (traceString s.params addr ws ++ [.ret 0x13 .ok .none])
    ∃ t : State, runOp (.lcdWrs addr) h.length s = .next t ∧ t = { s.openTo t with
      cmdValid := false
      seq := .idle
      rspValid := true
      rspOutcome := .ok
      strPtr := addr + BitVec.ofNat 16 ws.length
      lcdByte := lastByte s.lcdByte ws
      lcdRs := lastRs s.lcdRs ws
      lcdDOut := lastLatch s.lcdDOut ws
      env := { s.env with lcd := rest }
      hist := s.hist ++ h }

/-- O33. `LCD.INIT`, whole, for every initialisation list and from either value of `lcd_inited` (R101). -/
def Obligations.LcdInitRun : Prop :=
  ∀ (s : State) (ws : List LcdWrite) (rest : List Nibble), s.seq = .idle → ws.map LcdWrite.byte = initCodes s.params.lcdInitSeq →
    (∀ w ∈ ws, w.answers s.params) → s.env.lcd = readsOf ws ++ rest →
    let h : List Event := .cmd (wordN 0x10) ::
      ([.dir .lcdD .output, .write .lcdRs false, .write .lcdRw false, .write .lcdE false] ++
        traceInit s.params s.params.lcdInitSeq ws ++ [.ret 0x10 .ok .none])
    ∃ t : State, runOp .lcdInit h.length s = .next t ∧ t = { s.openTo t with
      cmdValid := false
      seq := .idle
      rspValid := true
      rspOutcome := .ok
      lcdInited := true
      lcdByte := lastByte s.lcdByte ws
      lcdRs := false
      lcdRw := false
      lcdE := false
      lcdDOut := latchAfterInit s.lcdDOut s.params.lcdInitSeq
      lcdDDir := .output
      env := { s.env with lcd := rest }
      hist := s.hist ++ h }

/-- O34. A busy flag that never clears: after any number of status reads that all answer busy, `LCD.WRI`, `LCD.WRC`, any character of
`LCD.WRS` and any `Instr` step of `LCD.INIT` still poll, with the bus an input and `lcd_rw` at 1 (R100, R101, R105, R204). -/
def Obligations.LcdHangs : Prop :=
  ∀ (s : State) (nibs rest : List Nibble), s.seq = .idle → StaysBusy s.params nibs →
    (∀ v : Byte, s.lcdInited = true → s.env.lcd = nibs ++ rest →
      PollsOn (.lcdWri v) s (.cmd (wordB 0x11 v) :: traceBusy s.params false v nibs) s.motorLevel ∧
      PollsOn (.lcdWrc v) s (.cmd (wordB 0x12 v) :: traceBusy s.params true v nibs) s.motorLevel) ∧
    (∀ (addr : StrAddr) (ws : List LcdWrite) (c : Byte), s.lcdInited = true → holdsChars s addr (ws.map LcdWrite.byte ++ [c]) →
      (∀ w ∈ ws, w.answers s.params) → s.env.lcd = readsOf ws ++ nibs ++ rest →
      PollsOn (.lcdWrs addr) s (.cmd (wordA 0x13 addr) :: (traceChars s.params addr ws ++
        .mem (addr + BitVec.ofNat 16 ws.length) c :: traceBusy s.params true c nibs)) s.motorLevel) ∧
    (∀ (before after : List InitStep) (code : Byte) (ws : List LcdWrite), s.params.lcdInitSeq = before ++ .instr code :: after →
      ws.map LcdWrite.byte = initCodes before → (∀ w ∈ ws, w.answers s.params) → s.env.lcd = readsOf ws ++ nibs ++ rest →
      PollsOn .lcdInit s (.cmd (wordN 0x10) ::
        ([.dir .lcdD .output, .write .lcdRs false, .write .lcdRw false, .write .lcdE false] ++ traceInit s.params before ws ++
          traceBusy s.params false code nibs)) s.motorLevel)

/-! ### Runs of the two-wire operations -/

/-- O35. `TWI.START`, whole, from either value of `twi_owned`, for any number of polls that answer 0 (R122 to R125, R132). -/
def Obligations.TwiStartRun : Prop :=
  ∀ (s : State) (waits : List TwiAnswer) (r : Byte) (rest : List TwiAnswer), s.seq = .idle → (∀ a ∈ waits, a.tc = false) →
    s.env.twi = waits ++ { tc := true, byte := r } :: rest →
    let h : List Event := .cmd (wordN 0x20) :: .twi .start none ::
      (List.replicate waits.length (.twiTc false none) ++ [.twiTc true none, .ret 0x20 .ok .none])
    ∃ t : State, runOp .twiStart h.length s = .next t ∧ t = { s.openTo t with
      cmdValid := false
      seq := .idle
      rspValid := true
      rspOutcome := .ok
      twiReq := .none
      twiTc := true
      twiOwned := true
      env := { s.env with twi := rest }
      hist := s.hist ++ h }

/-- O36. `TWI.STOP`, whole (R122 to R124, R126). -/
def Obligations.TwiStopRun : Prop :=
  ∀ (s : State) (waits : List TwiAnswer) (r : Byte) (rest : List TwiAnswer), s.seq = .idle → s.twiOwned = true →
    (∀ a ∈ waits, a.tc = false) → s.env.twi = waits ++ { tc := true, byte := r } :: rest →
    let h : List Event := .cmd (wordN 0x21) :: .twi .stop none ::
      (List.replicate waits.length (.twiTc false none) ++ [.twiTc true none, .ret 0x21 .ok .none])
    ∃ t : State, runOp .twiStop h.length s = .next t ∧ t = { s.openTo t with
      cmdValid := false
      seq := .idle
      rspValid := true
      rspOutcome := .ok
      twiReq := .none
      twiTc := true
      twiOwned := false
      env := { s.env with twi := rest }
      hist := s.hist ++ h }

/-- O37. `TWI.WRB b`, whole, for every byte (R122 to R124, R127). -/
def Obligations.TwiWrbRun : Prop :=
  ∀ (s : State) (b : Byte) (waits : List TwiAnswer) (r : Byte) (rest : List TwiAnswer), s.seq = .idle → s.twiOwned = true →
    (∀ a ∈ waits, a.tc = false) → s.env.twi = waits ++ { tc := true, byte := r } :: rest →
    let h : List Event := .cmd (wordB 0x22 b) :: .twi .tx (some b) ::
      (List.replicate waits.length (.twiTc false none) ++ [.twiTc true none, .ret 0x22 .ok .none])
    ∃ t : State, runOp (.twiWrb b) h.length s = .next t ∧ t = { s.openTo t with
      cmdValid := false
      seq := .idle
      rspValid := true
      rspOutcome := .ok
      twiReq := .none
      twiTc := true
      twiDr := b
      env := { s.env with twi := rest }
      hist := s.hist ++ h }

/-- O38. `TWI.RDA` and `TWI.RDN`, whole: the byte the slave supplies is in `twi_dr` and in `rsp_byte`; they differ in the acknowledge
(R122 to R124, R128, R129). -/
def Obligations.TwiReadRuns : Prop :=
  ∀ (s : State) (waits : List TwiAnswer) (r : Byte) (rest : List TwiAnswer), s.seq = .idle → s.twiOwned = true →
    (∀ a ∈ waits, a.tc = false) → s.env.twi = waits ++ { tc := true, byte := r } :: rest →
    (let h : List Event := .cmd (wordN 0x23) :: .twi .rxAck none ::
        (List.replicate waits.length (.twiTc false none) ++ [.twiTc true (some r), .ret 0x23 .ok (.byte r)])
      ∃ t : State, runOp .twiRda h.length s = .next t ∧ t = { s.openTo t with
        cmdValid := false
        seq := .idle
        rspValid := true
        rspOutcome := .ok
        rspByte := r
        twiReq := .none
        twiTc := true
        twiDr := r
        env := { s.env with twi := rest }
        hist := s.hist ++ h }) ∧
    (let h : List Event := .cmd (wordN 0x24) :: .twi .rxNack none ::
        (List.replicate waits.length (.twiTc false none) ++ [.twiTc true (some r), .ret 0x24 .ok (.byte r)])
      ∃ t : State, runOp .twiRdn h.length s = .next t ∧ t = { s.openTo t with
        cmdValid := false
        seq := .idle
        rspValid := true
        rspOutcome := .ok
        rspByte := r
        twiReq := .none
        twiTc := true
        twiDr := r
        env := { s.env with twi := rest }
        hist := s.hist ++ h })

/-- O39. A stuck bus halts the caller: after any number of polls that all answer 0 a two-wire operation is still at its wait, with the action of
its rule handed over once and pending (R122 to R130, R134). -/
def Obligations.TwiHangs : Prop :=
  ∀ (s : State) (i : Instr) (waits rest : List TwiAnswer), usesTwi i = true → Admitted i s → s.seq = .idle →
    (∀ a ∈ waits, a.tc = false) → s.env.twi = waits ++ rest →
    let h : List Event := .cmd (encode i) :: .twi (actionOf i) (payloadOf i) :: List.replicate waits.length (.twiTc false none)
    ∃ t : State, RunsOn i s h s.motorLevel t ∧ t.twiTc = false ∧ t.twiReq = actionOf i ∧ t.twiDr = (payloadOf i).getD s.twiDr ∧
      t.twiOwned = s.twiOwned

/-! ### Runs of the ADC and the weighing service -/

/-- O40. `ADC.RAW`, whole, for every word and every length of the wait (R142 to R147). -/
def Obligations.AdcRawRun : Prop :=
  ∀ (s : State) (c : Conversion) (rest : List Bool), s.seq = .idle → c.bits.length = 24 → s.env.adc = c.levels ++ rest →
    let h : List Event := .cmd (wordN 0x30) :: (traceSample s.params c ++ [.ret 0x30 .ok (.u24 c.raw)])
    ∃ t : State, runOp .adcRaw h.length s = .next t ∧ t = { s.openTo t with
      cmdValid := false
      seq := .idle
      rspValid := true
      rspOutcome := .ok
      rspU24 := c.raw
      adcShift := c.word
      adcCnt := 24
      adcSck := false
      env := { s.env with adc := rest }
      hist := s.hist ++ h }

/-- O41. `ADC.AVG n`, whole, for 1 to 255 samples (R145, R149, R150). -/
def Obligations.AdcAvgRun : Prop :=
  ∀ (s : State) (cs : List Conversion) (rest : List Bool), s.seq = .idle → 0 < cs.length → cs.length < 256 → WholeSamples cs →
    s.env.adc = levelsOf cs ++ rest →
    let h : List Event := .cmd (wordC 0x31 cs.length) :: (cs.flatMap (traceSample s.params) ++ [.ret 0x31 .ok (.float (meanOf cs))])
    ∃ t : State, runOp (.adcAvg cs.length) h.length s = .next t ∧ t = { s.openTo t with
      cmdValid := false
      seq := .idle
      rspValid := true
      rspOutcome := .ok
      rspF := meanOf cs
      adcShift := shiftAfter s.adcShift cs
      adcCnt := 24
      adcSck := false
      avgSum := sumOf cs
      avgI := BitVec.ofNat 8 cs.length
      env := { s.env with adc := rest }
      hist := s.hist ++ h }

/-- O42. `WGH.MASS n`, whole, with a good calibration and a finite result (R161, R163, R164). -/
def Obligations.WghMassRun : Prop :=
  ∀ (s : State) (cs : List Conversion) (rest : List Bool), s.seq = .idle → 0 < cs.length → cs.length < 256 → WholeSamples cs →
    s.env.adc = levelsOf cs ++ rest → Calibrated s → isFinite (massOf s cs) = true →
    let h : List Event := .cmd (wordC 0x40 cs.length) ::
      (cs.flatMap (traceSample s.params) ++ [.ret 0x40 .ok (.float (massOf s cs))])
    ∃ t : State, runOp (.wghMass cs.length) h.length s = .next t ∧ t = { s.openTo t with
      cmdValid := false
      seq := .idle
      rspValid := true
      rspOutcome := .ok
      rspF := massOf s cs
      adcShift := shiftAfter s.adcShift cs
      adcCnt := 24
      adcSck := false
      avgSum := sumOf cs
      avgI := BitVec.ofNat 8 cs.length
      env := { s.env with adc := rest }
      hist := s.hist ++ h }

/-- O43. `WGH.TARE n`, whole, from every calibration: the offset becomes the fresh average (R161, R165). -/
def Obligations.WghTareRun : Prop :=
  ∀ (s : State) (cs : List Conversion) (rest : List Bool), s.seq = .idle → 0 < cs.length → cs.length < 256 → WholeSamples cs →
    s.env.adc = levelsOf cs ++ rest →
    let h : List Event := .cmd (wordC 0x41 cs.length) :: (cs.flatMap (traceSample s.params) ++ [.ret 0x41 .ok .none])
    ∃ t : State, runOp (.wghTare cs.length) h.length s = .next t ∧ t = { s.openTo t with
      cmdValid := false
      seq := .idle
      rspValid := true
      rspOutcome := .ok
      wghOffset := meanOf cs
      adcShift := shiftAfter s.adcShift cs
      adcCnt := 24
      adcSck := false
      avgSum := sumOf cs
      avgI := BitVec.ofNat 8 cs.length
      env := { s.env with adc := rest }
      hist := s.hist ++ h }

/-- O44. `WGH.CAL ref`, whole: 100 samples, then the scale (R161, R166). -/
def Obligations.WghCalRun : Prop :=
  ∀ (s : State) (ref : FLOAT) (cs : List Conversion) (rest : List Bool), s.seq = .idle → cs.length = 100 → WholeSamples cs →
    s.env.adc = levelsOf cs ++ rest → isZero ref = false → isFinite ref = true → isFinite s.wghOffset = true →
    isFinite (fdiv (fsub (meanOf cs) s.wghOffset) ref) = true →
    let h : List Event := .cmd (wordF 0x42 ref) :: (cs.flatMap (traceSample s.params) ++ [.ret 0x42 .ok .none])
    ∃ t : State, runOp (.wghCal ref) h.length s = .next t ∧ t = { s.openTo t with
      cmdValid := false
      seq := .idle
      rspValid := true
      rspOutcome := .ok
      wghScale := fdiv (fsub (meanOf cs) s.wghOffset) ref
      adcShift := shiftAfter s.adcShift cs
      adcCnt := 24
      adcSck := false
      avgSum := sumOf cs
      avgI := 100
      env := { s.env with adc := rest }
      hist := s.hist ++ h }

/-- O45. A ready line that never goes low, in any of an operation's samples: after fewer whole samples than it takes, and any number of reads
that all answer 1, the operation is still at its wait (R150, R153, R164 to R166, R169). -/
def Obligations.AdcHangs : Prop :=
  ∀ (s : State) (i : Instr) (cs : List Conversion) (k : Nat) (rest : List Bool), usesAdc i = true → i.wf = true → ChecksPass s i →
    s.seq = .idle → cs.length < sampleCount i → WholeSamples cs → 0 < k → s.env.adc = levelsOf cs ++ List.replicate k true ++ rest →
    AwaitsReady i s (.cmd (encode i) :: (cs.flatMap (traceSample s.params) ++ List.replicate k (.adcRead true))) s.motorLevel .only
      (cs.isEmpty && s.adcSck)

/-- O46. A count of 0 faults right after acceptance, before any pin moves (R207). -/
def Obligations.ZeroSamplesFault : Prop :=
  ∀ (i : Instr) (s : State), (i = .adcAvg 0 ∨ i = .wghMass 0 ∨ i = .wghTare 0) → s.seq = .idle →
    exec i s = .next (s.accept i) ∧ (s.accept i).lines = s.lines ∧ (s.accept i).hist = s.hist ++ [.cmd (encode i)] ∧
      runOp i 2 s = .fault .zeroSamples

/-- O47. Where the three floating-point faults are raised: after exactly which events, in `DSP.RUN` too, and in what state that leaves the
block (R163, R166, R184, R187 (4), R206, R208, R209, R214). -/
def Obligations.FloatFaults : Prop :=
  ∀ s : State, s.seq = .idle →
    (∀ ref, isZero ref = true ∨ isFinite ref = false →
      FaultsAfter (.wghCal ref) s [.cmd (wordF 0x42 ref)] s.motorLevel .badArgument) ∧
    (∀ target, s.lcdInited = true → isFinite target = false →
      FaultsAfter (.dspRun target) s [.cmd (wordF 0x50 target)] s.motorLevel .badArgument) ∧
    (∀ ref, isZero ref = false → isFinite ref = true → isFinite s.wghOffset = false →
      FaultsAfter (.wghCal ref) s [.cmd (wordF 0x42 ref)] s.motorLevel .badCalibration) ∧
    (∀ n, 0 < n → ¬ Calibrated s → FaultsAfter (.wghMass n) s [.cmd (wordC 0x40 n)] s.motorLevel .badCalibration) ∧
    (∀ target ws rest, DspStarts s target → ¬ Calibrated s → ShowsMessage s.params s.params.msgWait ws → s.env.lcd = readsOf ws ++ rest →
      FaultsAfter (.dspRun target) s (.cmd (wordF 0x50 target) :: traceMessage s.params s.params.msgWait ws) .idle .badCalibration) ∧
    (∀ cs rest, 0 < cs.length → cs.length < 256 → WholeSamples cs → s.env.adc = levelsOf cs ++ rest → Calibrated s →
      ¬ FiniteMass s cs →
      FaultsAfter (.wghMass cs.length) s (.cmd (wordC 0x40 cs.length) :: cs.flatMap (traceSample s.params)) s.motorLevel .notFinite) ∧
    (∀ ref cs rest, isZero ref = false → isFinite ref = true → isFinite s.wghOffset = true → cs.length = 100 → WholeSamples cs →
      s.env.adc = levelsOf cs ++ rest → isFinite (fdiv (fsub (meanOf cs) s.wghOffset) ref) = false →
      FaultsAfter (.wghCal ref) s (.cmd (wordF 0x42 ref) :: cs.flatMap (traceSample s.params)) s.motorLevel .notFinite) ∧
    (∀ target ws cs restL restA, DspOpens s target ws cs restL restA → ¬ FiniteMass s cs →
      FaultsAfter (.dspRun target) s (traceOpening s.params target ws cs) .idle .notFinite) ∧
    (∀ target ws cs ls c restL restA, DspOpens s target ws cs restL (levelsOf (ls ++ [c]) ++ restA) → FiniteMass s cs →
      GatePasses s target cs → FeedsOver s target cs ls → WholeSamples (ls ++ [c]) → ¬ FiniteMass s [c] →
      FaultsAfter (.dspRun target) s (traceOpening s.params target ws cs ++ [.motor .feeding] ++ traceLoop s.params (ls ++ [c])) .feeding
        .notFinite)

/-! ### Runs of the dispensing controller -/

/-- O48. `DSP.RUN target` that aborts at the supply gate: two messages, no motor event, `INSUFFICIENT` and `WEIGHT` (R182 to R184, R188,
R189, R192, R203). -/
def Obligations.DspAbortRun : Prop :=
  ∀ (s : State) (target : FLOAT) (cs : List Conversion) (ws ws' : List LcdWrite) (restL : List Nibble) (restA : List Bool),
    s.seq = .idle → s.lcdInited = true → AtRest s → s.params.wf = true → isFinite target = true → Calibrated s →
    ShowsMessage s.params s.params.msgWait ws → ShowsMessage s.params s.params.msgInsuff ws' → s.env.lcd = readsOf (ws ++ ws') ++ restL →
    cs.length = s.params.nAvail → WholeSamples cs → s.env.adc = levelsOf cs ++ restA → isFinite (massOf s cs) = true →
    (flt (massOf s cs) s.params.minSupply = true ∨ flt (massOf s cs) target = true) →
    let h : List Event := .cmd (wordF 0x50 target) :: (traceMessage s.params s.params.msgWait ws ++ cs.flatMap (traceSample s.params) ++
      traceMessage s.params s.params.msgInsuff ws' ++ [.delay .tMsg, .ret 0x50 .insufficient (.next .weight)])
    ∃ t : State, runOp (.dspRun target) h.length s = .next t ∧ t = { s.openTo t with
      cmdValid := false
      seq := .idle
      rspValid := true
      rspOutcome := .insufficient
      rspNext := .weight
      dspTarget := target
      dspBase := massOf s cs
      lcdByte := lastByte s.lcdByte (ws ++ ws')
      lcdRs := lastRs s.lcdRs (ws ++ ws')
      lcdDOut := lastLatch s.lcdDOut (ws ++ ws')
      adcShift := shiftAfter s.adcShift cs
      adcCnt := 24
      avgSum := sumOf cs
      avgI := BitVec.ofNat 8 cs.length
      env := { s.env with lcd := restL, adc := restA }
      hist := s.hist ++ h }

/-- O49. `DSP.RUN target` that passes the gate: the motor feeds over readings `ls` that have not fallen by the target, until the reading `c`
that has; `OK` and `MAIN`, the motor idle (R183 to R186, R188, R189, R192). -/
def Obligations.DspGoodRun : Prop :=
  ∀ (s : State) (target : FLOAT) (cs ls : List Conversion) (c : Conversion) (ws ws' : List LcdWrite) (restL : List Nibble)
    (restA : List Bool),
    s.seq = .idle → s.lcdInited = true → AtRest s → s.params.wf = true → isFinite target = true → Calibrated s →
    ShowsMessage s.params s.params.msgWait ws → ShowsMessage s.params s.params.msgDone ws' → s.env.lcd = readsOf (ws ++ ws') ++ restL →
    cs.length = s.params.nAvail → WholeSamples (cs ++ ls ++ [c]) → s.env.adc = levelsOf (cs ++ ls ++ [c]) ++ restA →
    isFinite (massOf s cs) = true → (∀ l ∈ ls ++ [c], isFinite (massOf s [l]) = true) →
    flt (massOf s cs) s.params.minSupply = false → flt (massOf s cs) target = false →
    (∀ l ∈ ls, fge (fsub (massOf s cs) (massOf s [l])) target = false) → fge (fsub (massOf s cs) (massOf s [c])) target = true →
    let h : List Event := .cmd (wordF 0x50 target) :: (traceMessage s.params s.params.msgWait ws ++ cs.flatMap (traceSample s.params) ++
      [.motor .feeding] ++ traceLoop s.params (ls ++ [c]) ++ [.motor .idle] ++
      traceMessage s.params s.params.msgDone ws' ++ [.delay .tMsg, .ret 0x50 .ok (.next .main)])
    ∃ t : State, runOp (.dspRun target) h.length s = .next t ∧ t = { s.openTo t with
      cmdValid := false
      seq := .idle
      rspValid := true
      rspOutcome := .ok
      rspNext := .main
      dspTarget := target
      dspBase := massOf s cs
      dspCur := massOf s [c]
      motorLevel := .idle
      lcdByte := lastByte s.lcdByte (ws ++ ws')
      lcdRs := lastRs s.lcdRs (ws ++ ws')
      lcdDOut := lastLatch s.lcdDOut (ws ++ ws')
      adcShift := c.word
      adcCnt := 24
      avgSum := sumOf [c]
      avgI := 1
      env := { s.env with lcd := restL, adc := restA }
      hist := s.hist ++ h }

/-- O50. The loop is an unbounded wait: while no reading has fallen by the target, the motor feeds and the operation runs on (R185, R191). -/
def Obligations.DspLoopRunsOn : Prop :=
  ∀ (s : State) (target : FLOAT) (ls : List Conversion) (restA : List Bool), s.seq = .busy (.dspRun target) [] .dspMass →
    s.motorLevel = .feeding → s.dspTarget = target → Calibrated s → WholeSamples ls → s.env.adc = levelsOf ls ++ restA →
    (∀ l ∈ ls, isFinite (massOf s [l]) = true) → (∀ l ∈ ls, fge (fsub s.dspBase (massOf s [l])) target = false) →
    let h : List Event := ls.flatMap fun l => traceSample s.params l ++ [.delay .tDispPoll]
    ∃ t : State, runOp (.dspRun target) h.length s = .next t ∧ t.hist = s.hist ++ h ∧ t.running = some (.dspRun target) ∧
      t.motorLevel = .feeding ∧ t.dspBase = s.dspBase ∧ t.rspValid = s.rspValid

/-! ### The last step of each operation -/

/-- O51. Where a display operation stands before its `return`, its next step returns (R24, R98 to R101). -/
def Obligations.LcdReturns : Prop :=
  ∀ s : State,
    (∀ code u, s.seq = .busy (.lcdWri code) [] (.lcdDone u) → ∃ t, exec (.lcdWri code) s = .next t ∧ t = { s.openTo t with
      seq := .idle, rspValid := true, rspOutcome := .ok, hist := s.hist ++ [.ret 0x11 .ok .none] }) ∧
    (∀ byte u, s.seq = .busy (.lcdWrc byte) [] (.lcdDone u) → ∃ t, exec (.lcdWrc byte) s = .next t ∧ t = { s.openTo t with
      seq := .idle, rspValid := true, rspOutcome := .ok, hist := s.hist ++ [.ret 0x12 .ok .none] }) ∧
    (∀ addr, s.seq = .busy (.lcdWrs addr) [] .strRead → s.loc.c = 0x00 → ∃ t, exec (.lcdWrs addr) s = .next t ∧ t = { s.openTo t with
      seq := .idle, rspValid := true, rspOutcome := .ok, hist := s.hist ++ [.ret 0x13 .ok .none] }) ∧
    (s.seq = .busy .lcdInit [] (.lcdDone (.init [])) → ∃ t, exec .lcdInit s = .next t ∧ t = { s.openTo t with
      seq := .idle, rspValid := true, rspOutcome := .ok, lcdInited := true, hist := s.hist ++ [.ret 0x10 .ok .none] })

/-- O52. Where a two-wire operation has seen its action complete, its next step returns (R24, R125 to R129). -/
def Obligations.TwiReturns : Prop :=
  ∀ s : State, s.loc.tc = true →
    (s.seq = .busy .twiStart [] .twiUntil → ∃ t, exec .twiStart s = .next t ∧ t = { s.openTo t with
      seq := .idle, rspValid := true, rspOutcome := .ok, twiOwned := true, hist := s.hist ++ [.ret 0x20 .ok .none] }) ∧
    (s.seq = .busy .twiStop [] .twiUntil → ∃ t, exec .twiStop s = .next t ∧ t = { s.openTo t with
      seq := .idle, rspValid := true, rspOutcome := .ok, twiOwned := false, hist := s.hist ++ [.ret 0x21 .ok .none] }) ∧
    (∀ b, s.seq = .busy (.twiWrb b) [] .twiUntil → ∃ t, exec (.twiWrb b) s = .next t ∧ t = { s.openTo t with
      seq := .idle, rspValid := true, rspOutcome := .ok, hist := s.hist ++ [.ret 0x22 .ok .none] }) ∧
    (s.seq = .busy .twiRda [] .twiUntil → ∃ t, exec .twiRda s = .next t ∧ t = { s.openTo t with
      seq := .idle, rspValid := true, rspOutcome := .ok, rspByte := s.twiDr, hist := s.hist ++ [.ret 0x23 .ok (.byte s.twiDr)] }) ∧
    (s.seq = .busy .twiRdn [] .twiUntil → ∃ t, exec .twiRdn s = .next t ∧ t = { s.openTo t with
      seq := .idle, rspValid := true, rspOutcome := .ok, rspByte := s.twiDr, hist := s.hist ++ [.ret 0x24 .ok (.byte s.twiDr)] })

/-- O53. Where an ADC or weighing operation has shifted in the last bit of its last sample, its next step finishes the arithmetic, writes its
result and returns (R145, R147, R149, R150, R163 to R166). -/
def Obligations.AdcWghReturns : Prop :=
  ∀ s : State, s.adcCnt = 23 → s.params.adcExtraPulses = 0 →
    let word : Sample := shiftIn s.adcShift s.loc.bit
    let sum : FLOAT := fadd s.avgSum (u2f (rawSample word).toNat)
    let mean (n : Nat) : FLOAT := fdiv sum (u2f n)
    (s.seq = .busy .adcRaw [] (.adcPulse .only) → ∃ t, exec .adcRaw s = .next t ∧ t = { s.openTo t with
      seq := .idle, rspValid := true, rspOutcome := .ok, rspU24 := rawSample word, adcShift := word, adcCnt := 24
      hist := s.hist ++ [.ret 0x30 .ok (.u24 (rawSample word))] }) ∧
    (∀ n, n < 256 → s.avgI.toNat + 1 = n → s.seq = .busy (.adcAvg n) [] (.adcPulse .only) →
      ∃ t, exec (.adcAvg n) s = .next t ∧ t = { s.openTo t with
        seq := .idle, rspValid := true, rspOutcome := .ok, rspF := mean n, adcShift := word, adcCnt := 24
        avgSum := sum, avgI := s.avgI + 1, hist := s.hist ++ [.ret 0x31 .ok (.float (mean n))] }) ∧
    (∀ n, n < 256 → s.avgI.toNat + 1 = n → s.seq = .busy (.wghMass n) [] (.adcPulse .only) →
      isFinite (fdiv (fsub (mean n) s.wghOffset) s.wghScale) = true →
      ∃ t, exec (.wghMass n) s = .next t ∧ t = { s.openTo t with
        seq := .idle, rspValid := true, rspOutcome := .ok, rspF := fdiv (fsub (mean n) s.wghOffset) s.wghScale
        adcShift := word, adcCnt := 24, avgSum := sum, avgI := s.avgI + 1
        hist := s.hist ++ [.ret 0x40 .ok (.float (fdiv (fsub (mean n) s.wghOffset) s.wghScale))] }) ∧
    (∀ n, n < 256 → s.avgI.toNat + 1 = n → s.seq = .busy (.wghTare n) [] (.adcPulse .only) →
      ∃ t, exec (.wghTare n) s = .next t ∧ t = { s.openTo t with
        seq := .idle, rspValid := true, rspOutcome := .ok, wghOffset := mean n, adcShift := word, adcCnt := 24
        avgSum := sum, avgI := s.avgI + 1, hist := s.hist ++ [.ret 0x41 .ok .none] }) ∧
    (∀ ref, s.avgI = 99 → s.seq = .busy (.wghCal ref) [] (.adcPulse .only) →
      isFinite (fdiv (fsub (mean 100) s.wghOffset) ref) = true →
      ∃ t, exec (.wghCal ref) s = .next t ∧ t = { s.openTo t with
        seq := .idle, rspValid := true, rspOutcome := .ok, wghScale := fdiv (fsub (mean 100) s.wghOffset) ref
        adcShift := word, adcCnt := 24, avgSum := sum, avgI := 100, hist := s.hist ++ [.ret 0x42 .ok .none] })

/-- O54. The last step of either ending of `DSP.RUN` returns its outcome and the caller's next screen (R24, R184, R189, R201). -/
def Obligations.DspReturns : Prop :=
  ∀ (s : State) (target : FLOAT),
    (s.seq = .busy (.dspRun target) [.ret .ok (.next .main)] .finished → ∃ t, exec (.dspRun target) s = .next t ∧ t = { s.openTo t with
      seq := .idle, rspValid := true, rspOutcome := .ok, rspNext := .main, hist := s.hist ++ [.ret 0x50 .ok (.next .main)] }) ∧
    (s.seq = .busy (.dspRun target) [.ret .insufficient (.next .weight)] .finished →
      ∃ t, exec (.dspRun target) s = .next t ∧ t = { s.openTo t with
        seq := .idle, rspValid := true, rspOutcome := .insufficient, rspNext := .weight
        hist := s.hist ++ [.ret 0x50 .insufficient (.next .weight)] })

/-! ### Numbers -/

/-- O55. The raw sample is the two's-complement word with the bias removed: a monotonic map onto 0 to 16777215 (R146). -/
def Obligations.RawSampleMap : Prop :=
  (∀ w : Sample, ((rawSample w).toNat : Int) = w.toInt + 8388608) ∧
  (∀ w w' : Sample, w.toInt ≤ w'.toInt ↔ (rawSample w).toNat ≤ (rawSample w').toNat) ∧
  rawSample 0x800000#24 = 0x000000#24 ∧ rawSample 0x000000#24 = 0x800000#24 ∧ rawSample 0x7FFFFF#24 = 0xFFFFFF#24

/-- O56. `u2f` is exact below 2^24, so every raw sample converts exactly; the mean of one sample is the sample (R9, R149, R150). -/
def Obligations.SamplesConvertExactly : Prop :=
  (∀ k : Nat, k < 2 ^ 24 → isFinite (u2f k) = true ∧ units (u2f k) = k * 2 ^ 149) ∧
  ∀ c : Conversion, meanOf [c] = u2f c.raw.toNat

/-- O57. Addition, subtraction and division of finite values: the result is finite exactly below the midpoint that follows the largest finite
value, and is then the nearest `FLOAT`, a tie going to the one whose last bit is 0 (R9: binary32, each operation rounded once; log 14). -/
def Obligations.RoundsToNearestEven : Prop :=
  ∀ a b : FLOAT, isFinite a = true → isFinite b = true →
    ((isFinite (fadd a b) = true ↔ |units a + units b| < (2 ^ 25 - 1) * 2 ^ 252) ∧
      (isFinite (fadd a b) = true → ∀ f : FLOAT, isFinite f = true →
        |units (fadd a b) - (units a + units b)| ≤ |units f - (units a + units b)| ∧
        (units f ≠ units (fadd a b) → |units (fadd a b) - (units a + units b)| = |units f - (units a + units b)| →
          (fadd a b).getLsbD 0 = false))) ∧
    ((isFinite (fsub a b) = true ↔ |units a - units b| < (2 ^ 25 - 1) * 2 ^ 252) ∧
      (isFinite (fsub a b) = true → ∀ f : FLOAT, isFinite f = true →
        |units (fsub a b) - (units a - units b)| ≤ |units f - (units a - units b)| ∧
        (units f ≠ units (fsub a b) → |units (fsub a b) - (units a - units b)| = |units f - (units a - units b)| →
          (fsub a b).getLsbD 0 = false))) ∧
    (isZero b = false →
      (isFinite (fdiv a b) = true ↔ |units a| * 2 ^ 149 < (2 ^ 25 - 1) * 2 ^ 252 * |units b|) ∧
      (isFinite (fdiv a b) = true → ∀ f : FLOAT, isFinite f = true →
        |units (fdiv a b) * units b - units a * 2 ^ 149| ≤ |units f * units b - units a * 2 ^ 149| ∧
        (units f ≠ units (fdiv a b) → |units (fdiv a b) * units b - units a * 2 ^ 149| = |units f * units b - units a * 2 ^ 149| →
          (fdiv a b).getLsbD 0 = false)))

/-- O58. The two comparisons: on finite values the order of the values, so that +0 equals -0; an infinity beyond every finite value; both false
when an operand is a NaN (R9; the infinities are log 14's reading of the format). The supply gate and the stopping test rest on them
(R183, R185). -/
def Obligations.ComparisonsOrderValues : Prop :=
  (∀ a b : FLOAT, isFinite a = true → isFinite b = true →
    (flt a b = true ↔ units a < units b) ∧ (fge a b = true ↔ units b ≤ units a)) ∧
  (∀ a b : FLOAT, isNaN a = true ∨ isNaN b = true → flt a b = false ∧ fge a b = false) ∧
  (∀ a b : FLOAT, isZero a = true → isZero b = true → flt a b = false ∧ fge a b = true) ∧
  (∀ a : FLOAT, isFinite a = true →
    flt a (floatInfinity false) = true ∧ fge a (floatInfinity false) = false ∧
    flt (floatInfinity false) a = false ∧ fge (floatInfinity false) a = true ∧
    flt a (floatInfinity true) = false ∧ fge a (floatInfinity true) = true ∧
    flt (floatInfinity true) a = true ∧ fge (floatInfinity true) a = false)

/-! ### Operations that do not end -/

/-- O59. A string memory with no 0x00 at all: `LCD.WRS` never returns. Whatever the display answers it takes every number of steps and is still
running after them; and a display that answers is written the bytes in address order, round and round (R51, R100, R204, R253). -/
def Obligations.LcdWrsNeverEnds : Prop :=
  ∀ (s : State) (addr : StrAddr), s.seq = .idle → s.lcdInited = true → (∀ a, s.strByte a ≠ 0x00#8) →
    (∀ k : Nat, ∃ t : State, runOp (.lcdWrs addr) (k + 1) s = .next t ∧ t.running = some (.lcdWrs addr) ∧ t.rspValid = false) ∧
    (∀ (ws : List LcdWrite) (rest : List Nibble),
      ws.map LcdWrite.byte = (List.range ws.length).map (fun k => s.strByte (addr + BitVec.ofNat 16 k)) →
      (∀ w ∈ ws, w.answers s.params) → s.env.lcd = readsOf ws ++ rest →
      ∃ t : State, RunsOn (.lcdWrs addr) s (.cmd (wordA 0x13 addr) :: traceChars s.params addr ws) s.motorLevel t)

/-- O60. The hangs of `DSP.RUN`: a display that stays busy stops it in any element of any of its three messages, an ADC that never goes ready in
any sample of the availability reading or in a reading of the loop, the last with the motor at `FEEDING` for ever (R190, R204). -/
def Obligations.DspHangs : Prop :=
  ∀ (s : State) (target : FLOAT),
    (∀ (before after : List MsgElem) (el : MsgElem) (shown : List LcdWrite) (nibs : List Nibble),
      ShowsMessage s.params before shown → StaysBusy s.params nibs →
      let stuck : List Event := traceMessage s.params before shown ++ traceBusy s.params (elemRs el) (elemCode el) nibs
      (∀ restL, DspStarts s target → s.params.msgWait = before ++ el :: after → s.env.lcd = readsOf shown ++ nibs ++ restL →
        PollsOn (.dspRun target) s (.cmd (wordF 0x50 target) :: stuck) .idle) ∧
      (∀ ws cs restL restA, DspOpens s target ws cs (readsOf shown ++ nibs ++ restL) restA → FiniteMass s cs →
        ¬ GatePasses s target cs → s.params.msgInsuff = before ++ el :: after →
        PollsOn (.dspRun target) s (traceOpening s.params target ws cs ++ stuck) .idle) ∧
      (∀ ws cs ls c restL restA, DspOpens s target ws cs (readsOf shown ++ nibs ++ restL) (levelsOf (ls ++ [c]) ++ restA) →
        FiniteMass s cs → GatePasses s target cs → FeedsOver s target cs ls → WholeSamples (ls ++ [c]) → FiniteMass s [c] →
        fge (fsub (massOf s cs) (massOf s [c])) target = true → s.params.msgDone = before ++ el :: after →
        PollsOn (.dspRun target) s
          (traceOpening s.params target ws cs ++ [.motor .feeding] ++ traceLoop s.params (ls ++ [c]) ++ .motor .idle :: stuck) .idle)) ∧
    (∀ k : Nat, 0 < k →
      let notReady : List Event := List.replicate k (.adcRead true)
      (∀ ws cs restL restA, DspStarts s target → ShowsMessage s.params s.params.msgWait ws → s.env.lcd = readsOf ws ++ restL →
        Calibrated s → cs.length < s.params.nAvail → WholeSamples cs → s.env.adc = levelsOf cs ++ List.replicate k true ++ restA →
        AwaitsReady (.dspRun target) s (traceOpening s.params target ws cs ++ notReady) .idle .base false) ∧
      (∀ ws cs ls restL restA, DspOpens s target ws cs restL (levelsOf ls ++ List.replicate k true ++ restA) → FiniteMass s cs →
        GatePasses s target cs → FeedsOver s target cs ls → WholeSamples ls →
        AwaitsReady (.dspRun target) s
          (traceOpening s.params target ws cs ++ [.motor .feeding] ++ traceLoop s.params ls ++ .delay .tDispPoll :: notReady) .feeding
          .loop false))
end

