-- ==== Sys2Proof/Laws/State.lean ====
section
/-! SUPPORT. State: what each field is after each shared update, one lemma per field and update. -/

namespace Sys2Proof.Machine

/-! ### `State.emit` -/

@[simp] theorem emit_cmdValid (s : State) (e : Event) : (s.emit e).cmdValid = s.cmdValid := rfl
@[simp] theorem emit_cmdWord (s : State) (e : Event) : (s.emit e).cmdWord = s.cmdWord := rfl
@[simp] theorem emit_rspValid (s : State) (e : Event) : (s.emit e).rspValid = s.rspValid := rfl
@[simp] theorem emit_rspOutcome (s : State) (e : Event) : (s.emit e).rspOutcome = s.rspOutcome := rfl
@[simp] theorem emit_rspNext (s : State) (e : Event) : (s.emit e).rspNext = s.rspNext := rfl
@[simp] theorem emit_rspByte (s : State) (e : Event) : (s.emit e).rspByte = s.rspByte := rfl
@[simp] theorem emit_rspU24 (s : State) (e : Event) : (s.emit e).rspU24 = s.rspU24 := rfl
@[simp] theorem emit_rspF (s : State) (e : Event) : (s.emit e).rspF = s.rspF := rfl
@[simp] theorem emit_powerCycle (s : State) (e : Event) : (s.emit e).powerCycle = s.powerCycle := rfl
@[simp] theorem emit_seq (s : State) (e : Event) : (s.emit e).seq = s.seq := rfl
@[simp] theorem emit_loc (s : State) (e : Event) : (s.emit e).loc = s.loc := rfl
@[simp] theorem emit_lcdByte (s : State) (e : Event) : (s.emit e).lcdByte = s.lcdByte := rfl
@[simp] theorem emit_strPtr (s : State) (e : Event) : (s.emit e).strPtr = s.strPtr := rfl
@[simp] theorem emit_twiDr (s : State) (e : Event) : (s.emit e).twiDr = s.twiDr := rfl
@[simp] theorem emit_adcShift (s : State) (e : Event) : (s.emit e).adcShift = s.adcShift := rfl
@[simp] theorem emit_adcCnt (s : State) (e : Event) : (s.emit e).adcCnt = s.adcCnt := rfl
@[simp] theorem emit_avgSum (s : State) (e : Event) : (s.emit e).avgSum = s.avgSum := rfl
@[simp] theorem emit_avgI (s : State) (e : Event) : (s.emit e).avgI = s.avgI := rfl
@[simp] theorem emit_wghOffset (s : State) (e : Event) : (s.emit e).wghOffset = s.wghOffset := rfl
@[simp] theorem emit_wghScale (s : State) (e : Event) : (s.emit e).wghScale = s.wghScale := rfl
@[simp] theorem emit_dspTarget (s : State) (e : Event) : (s.emit e).dspTarget = s.dspTarget := rfl
@[simp] theorem emit_dspBase (s : State) (e : Event) : (s.emit e).dspBase = s.dspBase := rfl
@[simp] theorem emit_dspCur (s : State) (e : Event) : (s.emit e).dspCur = s.dspCur := rfl
@[simp] theorem emit_lcdRs (s : State) (e : Event) : (s.emit e).lcdRs = s.lcdRs := rfl
@[simp] theorem emit_lcdRw (s : State) (e : Event) : (s.emit e).lcdRw = s.lcdRw := rfl
@[simp] theorem emit_lcdE (s : State) (e : Event) : (s.emit e).lcdE = s.lcdE := rfl
@[simp] theorem emit_lcdDOut (s : State) (e : Event) : (s.emit e).lcdDOut = s.lcdDOut := rfl
@[simp] theorem emit_lcdDDir (s : State) (e : Event) : (s.emit e).lcdDDir = s.lcdDDir := rfl
@[simp] theorem emit_adcSck (s : State) (e : Event) : (s.emit e).adcSck = s.adcSck := rfl
@[simp] theorem emit_motorLevel (s : State) (e : Event) : (s.emit e).motorLevel = s.motorLevel := rfl
@[simp] theorem emit_twiReq (s : State) (e : Event) : (s.emit e).twiReq = s.twiReq := rfl
@[simp] theorem emit_twiTc (s : State) (e : Event) : (s.emit e).twiTc = s.twiTc := rfl
@[simp] theorem emit_lcdInited (s : State) (e : Event) : (s.emit e).lcdInited = s.lcdInited := rfl
@[simp] theorem emit_twiOwned (s : State) (e : Event) : (s.emit e).twiOwned = s.twiOwned := rfl
@[simp] theorem emit_hist (s : State) (e : Event) : (s.emit e).hist = s.hist ++ [e] := rfl
@[simp] theorem emit_strmem (s : State) (e : Event) : (s.emit e).strmem = s.strmem := rfl
@[simp] theorem emit_params (s : State) (e : Event) : (s.emit e).params = s.params := rfl
@[simp] theorem emit_env (s : State) (e : Event) : (s.emit e).env = s.env := rfl
@[simp] theorem emit_draws (s : State) (e : Event) : (s.emit e).draws = s.draws := rfl

/-! ### `State.accept` -/

@[simp] theorem accept_cmdValid (s : State) (op : Instr) : (s.accept op).cmdValid = false := rfl
@[simp] theorem accept_cmdWord (s : State) (op : Instr) : (s.accept op).cmdWord = s.cmdWord := rfl
@[simp] theorem accept_rspValid (s : State) (op : Instr) : (s.accept op).rspValid = false := rfl
@[simp] theorem accept_rspOutcome (s : State) (op : Instr) : (s.accept op).rspOutcome = s.rspOutcome := rfl
@[simp] theorem accept_rspNext (s : State) (op : Instr) : (s.accept op).rspNext = s.rspNext := rfl
@[simp] theorem accept_rspByte (s : State) (op : Instr) : (s.accept op).rspByte = s.rspByte := rfl
@[simp] theorem accept_rspU24 (s : State) (op : Instr) : (s.accept op).rspU24 = s.rspU24 := rfl
@[simp] theorem accept_rspF (s : State) (op : Instr) : (s.accept op).rspF = s.rspF := rfl
@[simp] theorem accept_powerCycle (s : State) (op : Instr) : (s.accept op).powerCycle = s.powerCycle := rfl
@[simp] theorem accept_seq (s : State) (op : Instr) : (s.accept op).seq = .busy op [] .start := rfl
@[simp] theorem accept_loc (s : State) (op : Instr) : (s.accept op).loc = s.loc := rfl
@[simp] theorem accept_lcdByte (s : State) (op : Instr) : (s.accept op).lcdByte = s.lcdByte := rfl
@[simp] theorem accept_strPtr (s : State) (op : Instr) : (s.accept op).strPtr = s.strPtr := rfl
@[simp] theorem accept_twiDr (s : State) (op : Instr) : (s.accept op).twiDr = s.twiDr := rfl
@[simp] theorem accept_adcShift (s : State) (op : Instr) : (s.accept op).adcShift = s.adcShift := rfl
@[simp] theorem accept_adcCnt (s : State) (op : Instr) : (s.accept op).adcCnt = s.adcCnt := rfl
@[simp] theorem accept_avgSum (s : State) (op : Instr) : (s.accept op).avgSum = s.avgSum := rfl
@[simp] theorem accept_avgI (s : State) (op : Instr) : (s.accept op).avgI = s.avgI := rfl
@[simp] theorem accept_wghOffset (s : State) (op : Instr) : (s.accept op).wghOffset = s.wghOffset := rfl
@[simp] theorem accept_wghScale (s : State) (op : Instr) : (s.accept op).wghScale = s.wghScale := rfl
@[simp] theorem accept_dspTarget (s : State) (op : Instr) : (s.accept op).dspTarget = s.dspTarget := rfl
@[simp] theorem accept_dspBase (s : State) (op : Instr) : (s.accept op).dspBase = s.dspBase := rfl
@[simp] theorem accept_dspCur (s : State) (op : Instr) : (s.accept op).dspCur = s.dspCur := rfl
@[simp] theorem accept_lcdRs (s : State) (op : Instr) : (s.accept op).lcdRs = s.lcdRs := rfl
@[simp] theorem accept_lcdRw (s : State) (op : Instr) : (s.accept op).lcdRw = s.lcdRw := rfl
@[simp] theorem accept_lcdE (s : State) (op : Instr) : (s.accept op).lcdE = s.lcdE := rfl
@[simp] theorem accept_lcdDOut (s : State) (op : Instr) : (s.accept op).lcdDOut = s.lcdDOut := rfl
@[simp] theorem accept_lcdDDir (s : State) (op : Instr) : (s.accept op).lcdDDir = s.lcdDDir := rfl
@[simp] theorem accept_adcSck (s : State) (op : Instr) : (s.accept op).adcSck = s.adcSck := rfl
@[simp] theorem accept_motorLevel (s : State) (op : Instr) : (s.accept op).motorLevel = s.motorLevel := rfl
@[simp] theorem accept_twiReq (s : State) (op : Instr) : (s.accept op).twiReq = s.twiReq := rfl
@[simp] theorem accept_twiTc (s : State) (op : Instr) : (s.accept op).twiTc = s.twiTc := rfl
@[simp] theorem accept_lcdInited (s : State) (op : Instr) : (s.accept op).lcdInited = s.lcdInited := rfl
@[simp] theorem accept_twiOwned (s : State) (op : Instr) : (s.accept op).twiOwned = s.twiOwned := rfl
@[simp] theorem accept_hist (s : State) (op : Instr) : (s.accept op).hist = s.hist ++ [.cmd (encode op)] := rfl
@[simp] theorem accept_strmem (s : State) (op : Instr) : (s.accept op).strmem = s.strmem := rfl
@[simp] theorem accept_params (s : State) (op : Instr) : (s.accept op).params = s.params := rfl
@[simp] theorem accept_env (s : State) (op : Instr) : (s.accept op).env = s.env := rfl
@[simp] theorem accept_draws (s : State) (op : Instr) : (s.accept op).draws = s.draws := rfl

/-! ### `State.respond` -/

@[simp] theorem respond_cmdValid (s : State) (op : Instr) (o : RspOutcome) (v : RetVal) : (s.respond op o v).cmdValid = s.cmdValid := rfl
@[simp] theorem respond_cmdWord (s : State) (op : Instr) (o : RspOutcome) (v : RetVal) : (s.respond op o v).cmdWord = s.cmdWord := rfl
@[simp] theorem respond_rspValid (s : State) (op : Instr) (o : RspOutcome) (v : RetVal) : (s.respond op o v).rspValid = true := rfl
@[simp] theorem respond_rspOutcome (s : State) (op : Instr) (o : RspOutcome) (v : RetVal) : (s.respond op o v).rspOutcome = o := rfl
@[simp] theorem respond_powerCycle (s : State) (op : Instr) (o : RspOutcome) (v : RetVal) : (s.respond op o v).powerCycle = s.powerCycle := rfl
@[simp] theorem respond_seq (s : State) (op : Instr) (o : RspOutcome) (v : RetVal) : (s.respond op o v).seq = .idle := rfl
@[simp] theorem respond_loc (s : State) (op : Instr) (o : RspOutcome) (v : RetVal) : (s.respond op o v).loc = s.loc := rfl
@[simp] theorem respond_lcdByte (s : State) (op : Instr) (o : RspOutcome) (v : RetVal) : (s.respond op o v).lcdByte = s.lcdByte := rfl
@[simp] theorem respond_strPtr (s : State) (op : Instr) (o : RspOutcome) (v : RetVal) : (s.respond op o v).strPtr = s.strPtr := rfl
@[simp] theorem respond_twiDr (s : State) (op : Instr) (o : RspOutcome) (v : RetVal) : (s.respond op o v).twiDr = s.twiDr := rfl
@[simp] theorem respond_adcShift (s : State) (op : Instr) (o : RspOutcome) (v : RetVal) : (s.respond op o v).adcShift = s.adcShift := rfl
@[simp] theorem respond_adcCnt (s : State) (op : Instr) (o : RspOutcome) (v : RetVal) : (s.respond op o v).adcCnt = s.adcCnt := rfl
@[simp] theorem respond_avgSum (s : State) (op : Instr) (o : RspOutcome) (v : RetVal) : (s.respond op o v).avgSum = s.avgSum := rfl
@[simp] theorem respond_avgI (s : State) (op : Instr) (o : RspOutcome) (v : RetVal) : (s.respond op o v).avgI = s.avgI := rfl
@[simp] theorem respond_wghOffset (s : State) (op : Instr) (o : RspOutcome) (v : RetVal) : (s.respond op o v).wghOffset = s.wghOffset := rfl
@[simp] theorem respond_wghScale (s : State) (op : Instr) (o : RspOutcome) (v : RetVal) : (s.respond op o v).wghScale = s.wghScale := rfl
@[simp] theorem respond_dspTarget (s : State) (op : Instr) (o : RspOutcome) (v : RetVal) : (s.respond op o v).dspTarget = s.dspTarget := rfl
@[simp] theorem respond_dspBase (s : State) (op : Instr) (o : RspOutcome) (v : RetVal) : (s.respond op o v).dspBase = s.dspBase := rfl
@[simp] theorem respond_dspCur (s : State) (op : Instr) (o : RspOutcome) (v : RetVal) : (s.respond op o v).dspCur = s.dspCur := rfl
@[simp] theorem respond_lcdRs (s : State) (op : Instr) (o : RspOutcome) (v : RetVal) : (s.respond op o v).lcdRs = s.lcdRs := rfl
@[simp] theorem respond_lcdRw (s : State) (op : Instr) (o : RspOutcome) (v : RetVal) : (s.respond op o v).lcdRw = s.lcdRw := rfl
@[simp] theorem respond_lcdE (s : State) (op : Instr) (o : RspOutcome) (v : RetVal) : (s.respond op o v).lcdE = s.lcdE := rfl
@[simp] theorem respond_lcdDOut (s : State) (op : Instr) (o : RspOutcome) (v : RetVal) : (s.respond op o v).lcdDOut = s.lcdDOut := rfl
@[simp] theorem respond_lcdDDir (s : State) (op : Instr) (o : RspOutcome) (v : RetVal) : (s.respond op o v).lcdDDir = s.lcdDDir := rfl
@[simp] theorem respond_adcSck (s : State) (op : Instr) (o : RspOutcome) (v : RetVal) : (s.respond op o v).adcSck = s.adcSck := rfl
@[simp] theorem respond_motorLevel (s : State) (op : Instr) (o : RspOutcome) (v : RetVal) : (s.respond op o v).motorLevel = s.motorLevel := rfl
@[simp] theorem respond_twiReq (s : State) (op : Instr) (o : RspOutcome) (v : RetVal) : (s.respond op o v).twiReq = s.twiReq := rfl
@[simp] theorem respond_twiTc (s : State) (op : Instr) (o : RspOutcome) (v : RetVal) : (s.respond op o v).twiTc = s.twiTc := rfl
@[simp] theorem respond_lcdInited (s : State) (op : Instr) (o : RspOutcome) (v : RetVal) : (s.respond op o v).lcdInited = s.lcdInited := rfl
@[simp] theorem respond_twiOwned (s : State) (op : Instr) (o : RspOutcome) (v : RetVal) : (s.respond op o v).twiOwned = s.twiOwned := rfl
@[simp] theorem respond_hist (s : State) (op : Instr) (o : RspOutcome) (v : RetVal) : (s.respond op o v).hist = s.hist ++ [.ret (opcode op) o v] := rfl
@[simp] theorem respond_strmem (s : State) (op : Instr) (o : RspOutcome) (v : RetVal) : (s.respond op o v).strmem = s.strmem := rfl
@[simp] theorem respond_params (s : State) (op : Instr) (o : RspOutcome) (v : RetVal) : (s.respond op o v).params = s.params := rfl
@[simp] theorem respond_env (s : State) (op : Instr) (o : RspOutcome) (v : RetVal) : (s.respond op o v).env = s.env := rfl
@[simp] theorem respond_draws (s : State) (op : Instr) (o : RspOutcome) (v : RetVal) : (s.respond op o v).draws = s.draws + 1 := rfl

/-! ### `State.takeBit` -/

@[simp] theorem takeBit_cmdValid (s : State) : (s.takeBit).cmdValid = s.cmdValid := rfl
@[simp] theorem takeBit_cmdWord (s : State) : (s.takeBit).cmdWord = s.cmdWord := rfl
@[simp] theorem takeBit_rspValid (s : State) : (s.takeBit).rspValid = s.rspValid := rfl
@[simp] theorem takeBit_rspOutcome (s : State) : (s.takeBit).rspOutcome = s.rspOutcome := rfl
@[simp] theorem takeBit_rspNext (s : State) : (s.takeBit).rspNext = s.rspNext := rfl
@[simp] theorem takeBit_rspByte (s : State) : (s.takeBit).rspByte = s.rspByte := rfl
@[simp] theorem takeBit_rspU24 (s : State) : (s.takeBit).rspU24 = s.rspU24 := rfl
@[simp] theorem takeBit_rspF (s : State) : (s.takeBit).rspF = s.rspF := rfl
@[simp] theorem takeBit_powerCycle (s : State) : (s.takeBit).powerCycle = s.powerCycle := rfl
@[simp] theorem takeBit_seq (s : State) : (s.takeBit).seq = s.seq := rfl
@[simp] theorem takeBit_loc (s : State) : (s.takeBit).loc = s.loc := rfl
@[simp] theorem takeBit_lcdByte (s : State) : (s.takeBit).lcdByte = s.lcdByte := rfl
@[simp] theorem takeBit_strPtr (s : State) : (s.takeBit).strPtr = s.strPtr := rfl
@[simp] theorem takeBit_twiDr (s : State) : (s.takeBit).twiDr = s.twiDr := rfl
@[simp] theorem takeBit_adcShift (s : State) : (s.takeBit).adcShift = shiftIn s.adcShift s.loc.bit := rfl
@[simp] theorem takeBit_adcCnt (s : State) : (s.takeBit).adcCnt = s.adcCnt + 1 := rfl
@[simp] theorem takeBit_avgSum (s : State) : (s.takeBit).avgSum = s.avgSum := rfl
@[simp] theorem takeBit_avgI (s : State) : (s.takeBit).avgI = s.avgI := rfl
@[simp] theorem takeBit_wghOffset (s : State) : (s.takeBit).wghOffset = s.wghOffset := rfl
@[simp] theorem takeBit_wghScale (s : State) : (s.takeBit).wghScale = s.wghScale := rfl
@[simp] theorem takeBit_dspTarget (s : State) : (s.takeBit).dspTarget = s.dspTarget := rfl
@[simp] theorem takeBit_dspBase (s : State) : (s.takeBit).dspBase = s.dspBase := rfl
@[simp] theorem takeBit_dspCur (s : State) : (s.takeBit).dspCur = s.dspCur := rfl
@[simp] theorem takeBit_lcdRs (s : State) : (s.takeBit).lcdRs = s.lcdRs := rfl
@[simp] theorem takeBit_lcdRw (s : State) : (s.takeBit).lcdRw = s.lcdRw := rfl
@[simp] theorem takeBit_lcdE (s : State) : (s.takeBit).lcdE = s.lcdE := rfl
@[simp] theorem takeBit_lcdDOut (s : State) : (s.takeBit).lcdDOut = s.lcdDOut := rfl
@[simp] theorem takeBit_lcdDDir (s : State) : (s.takeBit).lcdDDir = s.lcdDDir := rfl
@[simp] theorem takeBit_adcSck (s : State) : (s.takeBit).adcSck = s.adcSck := rfl
@[simp] theorem takeBit_motorLevel (s : State) : (s.takeBit).motorLevel = s.motorLevel := rfl
@[simp] theorem takeBit_twiReq (s : State) : (s.takeBit).twiReq = s.twiReq := rfl
@[simp] theorem takeBit_twiTc (s : State) : (s.takeBit).twiTc = s.twiTc := rfl
@[simp] theorem takeBit_lcdInited (s : State) : (s.takeBit).lcdInited = s.lcdInited := rfl
@[simp] theorem takeBit_twiOwned (s : State) : (s.takeBit).twiOwned = s.twiOwned := rfl
@[simp] theorem takeBit_hist (s : State) : (s.takeBit).hist = s.hist := rfl
@[simp] theorem takeBit_strmem (s : State) : (s.takeBit).strmem = s.strmem := rfl
@[simp] theorem takeBit_params (s : State) : (s.takeBit).params = s.params := rfl
@[simp] theorem takeBit_env (s : State) : (s.takeBit).env = s.env := rfl
@[simp] theorem takeBit_draws (s : State) : (s.takeBit).draws = s.draws := rfl

/-! ### `State.takeSample` -/

@[simp] theorem takeSample_cmdValid (s : State) : (s.takeSample).cmdValid = s.cmdValid := rfl
@[simp] theorem takeSample_cmdWord (s : State) : (s.takeSample).cmdWord = s.cmdWord := rfl
@[simp] theorem takeSample_rspValid (s : State) : (s.takeSample).rspValid = s.rspValid := rfl
@[simp] theorem takeSample_rspOutcome (s : State) : (s.takeSample).rspOutcome = s.rspOutcome := rfl
@[simp] theorem takeSample_rspNext (s : State) : (s.takeSample).rspNext = s.rspNext := rfl
@[simp] theorem takeSample_rspByte (s : State) : (s.takeSample).rspByte = s.rspByte := rfl
@[simp] theorem takeSample_rspU24 (s : State) : (s.takeSample).rspU24 = s.rspU24 := rfl
@[simp] theorem takeSample_rspF (s : State) : (s.takeSample).rspF = s.rspF := rfl
@[simp] theorem takeSample_powerCycle (s : State) : (s.takeSample).powerCycle = s.powerCycle := rfl
@[simp] theorem takeSample_seq (s : State) : (s.takeSample).seq = s.seq := rfl
@[simp] theorem takeSample_loc (s : State) : (s.takeSample).loc = s.loc := rfl
@[simp] theorem takeSample_lcdByte (s : State) : (s.takeSample).lcdByte = s.lcdByte := rfl
@[simp] theorem takeSample_strPtr (s : State) : (s.takeSample).strPtr = s.strPtr := rfl
@[simp] theorem takeSample_twiDr (s : State) : (s.takeSample).twiDr = s.twiDr := rfl
@[simp] theorem takeSample_adcShift (s : State) : (s.takeSample).adcShift = s.adcShift := rfl
@[simp] theorem takeSample_adcCnt (s : State) : (s.takeSample).adcCnt = s.adcCnt := rfl
@[simp] theorem takeSample_avgSum (s : State) : (s.takeSample).avgSum = fadd s.avgSum (u2f (rawSample s.adcShift).toNat) := rfl
@[simp] theorem takeSample_avgI (s : State) : (s.takeSample).avgI = s.avgI + 1 := rfl
@[simp] theorem takeSample_wghOffset (s : State) : (s.takeSample).wghOffset = s.wghOffset := rfl
@[simp] theorem takeSample_wghScale (s : State) : (s.takeSample).wghScale = s.wghScale := rfl
@[simp] theorem takeSample_dspTarget (s : State) : (s.takeSample).dspTarget = s.dspTarget := rfl
@[simp] theorem takeSample_dspBase (s : State) : (s.takeSample).dspBase = s.dspBase := rfl
@[simp] theorem takeSample_dspCur (s : State) : (s.takeSample).dspCur = s.dspCur := rfl
@[simp] theorem takeSample_lcdRs (s : State) : (s.takeSample).lcdRs = s.lcdRs := rfl
@[simp] theorem takeSample_lcdRw (s : State) : (s.takeSample).lcdRw = s.lcdRw := rfl
@[simp] theorem takeSample_lcdE (s : State) : (s.takeSample).lcdE = s.lcdE := rfl
@[simp] theorem takeSample_lcdDOut (s : State) : (s.takeSample).lcdDOut = s.lcdDOut := rfl
@[simp] theorem takeSample_lcdDDir (s : State) : (s.takeSample).lcdDDir = s.lcdDDir := rfl
@[simp] theorem takeSample_adcSck (s : State) : (s.takeSample).adcSck = s.adcSck := rfl
@[simp] theorem takeSample_motorLevel (s : State) : (s.takeSample).motorLevel = s.motorLevel := rfl
@[simp] theorem takeSample_twiReq (s : State) : (s.takeSample).twiReq = s.twiReq := rfl
@[simp] theorem takeSample_twiTc (s : State) : (s.takeSample).twiTc = s.twiTc := rfl
@[simp] theorem takeSample_lcdInited (s : State) : (s.takeSample).lcdInited = s.lcdInited := rfl
@[simp] theorem takeSample_twiOwned (s : State) : (s.takeSample).twiOwned = s.twiOwned := rfl
@[simp] theorem takeSample_hist (s : State) : (s.takeSample).hist = s.hist := rfl
@[simp] theorem takeSample_strmem (s : State) : (s.takeSample).strmem = s.strmem := rfl
@[simp] theorem takeSample_params (s : State) : (s.takeSample).params = s.params := rfl
@[simp] theorem takeSample_env (s : State) : (s.takeSample).env = s.env := rfl
@[simp] theorem takeSample_draws (s : State) : (s.takeSample).draws = s.draws := rfl

/-! ### `State.requestTwi` -/

@[simp] theorem requestTwi_cmdValid (s : State) (k : TwiReq) (b : Option Byte) : (s.requestTwi k b).cmdValid = s.cmdValid := rfl
@[simp] theorem requestTwi_cmdWord (s : State) (k : TwiReq) (b : Option Byte) : (s.requestTwi k b).cmdWord = s.cmdWord := rfl
@[simp] theorem requestTwi_rspValid (s : State) (k : TwiReq) (b : Option Byte) : (s.requestTwi k b).rspValid = s.rspValid := rfl
@[simp] theorem requestTwi_rspOutcome (s : State) (k : TwiReq) (b : Option Byte) : (s.requestTwi k b).rspOutcome = s.rspOutcome := rfl
@[simp] theorem requestTwi_rspNext (s : State) (k : TwiReq) (b : Option Byte) : (s.requestTwi k b).rspNext = s.rspNext := rfl
@[simp] theorem requestTwi_rspByte (s : State) (k : TwiReq) (b : Option Byte) : (s.requestTwi k b).rspByte = s.rspByte := rfl
@[simp] theorem requestTwi_rspU24 (s : State) (k : TwiReq) (b : Option Byte) : (s.requestTwi k b).rspU24 = s.rspU24 := rfl
@[simp] theorem requestTwi_rspF (s : State) (k : TwiReq) (b : Option Byte) : (s.requestTwi k b).rspF = s.rspF := rfl
@[simp] theorem requestTwi_powerCycle (s : State) (k : TwiReq) (b : Option Byte) : (s.requestTwi k b).powerCycle = s.powerCycle := rfl
@[simp] theorem requestTwi_seq (s : State) (k : TwiReq) (b : Option Byte) : (s.requestTwi k b).seq = s.seq := rfl
@[simp] theorem requestTwi_loc (s : State) (k : TwiReq) (b : Option Byte) : (s.requestTwi k b).loc = s.loc := rfl
@[simp] theorem requestTwi_lcdByte (s : State) (k : TwiReq) (b : Option Byte) : (s.requestTwi k b).lcdByte = s.lcdByte := rfl
@[simp] theorem requestTwi_strPtr (s : State) (k : TwiReq) (b : Option Byte) : (s.requestTwi k b).strPtr = s.strPtr := rfl
@[simp] theorem requestTwi_twiDr (s : State) (k : TwiReq) (b : Option Byte) : (s.requestTwi k b).twiDr = b.getD s.twiDr := rfl
@[simp] theorem requestTwi_adcShift (s : State) (k : TwiReq) (b : Option Byte) : (s.requestTwi k b).adcShift = s.adcShift := rfl
@[simp] theorem requestTwi_adcCnt (s : State) (k : TwiReq) (b : Option Byte) : (s.requestTwi k b).adcCnt = s.adcCnt := rfl
@[simp] theorem requestTwi_avgSum (s : State) (k : TwiReq) (b : Option Byte) : (s.requestTwi k b).avgSum = s.avgSum := rfl
@[simp] theorem requestTwi_avgI (s : State) (k : TwiReq) (b : Option Byte) : (s.requestTwi k b).avgI = s.avgI := rfl
@[simp] theorem requestTwi_wghOffset (s : State) (k : TwiReq) (b : Option Byte) : (s.requestTwi k b).wghOffset = s.wghOffset := rfl
@[simp] theorem requestTwi_wghScale (s : State) (k : TwiReq) (b : Option Byte) : (s.requestTwi k b).wghScale = s.wghScale := rfl
@[simp] theorem requestTwi_dspTarget (s : State) (k : TwiReq) (b : Option Byte) : (s.requestTwi k b).dspTarget = s.dspTarget := rfl
@[simp] theorem requestTwi_dspBase (s : State) (k : TwiReq) (b : Option Byte) : (s.requestTwi k b).dspBase = s.dspBase := rfl
@[simp] theorem requestTwi_dspCur (s : State) (k : TwiReq) (b : Option Byte) : (s.requestTwi k b).dspCur = s.dspCur := rfl
@[simp] theorem requestTwi_lcdRs (s : State) (k : TwiReq) (b : Option Byte) : (s.requestTwi k b).lcdRs = s.lcdRs := rfl
@[simp] theorem requestTwi_lcdRw (s : State) (k : TwiReq) (b : Option Byte) : (s.requestTwi k b).lcdRw = s.lcdRw := rfl
@[simp] theorem requestTwi_lcdE (s : State) (k : TwiReq) (b : Option Byte) : (s.requestTwi k b).lcdE = s.lcdE := rfl
@[simp] theorem requestTwi_lcdDOut (s : State) (k : TwiReq) (b : Option Byte) : (s.requestTwi k b).lcdDOut = s.lcdDOut := rfl
@[simp] theorem requestTwi_lcdDDir (s : State) (k : TwiReq) (b : Option Byte) : (s.requestTwi k b).lcdDDir = s.lcdDDir := rfl
@[simp] theorem requestTwi_adcSck (s : State) (k : TwiReq) (b : Option Byte) : (s.requestTwi k b).adcSck = s.adcSck := rfl
@[simp] theorem requestTwi_motorLevel (s : State) (k : TwiReq) (b : Option Byte) : (s.requestTwi k b).motorLevel = s.motorLevel := rfl
@[simp] theorem requestTwi_twiReq (s : State) (k : TwiReq) (b : Option Byte) : (s.requestTwi k b).twiReq = k := rfl
@[simp] theorem requestTwi_twiTc (s : State) (k : TwiReq) (b : Option Byte) : (s.requestTwi k b).twiTc = false := rfl
@[simp] theorem requestTwi_lcdInited (s : State) (k : TwiReq) (b : Option Byte) : (s.requestTwi k b).lcdInited = s.lcdInited := rfl
@[simp] theorem requestTwi_twiOwned (s : State) (k : TwiReq) (b : Option Byte) : (s.requestTwi k b).twiOwned = s.twiOwned := rfl
@[simp] theorem requestTwi_hist (s : State) (k : TwiReq) (b : Option Byte) : (s.requestTwi k b).hist = s.hist ++ [.twi k b] := rfl
@[simp] theorem requestTwi_strmem (s : State) (k : TwiReq) (b : Option Byte) : (s.requestTwi k b).strmem = s.strmem := rfl
@[simp] theorem requestTwi_params (s : State) (k : TwiReq) (b : Option Byte) : (s.requestTwi k b).params = s.params := rfl
@[simp] theorem requestTwi_env (s : State) (k : TwiReq) (b : Option Byte) : (s.requestTwi k b).env = s.env := rfl
@[simp] theorem requestTwi_draws (s : State) (k : TwiReq) (b : Option Byte) : (s.requestTwi k b).draws = s.draws := rfl

/-! ### `State.readString` -/

@[simp] theorem readString_cmdValid (s : State) : (s.readString).cmdValid = s.cmdValid := rfl
@[simp] theorem readString_cmdWord (s : State) : (s.readString).cmdWord = s.cmdWord := rfl
@[simp] theorem readString_rspValid (s : State) : (s.readString).rspValid = s.rspValid := rfl
@[simp] theorem readString_rspOutcome (s : State) : (s.readString).rspOutcome = s.rspOutcome := rfl
@[simp] theorem readString_rspNext (s : State) : (s.readString).rspNext = s.rspNext := rfl
@[simp] theorem readString_rspByte (s : State) : (s.readString).rspByte = s.rspByte := rfl
@[simp] theorem readString_rspU24 (s : State) : (s.readString).rspU24 = s.rspU24 := rfl
@[simp] theorem readString_rspF (s : State) : (s.readString).rspF = s.rspF := rfl
@[simp] theorem readString_powerCycle (s : State) : (s.readString).powerCycle = s.powerCycle := rfl
@[simp] theorem readString_seq (s : State) : (s.readString).seq = s.seq := rfl
@[simp] theorem readString_loc (s : State) : (s.readString).loc = { s.loc with c := s.strByte s.strPtr } := rfl
@[simp] theorem readString_lcdByte (s : State) : (s.readString).lcdByte = s.lcdByte := rfl
@[simp] theorem readString_strPtr (s : State) : (s.readString).strPtr = s.strPtr := rfl
@[simp] theorem readString_twiDr (s : State) : (s.readString).twiDr = s.twiDr := rfl
@[simp] theorem readString_adcShift (s : State) : (s.readString).adcShift = s.adcShift := rfl
@[simp] theorem readString_adcCnt (s : State) : (s.readString).adcCnt = s.adcCnt := rfl
@[simp] theorem readString_avgSum (s : State) : (s.readString).avgSum = s.avgSum := rfl
@[simp] theorem readString_avgI (s : State) : (s.readString).avgI = s.avgI := rfl
@[simp] theorem readString_wghOffset (s : State) : (s.readString).wghOffset = s.wghOffset := rfl
@[simp] theorem readString_wghScale (s : State) : (s.readString).wghScale = s.wghScale := rfl
@[simp] theorem readString_dspTarget (s : State) : (s.readString).dspTarget = s.dspTarget := rfl
@[simp] theorem readString_dspBase (s : State) : (s.readString).dspBase = s.dspBase := rfl
@[simp] theorem readString_dspCur (s : State) : (s.readString).dspCur = s.dspCur := rfl
@[simp] theorem readString_lcdRs (s : State) : (s.readString).lcdRs = s.lcdRs := rfl
@[simp] theorem readString_lcdRw (s : State) : (s.readString).lcdRw = s.lcdRw := rfl
@[simp] theorem readString_lcdE (s : State) : (s.readString).lcdE = s.lcdE := rfl
@[simp] theorem readString_lcdDOut (s : State) : (s.readString).lcdDOut = s.lcdDOut := rfl
@[simp] theorem readString_lcdDDir (s : State) : (s.readString).lcdDDir = s.lcdDDir := rfl
@[simp] theorem readString_adcSck (s : State) : (s.readString).adcSck = s.adcSck := rfl
@[simp] theorem readString_motorLevel (s : State) : (s.readString).motorLevel = s.motorLevel := rfl
@[simp] theorem readString_twiReq (s : State) : (s.readString).twiReq = s.twiReq := rfl
@[simp] theorem readString_twiTc (s : State) : (s.readString).twiTc = s.twiTc := rfl
@[simp] theorem readString_lcdInited (s : State) : (s.readString).lcdInited = s.lcdInited := rfl
@[simp] theorem readString_twiOwned (s : State) : (s.readString).twiOwned = s.twiOwned := rfl
@[simp] theorem readString_hist (s : State) : (s.readString).hist = s.hist ++ [.mem s.strPtr (s.strByte s.strPtr)] := rfl
@[simp] theorem readString_strmem (s : State) : (s.readString).strmem = s.strmem := rfl
@[simp] theorem readString_params (s : State) : (s.readString).params = s.params := rfl
@[simp] theorem readString_env (s : State) : (s.readString).env = s.env := rfl
@[simp] theorem readString_draws (s : State) : (s.readString).draws = s.draws := rfl

/-! ### The response fields a `return` names (R78) -/

@[simp] theorem respond_rspNext (s : State) (op : Instr) (o : RspOutcome) (n : RspNext) :
    (s.respond op o (.next n)).rspNext = n := rfl
@[simp] theorem respond_rspByte (s : State) (op : Instr) (o : RspOutcome) (b : Byte) :
    (s.respond op o (.byte b)).rspByte = b := rfl
@[simp] theorem respond_rspU24 (s : State) (op : Instr) (o : RspOutcome) (v : Sample) :
    (s.respond op o (.u24 v)).rspU24 = v := rfl
@[simp] theorem respond_rspF (s : State) (op : Instr) (o : RspOutcome) (f : FLOAT) :
    (s.respond op o (.float f)).rspF = f := rfl

end Sys2Proof.Machine
end

