-- ==== Sys2Proof/Laws/Ops.lean ====
section
/-! SUPPORT. Ops: what each shared operation can do, said once. -/

namespace Sys2Proof.Machine

/-! ### Reads of the environment -/

/-- A read of `lcd_d` uses an answer up and changes nothing else. -/
theorem drawLcd_spec (s : State) : ∃ v env d, s.drawLcd = (v, { s with env := env, draws := d }) := by
  unfold State.drawLcd
  split
  · exact ⟨_, _, s.draws, rfl⟩
  · exact ⟨_, s.env, _, rfl⟩

theorem drawAdc_spec (s : State) : ∃ v env d, s.drawAdc = (v, { s with env := env, draws := d }) := by
  unfold State.drawAdc
  split
  · exact ⟨_, _, s.draws, rfl⟩
  · exact ⟨_, s.env, _, rfl⟩

theorem drawTwi_spec (s : State) : ∃ v env d, s.drawTwi = (v, { s with env := env, draws := d }) := by
  unfold State.drawTwi
  split
  · exact ⟨_, _, s.draws, rfl⟩
  · exact ⟨_, s.env, _, rfl⟩

/-- A probe of the busy flag sets `bf` and records the four bits read. -/
theorem readBusy_spec (s : State) : ∃ nib env d, s.readBusy =
    { s with loc := { s.loc with bf := busyFlag s.params nib }, env := env, draws := d, hist := s.hist ++ [.busRead nib] } := by
  obtain ⟨v, env, d, h⟩ := drawLcd_spec s
  exact ⟨v, env, d, by simp [State.readBusy, h, State.emit]⟩

theorem readReady_spec (s : State) : ∃ v env d, s.readReady =
    { s with loc := { s.loc with r := v }, env := env, draws := d, hist := s.hist ++ [.adcRead v] } := by
  obtain ⟨v, env, d, h⟩ := drawAdc_spec s
  exact ⟨v, env, d, by simp [State.readReady, h, State.emit]⟩

theorem readBit_spec (s : State) : ∃ v env d, s.readBit =
    { s with loc := { s.loc with bit := v }, env := env, draws := d, hist := s.hist ++ [.adcRead v] } := by
  obtain ⟨v, env, d, h⟩ := drawAdc_spec s
  exact ⟨v, env, d, by simp [State.readBit, h, State.emit]⟩

/-- The event of a poll of the two-wire engine (R123). -/
def twiEvent (req : TwiReq) (ans : TwiAnswer) : Event :=
  if ans.tc then (if req.receives then .twiTc true (some ans.byte) else .twiTc true none) else .twiTc false none

/-- A poll of the two-wire engine, for every answer (R123). -/
theorem pollTwi_spec (s : State) : ∃ ans env d, s.pollTwi =
    { s with
      loc := { s.loc with tc := ans.tc }
      env := env
      draws := d
      twiTc := if ans.tc then true else s.twiTc
      twiReq := if ans.tc then .none else s.twiReq
      twiDr := if ans.tc && s.twiReq.receives then ans.byte else s.twiDr
      hist := s.hist ++ [twiEvent s.twiReq ans] } := by
  obtain ⟨v, env, d, h⟩ := drawTwi_spec s
  refine ⟨v, env, d, ?_⟩
  cases htc : v.tc <;> cases hr : s.twiReq.receives <;> simp [State.pollTwi, h, State.emit, htc, hr, twiEvent]

/-! ### The same reads when the environment has settled on the answer -/

theorem readBusy_settled {s : State} {nib : Nibble} {rest : List Nibble} (h : s.env.lcd = nib :: rest) : s.readBusy =
    { s with loc := { s.loc with bf := busyFlag s.params nib }, env := { s.env with lcd := rest },
             hist := s.hist ++ [.busRead nib] } := by
  simp [State.readBusy, State.drawLcd, h, State.emit]

theorem readReady_settled {s : State} {v : Bool} {rest : List Bool} (h : s.env.adc = v :: rest) : s.readReady =
    { s with loc := { s.loc with r := v }, env := { s.env with adc := rest }, hist := s.hist ++ [.adcRead v] } := by
  simp [State.readReady, State.drawAdc, h, State.emit]

theorem readBit_settled {s : State} {v : Bool} {rest : List Bool} (h : s.env.adc = v :: rest) : s.readBit =
    { s with loc := { s.loc with bit := v }, env := { s.env with adc := rest }, hist := s.hist ++ [.adcRead v] } := by
  simp [State.readBit, State.drawAdc, h, State.emit]

theorem pollTwi_settled {s : State} {ans : TwiAnswer} {rest : List TwiAnswer} (h : s.env.twi = ans :: rest) : s.pollTwi =
    { s with
      loc := { s.loc with tc := ans.tc }
      env := { s.env with twi := rest }
      twiTc := if ans.tc then true else s.twiTc
      twiReq := if ans.tc then .none else s.twiReq
      twiDr := if ans.tc && s.twiReq.receives then ans.byte else s.twiDr
      hist := s.hist ++ [twiEvent s.twiReq ans] } := by
  cases htc : ans.tc <;> cases hr : s.twiReq.receives <;>
    simp [State.pollTwi, State.drawTwi, h, State.emit, htc, hr, twiEvent]

/-! ### Primitives -/

/-- A pin write changes the pin and records itself. -/
theorem pinWrite_spec (s : State) (p : OutPin) (v : Bool) : s.pinWrite p v =
    { s with
      lcdRs := if p = .lcdRs then v else s.lcdRs
      lcdRw := if p = .lcdRw then v else s.lcdRw
      lcdE := if p = .lcdE then v else s.lcdE
      adcSck := if p = .adcSck then v else s.adcSck
      hist := s.hist ++ [.write p v] } := by
  cases p <;> rfl

/-- A primitive is a `return`. -/
def Prim.isRet : Prim → Bool
  | .ret _ _ => true
  | _ => false

/-- Every primitive appends exactly one event (R10). -/
theorem doPrim_hist (op : Instr) (p : Prim) (s : State) : ∃ e, (doPrim op p s).hist = s.hist ++ [e] := by
  cases p with
  | pinWrite p v => exact ⟨_, by rw [doPrim, pinWrite_spec]⟩
  | readBusy => obtain ⟨_, _, _, h⟩ := readBusy_spec s; exact ⟨_, by rw [doPrim, h]⟩
  | readReady => obtain ⟨_, _, _, h⟩ := readReady_spec s; exact ⟨_, by rw [doPrim, h]⟩
  | readBit => obtain ⟨_, _, _, h⟩ := readBit_spec s; exact ⟨_, by rw [doPrim, h]⟩
  | twiPoll => obtain ⟨_, _, _, h⟩ := pollTwi_spec s; exact ⟨_, by rw [doPrim, h]⟩
  | _ => exact ⟨_, rfl⟩

/-- A primitive other than `return` leaves the sequencer's position to its caller. -/
theorem doPrim_seq {op : Instr} {p : Prim} (h : p.isRet = false) (s : State) : (doPrim op p s).seq = s.seq := by
  cases p with
  | pinWrite p v => rw [doPrim, pinWrite_spec]
  | readBusy => obtain ⟨_, _, _, h⟩ := readBusy_spec s; rw [doPrim, h]
  | readReady => obtain ⟨_, _, _, h⟩ := readReady_spec s; rw [doPrim, h]
  | readBit => obtain ⟨_, _, _, h⟩ := readBit_spec s; rw [doPrim, h]
  | twiPoll => obtain ⟨_, _, _, h⟩ := pollTwi_spec s; rw [doPrim, h]
  | ret o v => simp [Prim.isRet] at h
  | _ => rfl

/-- A primitive other than `return` does not look at the sequencer's position. -/
theorem doPrim_withSeq {op : Instr} {p : Prim} (h : p.isRet = false) (s : State) (q : Seq) :
    doPrim op p { s with seq := q } = { doPrim op p s with seq := q } := by
  cases p with
  | pinWrite p v => cases p <;> rfl
  | readBusy =>
    simp only [doPrim, State.readBusy, State.drawLcd, State.emit]
    split <;> rfl
  | readReady =>
    simp only [doPrim, State.readReady, State.drawAdc, State.emit]
    split <;> rfl
  | readBit =>
    simp only [doPrim, State.readBit, State.drawAdc, State.emit]
    split <;> rfl
  | twiPoll =>
    cases hq : s.env.twi with
    | nil =>
      cases h1 : Config.freeTwiTc s.draws <;> cases h2 : s.twiReq.receives <;>
        simp [doPrim, State.pollTwi, State.drawTwi, State.emit, hq, h1, h2]
    | cons a rest =>
      cases h1 : a.tc <;> cases h2 : s.twiReq.receives <;>
        simp [doPrim, State.pollTwi, State.drawTwi, State.emit, hq, h1, h2]
  | ret o v => simp [Prim.isRet] at h
  | _ => rfl

end Sys2Proof.Machine
end

