-- ==== Sys2Proof/Laws/Sequencer.lean ====
section
/-! SUPPORT. Sequencer: every operation is `runOperation` of its own admission test and pseudocode; runs of one operation compose; a
straight-line piece runs its primitives one a step. -/

namespace Sys2Proof.Machine

/-- The test an operation makes at acceptance (R211). -/
def admitOf : Instr → State → Option Refusal
  | .lcdInit => admitAlways
  | .lcdWri _ => admitDisplay
  | .lcdWrc _ => admitDisplay
  | .lcdWrs _ => admitDisplay
  | .twiStart => admitAlways
  | .twiStop => admitOwned
  | .twiWrb _ => admitOwned
  | .twiRda => admitOwned
  | .twiRdn => admitOwned
  | .adcRaw => admitAlways
  | .adcAvg _ => admitAlways
  | .wghMass _ => admitAlways
  | .wghTare _ => admitAlways
  | .wghCal _ => admitAlways
  | .dspRun _ => admitDisplay

/-- The pseudocode of an operation. -/
def resumeOf : Instr → Place → State → Advance
  | .lcdInit => resumeLcdInit
  | .lcdWri code => resumeLcdWri code
  | .lcdWrc byte => resumeLcdWrc byte
  | .lcdWrs addr => resumeLcdWrs addr
  | .twiStart => resumeTwiStart
  | .twiStop => resumeTwiStop
  | .twiWrb b => resumeTwiWrb b
  | .twiRda => resumeTwiRda
  | .twiRdn => resumeTwiRdn
  | .adcRaw => resumeAdcRaw
  | .adcAvg n => resumeAdcAvg n
  | .wghMass n => resumeWghMass n
  | .wghTare n => resumeWghTare n
  | .wghCal ref => resumeWghCal ref
  | .dspRun target => resumeDspRun target

theorem exec_eq (i : Instr) (s : State) : exec i s = runOperation i (admitOf i) (resumeOf i) s := by
  cases i <;> rfl

/-- Everything one step of an operation can do (the cases of `runOperation`). -/
theorem exec_cases {i : Instr} {s t : State} (h : exec i s = .next t) :
    (s.seq = .idle ∧ admitOf i s = none ∧ t = s.accept i) ∨
    (∃ p rest place, s.seq = .busy i (p :: rest) place ∧ t = doPrim i p { s with seq := .busy i rest place }) ∨
    (∃ place s' p rest place', s.seq = .busy i [] place ∧ resumeOf i place s = .go s' p rest place' ∧
      t = doPrim i p { s' with seq := .busy i rest place' }) ∨
    (∃ j todo place, s.seq = .busy j todo place ∧ j ≠ i ∧ t = s) := by
  rw [exec_eq, runOperation] at h
  split at h
  · rename_i hs
    split at h
    · cases h
    · rename_i ha; cases h; exact .inl ⟨hs, ha, rfl⟩
  · rename_i j todo place hs
    split at h
    · rename_i hj; subst hj
      split at h
      · cases h; exact .inr (.inl ⟨_, _, _, hs, rfl⟩)
      · cases hr : resumeOf j place s with
        | fault f => simp [hr, Advance.run] at h
        | go s' p rest place' =>
          simp only [hr, Advance.run] at h
          cases h
          exact .inr (.inr (.inl ⟨place, s', p, rest, place', hs, hr, rfl⟩))
    · rename_i hj; cases h; exact .inr (.inr (.inr ⟨_, _, _, hs, hj, rfl⟩))

theorem exec_idle {i : Instr} {s : State} (hs : s.seq = .idle) (ha : admitOf i s = none) :
    exec i s = .next (s.accept i) := by
  rw [exec_eq, runOperation, hs]; simp [ha]

theorem exec_todo {i : Instr} {s : State} {p : Prim} {rest : List Prim} {place : Place}
    (hs : s.seq = .busy i (p :: rest) place) : exec i s = .next (doPrim i p { s with seq := .busy i rest place }) := by
  rw [exec_eq, runOperation, hs]; simp

theorem exec_place {i : Instr} {s : State} {place : Place} (hs : s.seq = .busy i [] place) :
    exec i s = (resumeOf i place s).run i := by
  rw [exec_eq, runOperation, hs]; simp

/-! ### Runs of one operation -/

/-- `k` steps of operation `i` lead from `s` to `t`. -/
abbrev Runs (i : Instr) (k : Nat) (s t : State) : Prop := runOp i k s = .next t

theorem runs_zero (i : Instr) (s : State) : Runs i 0 s s := rfl

theorem runs_succ {i : Instr} {k : Nat} {s t u : State} (h : exec i s = .next t) (hr : Runs i k t u) :
    Runs i (k + 1) s u := by
  simp only [Runs, runOp, h]; exact hr

theorem runs_one {i : Instr} {s t : State} (h : exec i s = .next t) : Runs i 1 s t := runs_succ h (runs_zero i t)

theorem runs_trans {i : Instr} {m n : Nat} {s t u : State} (h : Runs i m s t) (h' : Runs i n t u) : Runs i (m + n) s u := by
  induction m generalizing s with
  | zero => cases h; rwa [Nat.zero_add]
  | succ m ih =>
    simp only [Runs, runOp] at h
    split at h
    · rename_i s' hs'
      rw [Nat.succ_add]; exact runs_succ hs' (ih h)
    · cases h
    · cases h

/-- The primitives of a straight-line piece, one after another. -/
def doPrims (i : Instr) (ps : List Prim) (s : State) : State := ps.foldl (fun s p => doPrim i p s) s

theorem doPrims_nil (i : Instr) (s : State) : doPrims i [] s = s := rfl
theorem doPrims_cons (i : Instr) (p : Prim) (ps : List Prim) (s : State) :
    doPrims i (p :: ps) s = doPrims i ps (doPrim i p s) := rfl
theorem doPrims_append (i : Instr) (ps qs : List Prim) (s : State) :
    doPrims i (ps ++ qs) s = doPrims i qs (doPrims i ps s) := List.foldl_append ..

/-- No `return` in a piece. -/
abbrev NoRet (ps : List Prim) : Prop := ps.all (fun p => !p.isRet) = true

theorem doPrims_withSeq {i : Instr} {ps : List Prim} (h : NoRet ps) (s : State) (q : Seq) :
    doPrims i ps { s with seq := q } = { doPrims i ps s with seq := q } := by
  induction ps generalizing s with
  | nil => rfl
  | cons p ps ih =>
    simp only [NoRet, List.all_cons, Bool.and_eq_true, Bool.not_eq_true'] at h
    rw [doPrims_cons, doPrim_withSeq h.1, ih h.2, doPrims_cons]

/-- A straight-line piece without `return` takes one step a primitive. -/
theorem runs_block {i : Instr} {ps qs : List Prim} {place : Place} {s : State} (h : NoRet ps)
    (hs : s.seq = .busy i (ps ++ qs) place) :
    Runs i ps.length s { doPrims i ps s with seq := .busy i qs place } := by
  induction ps generalizing s with
  | nil =>
    have : s = { s with seq := .busy i qs place } := by
      rw [List.nil_append] at hs; rw [← hs]
    simp only [List.length_nil, doPrims_nil]
    rw [← this]; exact runs_zero i s
  | cons p ps ih =>
    simp only [NoRet, List.all_cons, Bool.and_eq_true, Bool.not_eq_true'] at h
    have h1 := exec_todo (p := p) (rest := ps ++ qs) hs
    refine runs_succ h1 ?_
    have h2 := ih (s := doPrim i p { s with seq := .busy i (ps ++ qs) place }) h.2 (doPrim_seq h.1 _)
    rw [doPrim_withSeq h.1, doPrims_withSeq h.2] at h2
    rw [doPrim_withSeq h.1, doPrims_cons]
    exact h2

/-- An advance goes on with a straight-line piece without `return` and stands at the next place. -/
theorem runs_go {i : Instr} {p : Prim} {ps : List Prim} {place' : Place} {s s' : State}
    (hx : exec i s = (Advance.go s' p ps place').run i) (h : NoRet (p :: ps)) :
    Runs i (ps.length + 1) s { doPrims i (p :: ps) s' with seq := .busy i [] place' } := by
  simp only [NoRet, List.all_cons, Bool.and_eq_true, Bool.not_eq_true'] at h
  refine runs_succ hx ?_
  have h2 := runs_block (i := i) (ps := ps) (qs := []) (place := place')
    (s := doPrim i p { s' with seq := .busy i ps place' }) h.2 (by rw [doPrim_seq h.1, List.append_nil])
  rw [doPrim_withSeq h.1, doPrims_withSeq h.2] at h2
  rw [doPrim_withSeq h.1, doPrims_cons]
  exact h2

/-- The same from a place. -/
theorem runs_place {i : Instr} {p : Prim} {ps : List Prim} {place place' : Place} {s s' : State}
    (hs : s.seq = .busy i [] place) (hr : resumeOf i place s = .go s' p ps place') (h : NoRet (p :: ps)) :
    Runs i (ps.length + 1) s { doPrims i (p :: ps) s' with seq := .busy i [] place' } :=
  runs_go (by rw [exec_place hs, hr]) h

/-- From a place, the pseudocode returns. -/
theorem exec_returning {i : Instr} {place : Place} {s s' : State} {o : RspOutcome} {v : RetVal}
    (hs : s.seq = .busy i [] place) (hr : resumeOf i place s = returning s' o v) : exec i s = .next (s'.respond i o v) := by
  rw [exec_place hs, hr]; rfl

/-! ### Steps of the machine -/

theorem step_powerCycle {s : State} (h : s.powerCycle = true) : step s = .next s.restart := by simp [step, h]

theorem step_busy {s : State} {i : Instr} {todo : List Prim} {place : Place} (hp : s.powerCycle = false)
    (hs : s.seq = .busy i todo place) : step s = exec i s := by simp [step, hp, hs]

/-- Everything one step of the machine can do. -/
theorem step_cases {s t : State} (h : step s = .next t) :
    (s.powerCycle = true ∧ t = s.restart) ∨
    (s.powerCycle = false ∧ s.seq = .idle ∧ s.cmdValid = false ∧ t = s) ∨
    (s.powerCycle = false ∧ s.seq = .idle ∧ s.cmdValid = true ∧ ∃ i, decode s.cmdWord = .ok i ∧ admitOf i s = none ∧ t = s.accept i) ∨
    (s.powerCycle = false ∧ ∃ i todo place, s.seq = .busy i todo place ∧ exec i s = .next t) := by
  unfold step at h
  split at h
  · rename_i hp; cases h; exact .inl ⟨hp, rfl⟩
  · rename_i hp
    have hp : s.powerCycle = false := by simpa using hp
    split at h
    · rename_i i todo place hs
      exact .inr (.inr (.inr ⟨hp, i, todo, place, hs, h⟩))
    · rename_i hs
      split at h
      · rename_i hv
        cases hd : decode s.cmdWord with
        | error e => cases e <;> simp [State.presented, hd] at h
        | ok i =>
          simp only [State.presented, hd] at h
          rcases exec_cases h with ⟨-, ha, rfl⟩ | ⟨_, _, _, hb, -⟩ | ⟨_, _, _, _, _, hb, -⟩ | ⟨_, _, _, hb, -⟩
          · exact .inr (.inr (.inl ⟨hp, hs, hv, i, rfl, ha, rfl⟩))
          all_goals rw [hs] at hb; cases hb
      · rename_i hv
        cases h; exact .inr (.inl ⟨hp, hs, by simpa using hv, rfl⟩)

end Sys2Proof.Machine
end

