-- ==== Sys2Proof/Laws/Adc.lean ====
section
/-! SUPPORT. Adc: a raw sample and an average, run whole, for every conversion the ADC answers with (R142 to R149). -/

namespace Sys2Proof.Machine

/-- The pseudocode of an operation inside `ReadRawSample()` for reading `q`, with `done` after a whole sample. -/
structure ReadsSample (i : Instr) (q : Reading) (done : State → Advance) : Prop where
  poll : ∀ s, resumeOf i (.adcUntil q) s = adcUntil q s
  pulse : ∀ s, resumeOf i (.adcPulse q) s = adcAfterPulse q done s
  extra : ∀ s, resumeOf i (.adcExtra q) s = done s

/-- `e'` is `e` after the silent statements that follow a sample (R145, R149): only registers of the reader and the averager differ, and the
block stands inside operation `i`. -/
structure AfterSample (i : Instr) (e e' : State) : Prop where
  state : e = { e' with adcShift := e.adcShift, adcCnt := e.adcCnt, avgSum := e.avgSum, avgI := e.avgI }
  inside : ∃ place, e'.seq = .busy i [] place

theorem afterSample_takeBit {i : Instr} {e : State} {place : Place} (h : e.seq = .busy i [] place) : AfterSample i e e.takeBit :=
  ⟨rfl, place, h⟩

theorem afterSample_refl {i : Instr} {e : State} {place : Place} (h : e.seq = .busy i [] place) : AfterSample i e e := ⟨rfl, place, h⟩

theorem AfterSample.takeSample {i : Instr} {e e' : State} (h : AfterSample i e e') : AfterSample i e e'.takeSample :=
  ⟨by rw [h.state]; rfl, h.inside⟩

theorem AfterSample.hist {i : Instr} {e e' : State} (h : AfterSample i e e') : e.hist = e'.hist := by rw [h.state]
theorem AfterSample.seq {i : Instr} {e e' : State} (h : AfterSample i e e') : e.seq = e'.seq := by rw [h.state]
theorem AfterSample.rspValid {i : Instr} {e e' : State} (h : AfterSample i e e') : e.rspValid = e'.rspValid := by rw [h.state]
theorem AfterSample.motorLevel {i : Instr} {e e' : State} (h : AfterSample i e e') : e.motorLevel = e'.motorLevel := by rw [h.state]
theorem AfterSample.wghOffset {i : Instr} {e e' : State} (h : AfterSample i e e') : e.wghOffset = e'.wghOffset := by rw [h.state]
theorem AfterSample.wghScale {i : Instr} {e e' : State} (h : AfterSample i e e') : e.wghScale = e'.wghScale := by rw [h.state]
theorem AfterSample.running {i : Instr} {e e' : State} (h : AfterSample i e e') : e.running = some i := by
  obtain ⟨place, hp⟩ := h.inside
  rw [State.running, h.seq, hp]

/-! ### Pieces -/

/-- The ready poll reads not ready `waits` times and then ready. -/
theorem runs_adcWait {i : Instr} {q : Reading} {done : State → Advance} (hq : ReadsSample i q done) {waits : Nat}
    {rest : List Bool} {s s0 : State} (hx : exec i s = (adcReadSample q s0).run i)
    (he : s0.env.adc = List.replicate waits true ++ false :: rest) :
    Runs i (waits + 1) s { s0 with
      loc := { s0.loc with r := false }
      env := { s0.env with adc := rest }
      hist := s0.hist ++ (List.replicate waits (.adcRead true) ++ [.adcRead false])
      seq := .busy i [] (.adcUntil q) } := by
  induction waits generalizing s s0 with
  | zero =>
    have h := runs_go (p := .readReady) (ps := []) (place' := .adcUntil q) hx rfl
    simpa [doPrims, doPrim, readReady_settled (s := s0) (by simpa using he)] using h
  | succ w ih =>
    have h := runs_go (p := .readReady) (ps := []) (place' := .adcUntil q) hx rfl
    have he' : s0.env.adc = true :: (List.replicate w true ++ false :: rest) := by simpa [List.replicate_succ] using he
    simp only [doPrims, List.foldl, doPrim, readReady_settled he'] at h
    have h2 := ih (s := { s0 with
        loc := { s0.loc with r := true }
        env := { s0.env with adc := List.replicate w true ++ false :: rest }
        hist := s0.hist ++ [.adcRead true]
        seq := .busy i [] (.adcUntil q) })
      (s0 := { s0 with
        loc := { s0.loc with r := true }
        env := { s0.env with adc := List.replicate w true ++ false :: rest }
        hist := s0.hist ++ [.adcRead true]
        seq := .busy i [] (.adcUntil q) })
      (by rw [exec_place (place := .adcUntil q) rfl, hq.poll]; simp [adcUntil, adcReady]) rfl
    have h3 := runs_trans h h2
    rw [show w + 1 + 1 = ([] : List Prim).length + 1 + (w + 1) by simp; omega]
    simpa [List.replicate_succ] using h3

/-- One data pulse that samples `b`. -/
theorem runs_adcPulse {i : Instr} {q : Reading} {b : Bool} {rest : List Bool} {place : Place} {s s0 : State}
    (hs : s.seq = .busy i [] place) (hr : resumeOf i place s = adcPulseBit q s0) (he : s0.env.adc = b :: rest) :
    Runs i 5 s { s0 with
      adcSck := false
      loc := { s0.loc with bit := b }
      env := { s0.env with adc := rest }
      hist := s0.hist ++ traceBit s0.params b
      seq := .busy i [] (.adcPulse q) } := by
  have h := runs_place (p := .pinWrite .adcSck true) (ps := adcPulseRest s0.params) (place' := .adcPulse q) hs hr
    (by unfold adcPulseRest; cases s0.params.adcSamplePhase <;> rfl)
  have hl : (adcPulseRest s0.params).length + 1 = 5 := by unfold adcPulseRest; cases s0.params.adcSamplePhase <;> rfl
  rw [hl] at h
  cases hp : s0.params.adcSamplePhase <;>
    simpa [doPrims, adcPulseRest, hp, doPrim, State.pinWrite, State.emit, State.readBit, State.drawAdc, he, traceBit] using h

/-- The data pulses after the first: `bits` more. -/
theorem runs_adcPulses {i : Instr} {q : Reading} {done : State → Advance} (hq : ReadsSample i q done) {bits rest : List Bool}
    {s : State} (hs : s.seq = .busy i [] (.adcPulse q)) (hk : s.adcSck = false) (hn : s.adcCnt.toNat + 1 + bits.length = 24)
    (he : s.env.adc = bits ++ rest) :
    ∃ e : State, Runs i (5 * bits.length) s e ∧
      shiftIn e.adcShift e.loc.bit = bits.foldl shiftIn (shiftIn s.adcShift s.loc.bit) ∧
      e = { s with
        adcShift := e.adcShift
        adcCnt := 23
        loc := e.loc
        env := { s.env with adc := rest }
        hist := s.hist ++ bits.flatMap (traceBit s.params) } := by
  induction bits generalizing s with
  | nil =>
    have hc : s.adcCnt = 23 := by
      apply BitVec.eq_of_toNat_eq; simpa using hn
    refine ⟨s, runs_zero i s, rfl, ?_⟩
    have he' : ({ s.env with adc := rest } : EnvQueue) = s.env := by rw [← show s.env.adc = rest by simpa using he]
    simp only [he', ← hc, List.flatMap_nil, List.append_nil]
  | cons b bits ih =>
    have hcnt : (s.adcCnt + 1).toNat = s.adcCnt.toNat + 1 := by
      rw [BitVec.toNat_add]; simp only [List.length_cons] at hn
      have : (1 : BitVec 5).toNat = 1 := rfl
      omega
    have hlt : s.takeBit.adcCnt < 24 := by
      rw [BitVec.lt_def, takeBit_adcCnt, hcnt]
      have : (24 : BitVec 5).toNat = 24 := rfl
      simp only [List.length_cons] at hn; omega
    have h1 := runs_adcPulse (s0 := s.takeBit) hs
      (by rw [hq.pulse, adcAfterPulse, if_pos hlt]) (by simpa [State.takeBit] using he)
    obtain ⟨e, he1, he2, he3⟩ := ih (s := { s.takeBit with
      adcSck := false
      loc := { s.takeBit.loc with bit := b }
      env := { s.takeBit.env with adc := bits ++ rest }
      hist := s.takeBit.hist ++ traceBit s.takeBit.params b
      seq := .busy i [] (.adcPulse q) }) rfl rfl
      (by simp only [takeBit_adcCnt, hcnt]; simp only [List.length_cons] at hn; omega) rfl
    refine ⟨e, ?_, ?_, ?_⟩
    · have h := runs_trans h1 he1
      rwa [show 5 * (b :: bits).length = 5 + 5 * bits.length by simp only [List.length_cons]; ring]
    · rw [he2]; rfl
    · rw [he3]; simp [State.takeBit, hk, hs]

/-- The extra pulses. -/
theorem doPrims_extra (i : Instr) (n : Nat) (s : State) (h : s.adcSck = false) :
    doPrims i (adcExtraPulses n) s = { s with hist := s.hist ++ (List.replicate n traceExtra).flatten } := by
  induction n generalizing s with
  | zero => simp [adcExtraPulses, doPrims]
  | succ n ih =>
    simp only [adcExtraPulses, doPrims_cons, doPrims_append]
    rw [ih _ (by simp [doPrims, adcExtraRest, doPrim, State.pinWrite, State.emit])]
    simp [doPrims, adcExtraRest, doPrim, State.pinWrite, State.emit, List.replicate_succ, traceExtra, h]

theorem noRet_adcExtraPulses (n : Nat) : NoRet (adcExtraPulses n) := by
  induction n with
  | zero => rfl
  | succ n ih => simp only [NoRet, adcExtraPulses, List.all_cons, List.all_append] at ih ⊢; rw [ih]; rfl

theorem adcExtraPulses_length (n : Nat) : (adcExtraPulses n).length = 4 * n := by
  induction n with
  | zero => rfl
  | succ n ih => simp [adcExtraPulses, adcExtraRest, ih]; ring

/-- The ready poll reads not ready, `k + 1` times: the operation is still at its wait (R142, R153). -/
theorem runs_adcNotReady {i : Instr} {q : Reading} (hq : ∀ s, resumeOf i (.adcUntil q) s = adcUntil q s) {k : Nat} {rest : List Bool}
    {s s0 : State} (hx : exec i s = (adcReadSample q s0).run i) (he : s0.env.adc = List.replicate (k + 1) true ++ rest) :
    Runs i (k + 1) s { s0 with
      loc := { s0.loc with r := true }
      env := { s0.env with adc := rest }
      hist := s0.hist ++ List.replicate (k + 1) (.adcRead true)
      seq := .busy i [] (.adcUntil q) } := by
  induction k generalizing s s0 with
  | zero =>
    have h := runs_go (p := .readReady) (ps := []) (place' := .adcUntil q) hx rfl
    simpa [doPrims, doPrim, readReady_settled (s := s0) (by simpa using he)] using h
  | succ k ih =>
    have he' : s0.env.adc = true :: (List.replicate (k + 1) true ++ rest) := by rw [he, List.replicate_succ]; rfl
    have h := runs_go (p := .readReady) (ps := []) (place' := .adcUntil q) hx rfl
    simp only [doPrims, List.foldl, doPrim, readReady_settled he'] at h
    have h2 := ih (s := { s0 with
        loc := { s0.loc with r := true }
        env := { s0.env with adc := List.replicate (k + 1) true ++ rest }
        hist := s0.hist ++ [.adcRead true]
        seq := .busy i [] (.adcUntil q) })
      (s0 := { s0 with
        loc := { s0.loc with r := true }
        env := { s0.env with adc := List.replicate (k + 1) true ++ rest }
        hist := s0.hist ++ [.adcRead true]
        seq := .busy i [] (.adcUntil q) })
      (by rw [exec_place (place := .adcUntil q) rfl, hq]; simp [adcUntil, adcReady]) rfl
    have h3 := runs_trans h h2
    rw [show ([] : List Prim).length + 1 + (k + 1) = k + 1 + 1 by simp; omega] at h3
    simpa [List.replicate_succ] using h3

/-! ### A whole sample -/

/-- Steps of `ReadRawSample()` (R145). -/
def sampleSteps (p : Params) (c : Conversion) : Nat := c.waits + 1 + 120 + 4 * p.adcExtraPulses.val

/-- `ReadRawSample()` run whole: the register holds the word of the conversion and the pseudocode goes on with `done`. -/
theorem runs_sample {i : Instr} {q : Reading} {done : State → Advance} (hq : ReadsSample i q done) {c : Conversion}
    (hc : c.bits.length = 24) {rest : List Bool} {s s0 : State} (hx : exec i s = (adcReadSample q s0).run i) (he : s0.env.adc = c.levels ++ rest) :
    ∃ e e' : State, Runs i (sampleSteps s0.params c) s e ∧ exec i e = (done e').run i ∧ AfterSample i e e' ∧
      e' = { s0 with
        adcShift := c.word
        adcCnt := 24
        adcSck := false
        loc := e'.loc
        env := { s0.env with adc := rest }
        hist := s0.hist ++ traceSample s0.params c
        seq := e'.seq } := by
  obtain ⟨waits, bits⟩ := c
  cases bits with
  | nil => simp at hc
  | cons b bits =>
  simp only [List.length_cons] at hc
  have h1 := runs_adcWait hq (rest := (b :: bits) ++ rest) hx (by simpa [Conversion.levels] using he)
  have h2 := runs_adcPulse (i := i) (q := q) (b := b) (rest := bits ++ rest) (place := .adcUntil q) (s := { s0 with
      loc := { s0.loc with r := false }
      env := { s0.env with adc := (b :: bits) ++ rest }
      hist := s0.hist ++ (List.replicate waits (.adcRead true) ++ [.adcRead false])
      seq := .busy i [] (.adcUntil q) })
    (s0 := { s0 with
      loc := { s0.loc with r := false }
      env := { s0.env with adc := (b :: bits) ++ rest }
      hist := s0.hist ++ (List.replicate waits (.adcRead true) ++ [.adcRead false])
      seq := .busy i [] (.adcUntil q)
      adcShift := 0
      adcCnt := 0 }) rfl (by rw [hq.poll]; simp [adcUntil, adcReady]) rfl
  obtain ⟨e, h3, hw, hee⟩ := runs_adcPulses hq (bits := bits) (rest := rest) (s := { s0 with
      loc := { s0.loc with r := false, bit := b }
      env := { s0.env with adc := bits ++ rest }
      hist := s0.hist ++ (List.replicate waits (.adcRead true) ++ [.adcRead false]) ++ traceBit s0.params b
      seq := .busy i [] (.adcPulse q)
      adcShift := 0
      adcCnt := 0
      adcSck := false }) rfl rfl (by simp; omega) rfl
  have h := runs_trans (runs_trans h1 h2) h3
  have hseq : e.seq = .busy i [] (.adcPulse q) := by rw [hee]
  have hparams : e.params = s0.params := by rw [hee]
  have hcnt : e.takeBit.adcCnt = 24 := by rw [takeBit_adcCnt, hee]; rfl
  have hword : shiftIn e.adcShift e.loc.bit = Conversion.word { waits := waits, bits := b :: bits } := by
    rw [hw]; rfl
  have hbody : exec i e = (adcAfterPulse q done e).run i := by rw [exec_place hseq, hq.pulse]
  have htake : e.takeBit = { s0 with
        adcShift := Conversion.word { waits := waits, bits := b :: bits }
        adcCnt := 24
        adcSck := false
        loc := e.loc
        env := { s0.env with adc := rest }
        hist := s0.hist ++ (List.replicate waits (.adcRead true) ++ [.adcRead false] ++ (b :: bits).flatMap (traceBit s0.params))
        seq := .busy i [] (.adcPulse q) } := by
    rw [State.takeBit, hword, hee]
    simp
  cases hx : s0.params.adcExtraPulses.val with
  | zero =>
    refine ⟨e, e.takeBit, ?_, ?_, afterSample_takeBit hseq, ?_⟩
    · rw [show sampleSteps s0.params { waits := waits, bits := b :: bits } = waits + 1 + 5 + 5 * bits.length by
        simp only [sampleSteps, hx]; omega]
      exact h
    · rw [hbody, adcAfterPulse, if_neg (by rw [hcnt]; decide), hparams, hx]
    · rw [htake]; simp [traceSample, hx]
  | succ n =>
    have hgo : resumeOf i (.adcPulse q) e = .go e.takeBit (.pinWrite .adcSck true) (adcExtraRest ++ adcExtraPulses n) (.adcExtra q) := by
      rw [hq.pulse, adcAfterPulse, if_neg (by rw [hcnt]; decide), hparams, hx]
    have hnr : NoRet (.pinWrite .adcSck true :: (adcExtraRest ++ adcExtraPulses n)) := by
      have := noRet_adcExtraPulses (n + 1); simpa only [adcExtraPulses] using this
    have h4 := runs_place hseq hgo hnr
    have hx' := doPrims_extra i (n + 1) e.takeBit (by rw [htake])
    rw [adcExtraPulses] at hx'
    rw [hx'] at h4
    refine ⟨{ e.takeBit with
      hist := e.takeBit.hist ++ (List.replicate (n + 1) traceExtra).flatten
      seq := .busy i [] (.adcExtra q) }, { e.takeBit with
      hist := e.takeBit.hist ++ (List.replicate (n + 1) traceExtra).flatten
      seq := .busy i [] (.adcExtra q) }, ?_, ?_, afterSample_refl rfl, ?_⟩
    · rw [show sampleSteps s0.params { waits := waits, bits := b :: bits } =
        waits + 1 + 5 + 5 * bits.length + ((adcExtraRest ++ adcExtraPulses n).length + 1) by
        simp only [sampleSteps, hx, List.length_append, adcExtraPulses_length, adcExtraRest, List.length_cons, List.length_nil]
        omega]
      exact runs_trans h h4
    · rw [exec_place (place := .adcExtra q) rfl, hq.extra]
    · rw [htake]; simp [traceSample, hx]

/-! ### A whole average -/

/-- Steps of `ReadAverage` on conversions `cs` (R149). -/
def averageSteps (p : Params) (cs : List Conversion) : Nat := (cs.map (sampleSteps p)).sum

theorem shiftAfter_cons (w : Sample) (c : Conversion) (cs : List Conversion) : shiftAfter w (c :: cs) = shiftAfter c.word cs := by
  simp only [shiftAfter, List.map_cons, List.getLastD_cons]

/-- `ReadAverage(n)` run whole, from a state that has taken `n - cs.length` samples: the pseudocode goes on with `fin` of the mean. -/
theorem runs_average {i : Instr} {q : Reading} {n : Params → Nat} {fin : FLOAT → State → Advance}
    (hq : ReadsSample i q fun s => averageAfterSample (n s.params) q fin s) {cs : List Conversion} (hcs : ∀ c ∈ cs, c.bits.length = 24)
    (hne : cs ≠ []) {rest : List Bool} {s s0 : State} (hn : n s0.params < 256)
    (hx : exec i s = (adcReadSample q s0).run i) (hi : s0.avgI.toNat + cs.length = n s0.params) (he : s0.env.adc = levelsOf cs ++ rest) :
    ∃ e e' : State, Runs i (averageSteps s0.params cs) s e ∧
      exec i e = (fin (fdiv (cs.foldl (fun a c => fadd a (u2f c.raw.toNat)) s0.avgSum) (u2f (n s0.params))) e').run i ∧ AfterSample i e e' ∧
      e' = { s0 with
        adcShift := shiftAfter s0.adcShift cs
        adcCnt := 24
        adcSck := false
        avgSum := cs.foldl (fun a c => fadd a (u2f c.raw.toNat)) s0.avgSum
        avgI := BitVec.ofNat 8 (n s0.params)
        loc := e'.loc
        env := { s0.env with adc := rest }
        hist := s0.hist ++ cs.flatMap (traceSample s0.params)
        seq := e'.seq } := by
  induction cs generalizing s s0 with
  | nil => exact absurd rfl hne
  | cons c cs ih =>
    obtain ⟨e, e', h1, h2, hh, h3⟩ := runs_sample hq (hcs c (List.mem_cons_self ..)) (rest := levelsOf cs ++ rest) hx
      (by rw [he]; simp [levelsOf])
    simp only [List.length_cons] at hi
    have hone : (1 : BitVec 8).toNat = 1 := rfl
    have hI : e'.takeSample.avgI.toNat = s0.avgI.toNat + 1 := by
      have : e'.avgI = s0.avgI := by rw [h3]
      rw [takeSample_avgI, this, BitVec.toNat_add]; omega
    have hpe : e'.params = s0.params := by rw [h3]
    have h2 : exec i e = (averageAfterSample (n s0.params) q fin e').run i := by rw [h2, hpe]
    have htake : e'.takeSample = { s0 with
        adcShift := c.word
        adcCnt := 24
        adcSck := false
        avgSum := fadd s0.avgSum (u2f c.raw.toNat)
        avgI := s0.avgI + 1
        loc := e'.loc
        env := { s0.env with adc := levelsOf cs ++ rest }
        hist := s0.hist ++ traceSample s0.params c
        seq := e'.seq } := by rw [State.takeSample, h3]; rfl
    cases cs with
    | nil =>
      have hnlt : ¬ e'.takeSample.avgI.toNat < n s0.params := by simp only [List.length_nil] at hi; omega
      refine ⟨e, e'.takeSample, ?_, ?_, hh.takeSample, ?_⟩
      · simpa [averageSteps] using h1
      · rw [h2, averageAfterSample, if_neg hnlt, htake]; rfl
      · have : BitVec.ofNat 8 (n s0.params) = s0.avgI + 1 := by
          apply BitVec.eq_of_toNat_eq
          rw [BitVec.toNat_add, BitVec.toNat_ofNat]
          simp only [List.length_nil] at hi; omega
        rw [htake, this]; simp [levelsOf, shiftAfter]
    | cons c' cs =>
      have hlt : e'.takeSample.avgI.toNat < n s0.params := by simp only [List.length_cons] at hi; omega
      have hp : e'.takeSample.params = s0.params := by rw [htake]
      obtain ⟨f, f', h4, h5, hh', h6⟩ := ih (s := e) (s0 := e'.takeSample) (fun d hd => hcs d (List.mem_cons_of_mem _ hd)) (by simp)
        (by rw [hp]; exact hn) (by rw [h2, averageAfterSample, if_pos hlt])
        (by rw [hI, hp]; simp only [List.length_cons] at hi ⊢; omega) (by rw [htake])
      have hsum : e'.takeSample.avgSum = fadd s0.avgSum (u2f c.raw.toNat) := by rw [htake]
      rw [hp] at h4 h5 h6
      refine ⟨f, f', ?_, ?_, hh', ?_⟩
      · have h := runs_trans h1 h4
        simpa [averageSteps] using h
      · rw [h5, hsum]; rfl
      · rw [h6, htake]; simp [shiftAfter_cons]

/-- The first samples of `ReadAverage(n)`, fewer than `n`: the pseudocode goes on with the next sample (R149). -/
theorem runs_samples {i : Instr} {q : Reading} {n : Params → Nat} {fin : FLOAT → State → Advance}
    (hq : ReadsSample i q fun s => averageAfterSample (n s.params) q fin s) {cs : List Conversion} (hcs : ∀ c ∈ cs, c.bits.length = 24)
    {rest : List Bool} {s s0 : State} (hn : n s0.params < 256) (hx : exec i s = (adcReadSample q s0).run i)
    (hi : s0.avgI.toNat + cs.length < n s0.params) (he : s0.env.adc = levelsOf cs ++ rest) :
    ∃ k, ∃ e e' : State, Runs i k s e ∧ exec i e = (adcReadSample q e').run i ∧ e'.adcSck = (cs.isEmpty && s0.adcSck) ∧
      e' = { s0 with
        adcShift := e'.adcShift
        adcCnt := e'.adcCnt
        adcSck := e'.adcSck
        avgSum := e'.avgSum
        avgI := e'.avgI
        loc := e'.loc
        env := { s0.env with adc := rest }
        hist := s0.hist ++ cs.flatMap (traceSample s0.params)
        seq := e'.seq } := by
  induction cs generalizing s s0 with
  | nil =>
    refine ⟨0, s, s0, runs_zero i s, hx, rfl, ?_⟩
    have : ({ s0.env with adc := rest } : EnvQueue) = s0.env := by rw [← show s0.env.adc = rest by simpa [levelsOf] using he]
    simp only [this, List.flatMap_nil, List.append_nil]
  | cons c cs ih =>
    obtain ⟨e, e', h1, h2, -, h3⟩ := runs_sample hq (hcs c (List.mem_cons_self ..)) (rest := levelsOf cs ++ rest) hx
      (by rw [he]; simp [levelsOf])
    simp only [List.length_cons] at hi
    have hp : e'.params = s0.params := by rw [h3]
    have hI : e'.takeSample.avgI.toNat = s0.avgI.toNat + 1 := by
      have : e'.avgI = s0.avgI := by rw [h3]
      rw [takeSample_avgI, this, BitVec.toNat_add, show (1 : BitVec 8).toNat = 1 from rfl]; omega
    obtain ⟨k, f, f', h4, h5, h6, h7⟩ := ih (s := e) (s0 := e'.takeSample) (fun d hd => hcs d (List.mem_cons_of_mem _ hd))
      (show n e'.params < 256 by rw [hp]; exact hn)
      (by rw [h2, averageAfterSample, if_pos (show e'.takeSample.avgI.toNat < n e'.params by rw [hp]; omega)])
      (show e'.takeSample.avgI.toNat + cs.length < n e'.params by rw [hp]; omega) (show e'.env.adc = _ by rw [h3])
    refine ⟨_, f, f', runs_trans h1 h4, h5, ?_, ?_⟩
    · rw [h6, show e'.takeSample.adcSck = false from (show e'.adcSck = false by rw [h3])]; simp
    · rw [h7]
      simp only [State.takeSample]
      rw [h3]
      simp

/-- `ReadAverage(n)` from its beginning, for a count that is not 0: the pseudocode goes on with `fin` of the mean (R149). -/
theorem runs_meanOf {i : Instr} {q : Reading} {n : Params → Nat} {fin : FLOAT → State → Advance} {cs : List Conversion}
    (hq : ReadsSample i q fun s => averageAfterSample (n s.params) q fin s) (hcs : ∀ c ∈ cs, c.bits.length = 24) (hne : cs ≠ [])
    (hn : cs.length < 256) {rest : List Bool} {s s0 : State} (hlen : cs.length = n s0.params)
    (hx : exec i s = (averageStart cs.length q s0).run i) (he : s0.env.adc = levelsOf cs ++ rest) :
    ∃ k, ∃ e e' : State, Runs i k s e ∧ exec i e = (fin (meanOf cs) e').run i ∧ AfterSample i e e' ∧
      e' = { s0 with
        adcShift := shiftAfter s0.adcShift cs
        adcCnt := 24
        adcSck := false
        avgSum := sumOf cs
        avgI := BitVec.ofNat 8 cs.length
        loc := e'.loc
        env := { s0.env with adc := rest }
        hist := s0.hist ++ cs.flatMap (traceSample s0.params)
        seq := e'.seq } := by
  have hz : countIsZero cs.length = false := by simp [countIsZero, hne]
  obtain ⟨e, e', h1, h2, hh, h3⟩ := runs_average hq hcs hne (s0 := { s0 with avgSum := u2f 0, avgI := 0 })
    (by rw [← hlen]; exact hn) (by rw [hx, averageStart, if_neg (by simp [hz])])
    (show (0 : BitVec 8).toNat + cs.length = n s0.params by rw [← hlen]; exact Nat.zero_add _) he
  rw [← hlen] at h2 h3
  exact ⟨_, e, e', h1, h2, hh, h3⟩

end Sys2Proof.Machine
end

