-- ==== Sys2Proof/Laws/Encoding.lean ====
section
/-! SUPPORT. Encoding: the command word of each operation in the layout of its format (R71 to R74). -/

namespace Sys2Proof.Machine

/-- A byte in a 32-bit field. -/
theorem zeros_append_byte (b : Byte) : ((0#24 : BitVec 24) ++ b : Imm) = b.setWidth 32 := by
  ext k hk
  simp only [BitVec.getElem_append, BitVec.getElem_setWidth, BitVec.getElem_zero]
  split
  · rw [BitVec.getElem_eq_testBit_toNat, BitVec.getLsbD]
  · rw [BitVec.getLsbD_of_ge b k (by omega)]

/-- An address in a 32-bit field. -/
theorem zeros_append_addr (a : StrAddr) : ((0#16 : BitVec 16) ++ a : Imm) = a.setWidth 32 := by
  ext k hk
  simp only [BitVec.getElem_append, BitVec.getElem_setWidth, BitVec.getElem_zero]
  split
  · rw [BitVec.getElem_eq_testBit_toNat, BitVec.getLsbD]
  · rw [BitVec.getLsbD_of_ge a k (by omega)]

theorem encode_lcdInit : encode .lcdInit = wordN 0x10 := rfl
theorem encode_lcdWri (code : Byte) : encode (.lcdWri code) = wordB 0x11 code := by rw [wordB, zeros_append_byte]; rfl
theorem encode_lcdWrc (byte : Byte) : encode (.lcdWrc byte) = wordB 0x12 byte := by rw [wordB, zeros_append_byte]; rfl
theorem encode_lcdWrs (addr : StrAddr) : encode (.lcdWrs addr) = wordA 0x13 addr := by rw [wordA, zeros_append_addr]; rfl
theorem encode_twiStart : encode .twiStart = wordN 0x20 := rfl
theorem encode_twiStop : encode .twiStop = wordN 0x21 := rfl
theorem encode_twiWrb (b : Byte) : encode (.twiWrb b) = wordB 0x22 b := by rw [wordB, zeros_append_byte]; rfl
theorem encode_twiRda : encode .twiRda = wordN 0x23 := rfl
theorem encode_twiRdn : encode .twiRdn = wordN 0x24 := rfl
theorem encode_adcRaw : encode .adcRaw = wordN 0x30 := rfl
theorem encode_adcAvg (n : Nat) : encode (.adcAvg n) = wordC 0x31 n := by rw [wordC, zeros_append_byte]; rfl
theorem encode_wghMass (n : Nat) : encode (.wghMass n) = wordC 0x40 n := by rw [wordC, zeros_append_byte]; rfl
theorem encode_wghTare (n : Nat) : encode (.wghTare n) = wordC 0x41 n := by rw [wordC, zeros_append_byte]; rfl
theorem encode_wghCal (ref : FLOAT) : encode (.wghCal ref) = wordF 0x42 ref := rfl
theorem encode_dspRun (target : FLOAT) : encode (.dspRun target) = wordF 0x50 target := rfl

/-- `op ++ imm` taken apart again (R71). -/
theorem opField_append (op : Byte) (imm : Imm) : opField (op ++ imm) = op := by
  unfold opField; exact BitVec.extractLsb'_append_eq_left

theorem immField_append (op : Byte) (imm : Imm) : immField (op ++ imm) = imm := by
  unfold immField; exact BitVec.extractLsb'_append_eq_right

theorem opField_append_immField (w : CmdWord) : opField w ++ immField w = w := by
  ext k hk
  simp only [opField, immField, BitVec.getElem_append, BitVec.getElem_extractLsb']
  split
  · rw [Nat.zero_add, BitVec.getLsbD_eq_getElem]
  · rw [show 32 + (k - 32) = k by omega, BitVec.getLsbD_eq_getElem]

end Sys2Proof.Machine
end

