-- ==== Sys2Proof/Laws/Lcd.lean ====
section
/-! SUPPORT. Lcd: a display transfer with its handshake, run whole, for every answer of the busy flag (R96, R97). -/

namespace Sys2Proof.Machine

theorem lcdPollRest_length (p : Params) : (lcdPollRest p).length + 1 = pollSteps p := by
  unfold lcdPollRest pollSteps; cases p.bfReadPulses <;> rfl

theorem noRet_lcdPollRest (p : Params) : NoRet (lcdPollRest p) := by
  unfold lcdPollRest; cases p.bfReadPulses <;> rfl

theorem noRet_transfer (rs : Bool) (v : Byte) (p : Params) :
    NoRet (.pinWrite .lcdRs rs :: (lcdWriteByteRest v ++ lcdWaitReady p)) := by
  have h := noRet_lcdPollRest p
  simp only [NoRet] at h
  simp only [NoRet, lcdWriteByteRest, lcdWaitReady, lcdPutNibble, lcdPulseE, List.all_cons, List.all_append, h]
  rfl

/-- One poll iteration that reads `nib`. -/
theorem doPrims_poll (i : Instr) {s : State} {nib : Nibble} {rest : List Nibble} (h : s.env.lcd = nib :: rest) :
    doPrims i (.delay .tSettle :: lcdPollRest s.params) s =
      { s with
        lcdE := false
        loc := { s.loc with bf := busyFlag s.params nib }
        env := { s.env with lcd := rest }
        hist := s.hist ++ tracePoll s.params nib } := by
  cases hp : s.params.bfReadPulses <;>
    simp [doPrims, lcdPollRest, hp, lcdPulseE, doPrim, State.emit, State.pinWrite, State.readBusy, State.drawLcd, h,
      tracePoll, tracePulseE]

/-- The piece from `lcd_rs` to the first `until`, whose status read is `nib`. -/
theorem doPrims_transfer (i : Instr) (rs : Bool) (v : Byte) {s : State} {nib : Nibble} {rest : List Nibble}
    (h : s.env.lcd = nib :: rest) :
    doPrims i (.pinWrite .lcdRs rs :: (lcdWriteByteRest v ++ lcdWaitReady s.params)) s =
      { s with
        lcdRs := false
        lcdRw := true
        lcdE := false
        lcdDOut := lowNibble v
        lcdDDir := .input
        loc := { s.loc with bf := busyFlag s.params nib }
        env := { s.env with lcd := rest }
        hist := s.hist ++ (traceByte rs v ++ [.dir .lcdD .input, .write .lcdRs false, .write .lcdRw true] ++
          tracePoll s.params nib) } := by
  cases hp : s.params.bfReadPulses <;>
    simp [doPrims, lcdWriteByteRest, lcdWaitReady, lcdPutNibble, lcdPollRest, hp, lcdPulseE, doPrim, State.emit,
      State.pinWrite, State.readBusy, State.drawLcd, h, traceByte, traceNibble, tracePoll, tracePulseE, lowNibble, highNibble]

/-- The busy flag reads 0: the bus is restored (R97). -/
theorem runs_untilReady {i : Instr} {u : LcdUse} {s : State} (hs : s.seq = .busy i [] (.lcdUntil u))
    (hu : resumeOf i (.lcdUntil u) s = lcdUntil u s) (hb : s.loc.bf = false) :
    Runs i 2 s { s with
      lcdRw := false
      lcdDDir := .output
      hist := s.hist ++ [.write .lcdRw false, .dir .lcdD .output]
      seq := .busy i [] (.lcdDone u) } := by
  have h := runs_place (p := .pinWrite .lcdRw false) (ps := [.pinDir .output]) (place' := .lcdDone u) (s' := s) hs
    (by rw [hu]; simp [lcdUntil, hb]) rfl
  simpa [doPrims, doPrim, State.pinWrite, State.emit] using h

/-- The busy flag reads 1: one more iteration (R97, R105). -/
theorem runs_untilBusy {i : Instr} {u : LcdUse} {s : State} {nib : Nibble} {rest : List Nibble}
    (hs : s.seq = .busy i [] (.lcdUntil u)) (hu : resumeOf i (.lcdUntil u) s = lcdUntil u s) (hb : s.loc.bf = true)
    (he : s.env.lcd = nib :: rest) :
    Runs i (pollSteps s.params) s { s with
      lcdE := false
      loc := { s.loc with bf := busyFlag s.params nib }
      env := { s.env with lcd := rest }
      hist := s.hist ++ tracePoll s.params nib } := by
  have h := runs_place (p := .delay .tSettle) (ps := lcdPollRest s.params) (place' := .lcdUntil u) (s' := s) hs
    (by rw [hu]; simp [lcdUntil, hb])
    (by have := noRet_lcdPollRest s.params; simp only [NoRet, List.all_cons] at this ⊢; rw [this]; rfl)
  rw [lcdPollRest_length, doPrims_poll i he] at h
  rw [← hs] at h
  exact h

/-- The rest of a handshake whose last read was busy: `busy` more busy reads, then a ready one. -/
theorem runs_untilDone {i : Instr} {u : LcdUse} {busy : List Nibble} {ready : Nibble} {rest : List Nibble} {s : State}
    (hs : s.seq = .busy i [] (.lcdUntil u)) (hu : ∀ s, resumeOf i (.lcdUntil u) s = lcdUntil u s) (hb : s.loc.bf = true)
    (he : s.env.lcd = busy ++ ready :: rest) (hbusy : ∀ b ∈ busy, busyFlag s.params b = true)
    (hready : busyFlag s.params ready = false) :
    Runs i (pollSteps s.params * (busy.length + 1) + 2) s { s with
      lcdE := false
      lcdRw := false
      lcdDDir := .output
      loc := { s.loc with bf := false }
      env := { s.env with lcd := rest }
      hist := s.hist ++ ((busy ++ [ready]).flatMap (tracePoll s.params) ++ [.write .lcdRw false, .dir .lcdD .output])
      seq := .busy i [] (.lcdDone u) } := by
  induction busy generalizing s with
  | nil =>
    have h1 := runs_untilBusy hs (hu s) hb (by simpa using he)
    have h2 := runs_untilReady (i := i) (u := u) (s := { s with
      lcdE := false
      loc := { s.loc with bf := busyFlag s.params ready }
      env := { s.env with lcd := rest }
      hist := s.hist ++ tracePoll s.params ready }) hs (hu _) hready
    have h := runs_trans h1 h2
    simp only [hready, List.append_assoc] at h
    simpa using h
  | cons b busy ih =>
    have h1 := runs_untilBusy hs (hu s) hb (by simpa using he)
    have hbb := hbusy b (List.mem_cons_self ..)
    have h2 := ih (s := { s with
      lcdE := false
      loc := { s.loc with bf := busyFlag s.params b }
      env := { s.env with lcd := busy ++ ready :: rest }
      hist := s.hist ++ tracePoll s.params b }) hs hbb rfl
      (fun c hc => hbusy c (List.mem_cons_of_mem _ hc)) hready
    have h := runs_trans h1 h2
    simp only [List.append_assoc] at h
    rw [show pollSteps s.params * ((b :: busy).length + 1) + 2 =
      pollSteps s.params + (pollSteps s.params * (busy.length + 1) + 2) by simp only [List.length_cons]; ring]
    simpa using h

/-- Steps of a transfer whose handshake reads the busy flag `k` times. -/
def transferSteps (p : Params) (k : Nat) : Nat := 19 + pollSteps p * k

/-- `LcdWriteByte(rs, v); LcdWaitReady()` run whole: `busy` status reads answer busy and the next answers ready. -/
theorem runs_transfer {i : Instr} {u : LcdUse} {rs : Bool} {v : Byte} {busy : List Nibble} {ready : Nibble}
    {rest : List Nibble} {s s0 : State}
    (hx : exec i s = (lcdTransfer rs v u s0).run i)
    (hu : ∀ s, resumeOf i (.lcdUntil u) s = lcdUntil u s)
    (he : s0.env.lcd = busy ++ ready :: rest) (hbusy : ∀ b ∈ busy, busyFlag s0.params b = true)
    (hready : busyFlag s0.params ready = false) :
    Runs i (transferSteps s0.params (busy.length + 1)) s { s0 with
      lcdByte := v
      lcdRs := false
      lcdRw := false
      lcdE := false
      lcdDOut := lowNibble v
      lcdDDir := .output
      loc := { s0.loc with bf := false }
      env := { s0.env with lcd := rest }
      hist := s0.hist ++ traceTransfer s0.params rs v (busy ++ [ready])
      seq := .busy i [] (.lcdDone u) } := by
  have hlen : (lcdWriteByteRest v ++ lcdWaitReady s0.params).length + 1 = 17 + pollSteps s0.params := by
    rw [← lcdPollRest_length]
    simp [lcdWriteByteRest, lcdWaitReady, lcdPutNibble, lcdPulseE]; omega
  have h0 := runs_go (place' := .lcdUntil u) (show exec i s = (Advance.go { s0 with lcdByte := v } (.pinWrite .lcdRs rs)
    (lcdWriteByteRest v ++ lcdWaitReady s0.params) (.lcdUntil u)).run i from hx) (noRet_transfer rs v s0.params)
  rw [hlen] at h0
  cases busy with
  | nil =>
    rw [doPrims_transfer i rs v (s := { s0 with lcdByte := v }) he] at h0
    have h1 := runs_untilReady (i := i) (u := u) (s := { s0 with
      lcdByte := v
      lcdRs := false
      lcdRw := true
      lcdE := false
      lcdDOut := lowNibble v
      lcdDDir := .input
      loc := { s0.loc with bf := busyFlag s0.params ready }
      env := { s0.env with lcd := rest }
      hist := s0.hist ++ (traceByte rs v ++ [.dir .lcdD .input, .write .lcdRs false, .write .lcdRw true] ++
          tracePoll s0.params ready)
      seq := .busy i [] (.lcdUntil u) }) rfl (hu _) hready
    have h := runs_trans h0 h1
    rw [show transferSteps s0.params (([] : List Nibble).length + 1) = 17 + pollSteps s0.params + 2 by
      simp [transferSteps]; omega]
    simpa [hready, traceTransfer, traceWait] using h
  | cons b busy =>
    rw [doPrims_transfer i rs v (s := { s0 with lcdByte := v }) he] at h0
    have hbb := hbusy b (List.mem_cons_self ..)
    have h1 := runs_untilDone (i := i) (u := u) (busy := busy) (ready := ready) (rest := rest) (s := { s0 with
      lcdByte := v
      lcdRs := false
      lcdRw := true
      lcdE := false
      lcdDOut := lowNibble v
      lcdDDir := .input
      loc := { s0.loc with bf := busyFlag s0.params b }
      env := { s0.env with lcd := busy ++ ready :: rest }
      hist := s0.hist ++ (traceByte rs v ++ [.dir .lcdD .input, .write .lcdRs false, .write .lcdRw true] ++
          tracePoll s0.params b)
      seq := .busy i [] (.lcdUntil u) }) rfl hu hbb rfl
      (fun c hc => hbusy c (List.mem_cons_of_mem _ hc)) hready
    have h := runs_trans h0 h1
    rw [show transferSteps s0.params ((b :: busy).length + 1) =
      17 + pollSteps s0.params + (pollSteps s0.params * (busy.length + 1) + 2) by
      simp only [transferSteps, List.length_cons]; ring]
    simpa [traceTransfer, traceWait] using h

/-- The display stays busy: after the status reads `nibs`, all busy, the operation still polls, with the bus an input (R105, R204). -/
theorem runs_transferBusy {i : Instr} {u : LcdUse} {rs : Bool} {v : Byte} {nibs rest : List Nibble} {s s0 : State}
    (hx : exec i s = (lcdTransfer rs v u s0).run i) (hu : ∀ s, resumeOf i (.lcdUntil u) s = lcdUntil u s) (hne : nibs ≠ [])
    (he : s0.env.lcd = nibs ++ rest) (hbusy : ∀ b ∈ nibs, busyFlag s0.params b = true) :
    ∃ k, Runs i k s { s0 with
      lcdByte := v
      lcdRs := false
      lcdRw := true
      lcdE := false
      lcdDOut := lowNibble v
      lcdDDir := .input
      loc := { s0.loc with bf := true }
      env := { s0.env with lcd := rest }
      hist := s0.hist ++ (traceByte rs v ++ [.dir .lcdD .input, .write .lcdRs false, .write .lcdRw true] ++
        nibs.flatMap (tracePoll s0.params))
      seq := .busy i [] (.lcdUntil u) } := by
  have h0 := runs_go (place' := .lcdUntil u) (show exec i s = (Advance.go { s0 with lcdByte := v } (.pinWrite .lcdRs rs)
    (lcdWriteByteRest v ++ lcdWaitReady s0.params) (.lcdUntil u)).run i from hx) (noRet_transfer rs v s0.params)
  obtain ⟨b, nibs, rfl⟩ := List.exists_cons_of_ne_nil hne
  rw [doPrims_transfer i rs v (s := { s0 with lcdByte := v }) (nib := b) (rest := nibs ++ rest) he] at h0
  have more : ∀ (nibs : List Nibble) (t : State), t.seq = .busy i [] (.lcdUntil u) → t.loc.bf = true → t.lcdE = false →
      t.env.lcd = nibs ++ rest → (∀ b ∈ nibs, busyFlag t.params b = true) →
      ∃ k, Runs i k t { t with env := { t.env with lcd := rest }, hist := t.hist ++ nibs.flatMap (tracePoll t.params) } := by
    intro nibs
    induction nibs with
    | nil =>
      intro t _ _ _ he _
      refine ⟨0, ?_⟩
      have : ({ t.env with lcd := rest } : EnvQueue) = t.env := by rw [← show t.env.lcd = rest by simpa using he]
      simp only [this, List.flatMap_nil, List.append_nil]; exact runs_zero i t
    | cons b nibs ih =>
      intro t hs hb hE he hbusy
      have h1 := runs_untilBusy hs (hu t) hb (by simpa using he)
      have hbb := hbusy b (List.mem_cons_self ..)
      obtain ⟨k, h2⟩ := ih { t with
        lcdE := false
        loc := { t.loc with bf := busyFlag t.params b }
        env := { t.env with lcd := nibs ++ rest }
        hist := t.hist ++ tracePoll t.params b } hs hbb rfl rfl (fun c hc => hbusy c (List.mem_cons_of_mem _ hc))
      refine ⟨pollSteps t.params + k, ?_⟩
      have h := runs_trans h1 h2
      have hloc : ({ t.loc with bf := true } : Locals) = t.loc := by rw [← hb]
      simp only [hbb, hloc] at h
      rw [← hE] at h
      simpa using h
  have hbb := hbusy b (List.mem_cons_self ..)
  obtain ⟨k, h1⟩ := more nibs _ (show ({ s0 with
      lcdByte := v
      lcdRs := false
      lcdRw := true
      lcdE := false
      lcdDOut := lowNibble v
      lcdDDir := .input
      loc := { s0.loc with bf := busyFlag s0.params b }
      env := { s0.env with lcd := nibs ++ rest }
      hist := s0.hist ++ (traceByte rs v ++ [.dir .lcdD .input, .write .lcdRs false, .write .lcdRw true] ++
          tracePoll s0.params b)
      seq := .busy i [] (.lcdUntil u) } : State).seq = _ from rfl) hbb rfl rfl
    (fun c hc => hbusy c (List.mem_cons_of_mem _ hc))
  refine ⟨(lcdWriteByteRest v ++ lcdWaitReady s0.params).length + 1 + k, ?_⟩
  have h := runs_trans h0 h1
  simpa [hbb] using h

end Sys2Proof.Machine
end

