-- ==== Sys2Proof/Laws/Dsp.lean ====
section
/-! SUPPORT. Dsp: the stages of `DSP.RUN` (R182, R184): the elements of a message, the waiting message, the availability reading, the readings
of the loop. -/

namespace Sys2Proof.Machine

theorem lastByte_cons (v : Byte) (w : LcdWrite) (ws : List LcdWrite) : lastByte v (w :: ws) = lastByte w.byte ws := by
  simp only [lastByte, List.map_cons, List.getLastD_cons]

theorem lastLatch_cons (n : Nibble) (w : LcdWrite) (ws : List LcdWrite) : lastLatch n (w :: ws) = lastLatch (lowNibble w.byte) ws := by
  simp only [lastLatch, List.map_cons, List.getLastD_cons, lowNibble]

theorem lastRs_cons (rs : Bool) (w : LcdWrite) (ws : List LcdWrite) : lastRs rs (w :: ws) = lastRs false ws := by
  cases ws <;> simp [lastRs]

/-- The elements `elems` of a message from a state whose bus is at rest: the pseudocode goes on with the elements `more` after them. -/
theorem runs_elements {target : FLOAT} {m : Msg} {elems more : List MsgElem} {ws : List LcdWrite} {rest : List Nibble} {s s0 : State}
    (hx : exec (.dspRun target) s = (showMessage m (elems ++ more) (dspAfterMessage m) s0).run (.dspRun target))
    (hw : ShowsMessage s0.params elems ws) (he : s0.env.lcd = readsOf ws ++ rest)
    (hrw : s0.lcdRw = false) (hE : s0.lcdE = false) (hd : s0.lcdDDir = .output) :
    ∃ k, ∃ e e' : State, Runs (.dspRun target) k s e ∧
      exec (.dspRun target) e = (showMessage m more (dspAfterMessage m) e').run (.dspRun target) ∧
      ((e = s ∧ e' = s0) ∨ (e = e' ∧ ∃ place, e'.seq = .busy (.dspRun target) [] place)) ∧
      e' = { s0 with
        lcdByte := lastByte s0.lcdByte ws
        lcdDOut := lastLatch s0.lcdDOut ws
        lcdRs := lastRs s0.lcdRs ws
        loc := e'.loc
        env := { s0.env with lcd := rest }
        hist := s0.hist ++ traceMessage s0.params elems ws
        seq := e'.seq } := by
  induction elems generalizing s s0 ws with
  | nil =>
    have hws : ws = [] := by simpa using hw.1.symm
    subst hws
    refine ⟨0, s, s0, runs_zero _ _, hx, .inl ⟨rfl, rfl⟩, ?_⟩
    have : ({ s0.env with lcd := rest } : EnvQueue) = s0.env := by rw [← show s0.env.lcd = rest by simpa [readsOf] using he]
    simp [lastByte, lastLatch, lastRs, traceMessage, this]
  | cons el elems ih =>
    obtain ⟨hmap, hans⟩ := hw
    cases ws with
    | nil => simp at hmap
    | cons w ws =>
    simp only [List.map_cons, List.cons.injEq] at hmap
    obtain ⟨hb, hmap⟩ := hmap
    have hwa := hans w (List.mem_cons_self ..)
    have hx' : exec (.dspRun target) s = (lcdTransfer (elemRs el) w.byte (.message m (elems ++ more)) s0).run (.dspRun target) := by
      rw [hx, ← hb]; cases el <;> rfl
    have h1 := runs_transfer (busy := w.busy) (ready := w.ready) (rest := readsOf ws ++ rest) hx' (fun _ => rfl)
      (by rw [he]; simp [readsOf, LcdWrite.reads]) hwa.1 hwa.2
    let sent : State := { s0 with
      lcdByte := w.byte
      lcdRs := false
      lcdRw := false
      lcdE := false
      lcdDOut := lowNibble w.byte
      lcdDDir := .output
      loc := { s0.loc with bf := false }
      env := { s0.env with lcd := readsOf ws ++ rest }
      hist := s0.hist ++ traceTransfer s0.params (elemRs el) w.byte (w.busy ++ [w.ready])
      seq := .busy (.dspRun target) [] (.lcdDone (.message m (elems ++ more))) }
    obtain ⟨k, e, e', h2, h3, h4, h5⟩ := ih (s := sent) (s0 := sent) (ws := ws)
      (exec_place (i := .dspRun target) (place := .lcdDone (.message m (elems ++ more))) rfl)
      ⟨hmap, fun x hx => hans x (List.mem_cons_of_mem _ hx)⟩ rfl rfl rfl rfl
    refine ⟨_, e, e', runs_trans h1 h2, h3, .inr ?_, ?_⟩
    · rcases h4 with ⟨rfl, rfl⟩ | h4
      · exact ⟨rfl, _, rfl⟩
      · exact h4
    · rw [h5]
      simp [sent, lastByte_cons, lastLatch_cons, lastRs_cons, traceMessage, LcdWrite.reads, hb, hrw, hE, hd]

/-- `ShowMessage` run whole from a state whose bus is at rest: the pseudocode goes on with what follows the message. -/
theorem runs_message {target : FLOAT} {m : Msg} {elems : List MsgElem} {ws : List LcdWrite} {rest : List Nibble} {s s0 : State}
    (hx : exec (.dspRun target) s = (showMessage m elems (dspAfterMessage m) s0).run (.dspRun target))
    (hw : ShowsMessage s0.params elems ws) (he : s0.env.lcd = readsOf ws ++ rest)
    (hrw : s0.lcdRw = false) (hE : s0.lcdE = false) (hd : s0.lcdDDir = .output) :
    ∃ k, ∃ e e' : State, Runs (.dspRun target) k s e ∧
      exec (.dspRun target) e = (dspAfterMessage m e').run (.dspRun target) ∧
      ((e = s ∧ e' = s0) ∨ (e = e' ∧ ∃ place, e'.seq = .busy (.dspRun target) [] place)) ∧
      e' = { s0 with
        lcdByte := lastByte s0.lcdByte ws
        lcdDOut := lastLatch s0.lcdDOut ws
        lcdRs := lastRs s0.lcdRs ws
        loc := e'.loc
        env := { s0.env with lcd := rest }
        hist := s0.hist ++ traceMessage s0.params elems ws
        seq := e'.seq } :=
  runs_elements (more := []) (by rw [List.append_nil]; exact hx) hw he hrw hE hd

/-- The acceptance of `DSP.RUN` (R211). -/
theorem runs_dspAccept {s : State} {target : FLOAT} (hs : s.seq = .idle) (hi : s.lcdInited = true) :
    Runs (.dspRun target) 1 s (s.accept (.dspRun target)) :=
  runs_one (exec_idle hs (by simp [admitOf, admitDisplay, hi]))

/-- The first statement of an accepted `DSP.RUN` of a finite target: the waiting message begins (R184). -/
theorem exec_dspStart {s : State} {target : FLOAT} (ht : isFinite target = true) :
    exec (.dspRun target) (s.accept (.dspRun target)) =
      (showMessage .wait s.params.msgWait (dspAfterMessage .wait) { s.accept (.dspRun target) with dspTarget := target }).run
        (.dspRun target) := by
  rw [exec_place (i := .dspRun target) (place := .start) rfl]
  simp [resumeOf, resumeDspRun, badTarget, ht]

/-- `DSP.RUN` up to the end of its waiting message: the pseudocode goes on with the availability reading (R184). -/
theorem runs_dspWaiting {s : State} {target : FLOAT} {ws : List LcdWrite} {rest : List Nibble} (h : DspStarts s target)
    (hw : ShowsMessage s.params s.params.msgWait ws) (he : s.env.lcd = readsOf ws ++ rest) :
    ∃ k, ∃ e e' : State, Runs (.dspRun target) k s e ∧
      exec (.dspRun target) e = (massStart e'.params.nAvail .base e').run (.dspRun target) ∧
      e = { e' with dspTarget := e.dspTarget } ∧ (∃ place, e'.seq = .busy (.dspRun target) [] place) ∧
      e' = { s with
        cmdValid := false
        rspValid := false
        dspTarget := target
        lcdByte := lastByte s.lcdByte ws
        lcdDOut := lastLatch s.lcdDOut ws
        lcdRs := lastRs s.lcdRs ws
        loc := e'.loc
        env := { s.env with lcd := rest }
        hist := s.hist ++ .cmd (wordF 0x50 target) :: traceMessage s.params s.params.msgWait ws
        seq := e'.seq } := by
  obtain ⟨hE, hrw, hd, -⟩ := h.rest
  obtain ⟨k, e, e', h1, h2, h3, h4⟩ := runs_message (exec_dspStart h.target) hw he hrw hE hd
  refine ⟨_, e, e', runs_trans (runs_dspAccept h.idle h.inited) h1, h2, ?_, ?_, ?_⟩
  · rcases h3 with ⟨rfl, rfl⟩ | ⟨rfl, -⟩ <;> rfl
  · rcases h3 with ⟨rfl, rfl⟩ | ⟨rfl, hq⟩
    · exact ⟨.start, rfl⟩
    · exact hq
  · rw [h4]; simp [State.accept, State.emit, encode_dspRun]

theorem readsSample_base (target : FLOAT) :
    ReadsSample (.dspRun target) .base fun s => averageAfterSample s.params.nAvail .base (massFinish dspGate) s :=
  ⟨fun _ => rfl, fun _ => rfl, fun _ => rfl⟩

theorem readsSample_loop (target : FLOAT) :
    ReadsSample (.dspRun target) .loop fun s => averageAfterSample 1 .loop (massFinish dspTest) s :=
  ⟨fun _ => rfl, fun _ => rfl, fun _ => rfl⟩

/-- A count that is not 0 and a good calibration: `Mass` begins its average (R163). -/
theorem massStart_calibrated {s : State} {n : Nat} (q : Reading) (hn : n ≠ 0) (hc : Calibrated s) : massStart n q s = averageStart n q s := by
  obtain ⟨h1, h2, h3⟩ := hc
  simp [massStart, countIsZero, hn, badCalibration, h1, h2, h3]

/-- A bad calibration: `Mass` faults (R163). -/
theorem massStart_uncalibrated {s : State} {n : Nat} (q : Reading) (hn : n ≠ 0) (hc : ¬ Calibrated s) :
    massStart n q s = .fault .badCalibration := by
  have hb : badCalibration s.wghOffset s.wghScale = true := by
    by_contra h
    simp only [badCalibration, Bool.or_eq_true, Bool.not_eq_true', not_or, Bool.not_eq_true, Bool.not_eq_false] at h
    exact hc ⟨h.1.1, h.1.2, h.2⟩
  simp [massStart, countIsZero, hn, hb]

/-- The end of `Mass`: a finite quotient goes on, and one that is not faults (R163). -/
theorem massFinish_finite {done : FLOAT → State → Advance} {a m : FLOAT} {s : State} (hm : calibrated a s.wghOffset s.wghScale = m)
    (h : isFinite m = true) : massFinish done a s = done m s := by rw [massFinish, hm, if_pos h]

theorem massFinish_notFinite {done : FLOAT → State → Advance} {a m : FLOAT} {s : State} (hm : calibrated a s.wghOffset s.wghScale = m)
    (h : ¬ isFinite m = true) : massFinish done a s = .fault .notFinite := by rw [massFinish, hm, if_neg h]

/-- The range of `N_AVAIL` (R7). -/
theorem nAvail_range {p : Params} (h : p.wf = true) : p.nAvail ≠ 0 ∧ p.nAvail < 256 := by
  simp only [Params.wf, Bool.and_eq_true, decide_eq_true_eq] at h
  omega

/-- `DSP.RUN` up to the last sample of its availability reading: the pseudocode goes on with the check of its mass and the gate (R184). -/
theorem runs_dspOpening {s : State} {target : FLOAT} {ws : List LcdWrite} {cs : List Conversion} {restL : List Nibble} {restA : List Bool}
    (h : DspOpens s target ws cs restL restA) :
    ∃ k, ∃ e e' : State, Runs (.dspRun target) k s e ∧
      exec (.dspRun target) e = (massFinish dspGate (meanOf cs) e').run (.dspRun target) ∧ AfterSample (.dspRun target) e e' ∧
      e' = { s with
        cmdValid := false
        rspValid := false
        dspTarget := target
        lcdByte := lastByte s.lcdByte ws
        lcdDOut := lastLatch s.lcdDOut ws
        lcdRs := lastRs s.lcdRs ws
        adcShift := shiftAfter s.adcShift cs
        adcCnt := 24
        avgSum := sumOf cs
        avgI := BitVec.ofNat 8 cs.length
        loc := e'.loc
        env := { s.env with lcd := restL, adc := restA }
        hist := s.hist ++ traceOpening s.params target ws cs
        seq := e'.seq } := by
  obtain ⟨k, e, e', h1, h2, -, -, h4⟩ := runs_dspWaiting h.toDspStarts h.shows h.lcd
  obtain ⟨hn0, hn⟩ := nAvail_range h.params
  have hp : e'.params = s.params := by rw [h4]
  have hcal : Calibrated e' := by rw [h4]; exact h.calibrated
  obtain ⟨k', f, f', h5, h6, h7, h8⟩ := runs_meanOf (n := Params.nAvail) (readsSample_base target) (cs := cs) (rest := restA) h.whole
    (by rintro rfl; exact hn0 h.count.symm) (by rw [h.count]; exact hn) (s0 := e') (by rw [h.count, hp])
    (by rw [h2, massStart_calibrated _ (by rw [hp]; exact hn0) hcal, hp, h.count]) (by rw [h4]; exact h.adc)
  refine ⟨_, f, f', runs_trans h1 h5, h6, h7, ?_⟩
  rw [h8, h4]
  simp [traceOpening, show s.adcSck = false from h.rest.2.2.2.1]

/-- One reading of the loop up to its last bit: the pseudocode goes on with the check of its mass and the stopping test (R184, R185). -/
theorem runs_loopReading {s : State} {target : FLOAT} {c : Conversion} {rest : List Bool}
    (hs : s.seq = .busy (.dspRun target) [] .dspMass) (hc : Calibrated s) (hb : c.bits.length = 24) (he : s.env.adc = c.levels ++ rest) :
    ∃ k, ∃ e e' : State, Runs (.dspRun target) k s e ∧
      exec (.dspRun target) e = (massFinish dspTest (meanOf [c]) e').run (.dspRun target) ∧ AfterSample (.dspRun target) e e' ∧
      e' = { s with
        adcShift := c.word
        adcCnt := 24
        adcSck := false
        avgSum := sumOf [c]
        avgI := 1
        loc := e'.loc
        env := { s.env with adc := rest }
        hist := s.hist ++ traceSample s.params c
        seq := e'.seq } := by
  obtain ⟨k, e, e', h1, h2, h3, h4⟩ := runs_meanOf (n := fun _ => 1) (readsSample_loop target) (cs := [c]) (rest := rest)
    (by simpa using hb) (by simp) (by simp) rfl (s := s) (s0 := s)
    (by rw [exec_place hs]; exact congrArg (Advance.run _) (massStart_calibrated (n := 1) .loop (by simp) hc)) (by simpa [levelsOf] using he)
  refine ⟨k, e, e', h1, h2, h3, ?_⟩
  rw [h4]; simp [shiftAfter]

/-- The loop over the readings `ls`, none fallen by the target: it stands before its next reading, and a delay follows each (R185). -/
theorem runs_loop {s : State} {target : FLOAT} {ls : List Conversion} {rest : List Bool}
    (hs : s.seq = .busy (.dspRun target) [] .dspMass) (hc : Calibrated s) (hw : WholeSamples ls) (he : s.env.adc = levelsOf ls ++ rest)
    (hl : ∀ l ∈ ls, isFinite (massOf s [l]) = true ∧ fge (fsub s.dspBase (massOf s [l])) s.dspTarget = false) :
    ∃ k e, Runs (.dspRun target) k s e ∧ e.adcSck = (ls.isEmpty && s.adcSck) ∧
      e = { s with
        adcShift := e.adcShift
        adcCnt := e.adcCnt
        adcSck := e.adcSck
        avgSum := e.avgSum
        avgI := e.avgI
        dspCur := e.dspCur
        loc := e.loc
        env := { s.env with adc := rest }
        hist := s.hist ++ ls.flatMap fun l => traceSample s.params l ++ [.delay .tDispPoll] } := by
  induction ls generalizing s with
  | nil =>
    refine ⟨0, s, runs_zero _ s, rfl, ?_⟩
    have : ({ s.env with adc := rest } : EnvQueue) = s.env := by rw [← show s.env.adc = rest by simpa [levelsOf] using he]
    simp only [this, List.flatMap_nil, List.append_nil]
  | cons l ls ih =>
    obtain ⟨hf, hg⟩ := hl l (List.mem_cons_self ..)
    obtain ⟨k, e, e', h1, h2, -, h4⟩ := runs_loopReading (c := l) (rest := levelsOf ls ++ rest) hs hc (hw l (List.mem_cons_self ..))
      (by rw [he]; simp [levelsOf])
    have hm : calibrated (meanOf [l]) e'.wghOffset e'.wghScale = massOf s [l] := by rw [h4]; rfl
    have h5 : exec (.dspRun target) e =
        (Advance.go { e' with dspCur := massOf s [l] } (.delay .tDispPoll) [] .dspMass).run (.dspRun target) := by
      rw [h2, massFinish_finite hm hf, dspTest, targetReleased, show e'.dspBase = s.dspBase by rw [h4],
        show e'.dspTarget = s.dspTarget by rw [h4], hg, if_neg Bool.false_ne_true]
    have h6 := runs_go h5 rfl
    have h7 : doPrims (.dspRun target) [.delay .tDispPoll] { e' with dspCur := massOf s [l] } =
        { e' with dspCur := massOf s [l], hist := e'.hist ++ [.delay .tDispPoll] } := rfl
    rw [h7] at h6
    obtain ⟨k', f, h8, h9, h10⟩ := ih (s := { e' with
        dspCur := massOf s [l]
        hist := e'.hist ++ [.delay .tDispPoll]
        seq := .busy (.dspRun target) [] .dspMass }) rfl (by rw [h4]; exact hc) (fun c hc => hw c (List.mem_cons_of_mem _ hc))
      (show e'.env.adc = _ by rw [h4]) (by rw [h4]; exact fun x hx => hl x (List.mem_cons_of_mem _ hx))
    refine ⟨_, f, runs_trans (runs_trans h1 h6) h8, ?_, ?_⟩
    · rw [h9, show e'.adcSck = false by rw [h4]]; simp
    · rw [h10, h4]; simp [hs]

theorem traceLoop_delay (p : Params) (ls : List Conversion) :
    (.delay .tDispPoll :: ls.flatMap fun l => traceSample p l ++ [.delay .tDispPoll]) = traceLoop p ls ++ [.delay .tDispPoll] := by
  induction ls with
  | nil => rfl
  | cons l ls ih => simp only [List.flatMap_cons, traceLoop] at ih ⊢; simp [ih]

/-- `DSP.RUN` through its gate and over the loop readings `ls`, none fallen by the target: it stands before its next reading, with the
motor feeding (R184 to R186). -/
theorem runs_dspFeeding {s : State} {target : FLOAT} {ws : List LcdWrite} {cs ls : List Conversion} {restL : List Nibble} {restA : List Bool}
    (h : DspOpens s target ws cs restL (levelsOf ls ++ restA)) (hf : FiniteMass s cs) (hg : GatePasses s target cs)
    (hl : FeedsOver s target cs ls) (hw : WholeSamples ls) :
    ∃ k e, Runs (.dspRun target) k s e ∧ e.seq = .busy (.dspRun target) [] .dspMass ∧
      e = { s with
        cmdValid := false
        seq := e.seq
        rspValid := false
        dspTarget := target
        dspBase := massOf s cs
        dspCur := e.dspCur
        motorLevel := .feeding
        lcdByte := lastByte s.lcdByte ws
        lcdDOut := lastLatch s.lcdDOut ws
        lcdRs := lastRs s.lcdRs ws
        adcShift := e.adcShift
        adcCnt := e.adcCnt
        avgSum := e.avgSum
        avgI := e.avgI
        loc := e.loc
        env := { s.env with lcd := restL, adc := restA }
        hist := s.hist ++ (traceOpening s.params target ws cs ++ [.motor .feeding] ++ traceLoop s.params ls ++ [.delay .tDispPoll]) } := by
  obtain ⟨k, e, e', h1, h2, -, h4⟩ := runs_dspOpening h
  have hm : calibrated (meanOf cs) e'.wghOffset e'.wghScale = massOf s cs := by rw [h4]; rfl
  have h5 : exec (.dspRun target) e =
      (Advance.go { e' with dspBase := massOf s cs } (.motor .feeding) [.delay .tDispPoll] .dspMass).run (.dspRun target) := by
    rw [h2, massFinish_finite hm hf, dspGate, supplyInsufficient, show e'.params = s.params by rw [h4],
      show e'.dspTarget = target by rw [h4], hg.1, hg.2, if_neg (by simp)]
  have h6 := runs_go h5 rfl
  have h7 : doPrims (.dspRun target) [.motor .feeding, .delay .tDispPoll] { e' with dspBase := massOf s cs } =
      { e' with dspBase := massOf s cs, motorLevel := .feeding, hist := e'.hist ++ [.motor .feeding] ++ [.delay .tDispPoll] } := rfl
  rw [h7] at h6
  obtain ⟨k', f, h8, h9, h10⟩ := runs_loop (target := target) (ls := ls) (rest := restA) (s := { e' with
      dspBase := massOf s cs
      motorLevel := .feeding
      hist := e'.hist ++ [.motor .feeding] ++ [.delay .tDispPoll]
      seq := .busy (.dspRun target) [] .dspMass }) rfl (by rw [h4]; exact h.calibrated) hw (show e'.env.adc = _ by rw [h4])
    (by rw [h4]; exact hl)
  refine ⟨_, f, runs_trans (runs_trans h1 h6) h8, by rw [h10], ?_⟩
  have hsck : f.adcSck = s.adcSck := by
    rw [h9, show e'.adcSck = s.adcSck by rw [h4], show s.adcSck = false from h.rest.2.2.2.1, Bool.and_false]
  rw [h10]
  simp only [hsck]
  rw [h4]
  simp [← traceLoop_delay]

/-- `DSP.RUN` through the reading `c` of its loop that has fallen by the target: the motor is idle again and the last message begins
(R184, R185). -/
theorem runs_dspReleased {s : State} {target : FLOAT} {ws : List LcdWrite} {cs ls : List Conversion} {c : Conversion} {restL : List Nibble}
    {restA : List Bool} (h : DspOpens s target ws cs restL (levelsOf (ls ++ [c]) ++ restA)) (hf : FiniteMass s cs)
    (hg : GatePasses s target cs) (hl : FeedsOver s target cs ls) (hw : WholeSamples (ls ++ [c])) (hc : FiniteMass s [c])
    (hr : fge (fsub (massOf s cs) (massOf s [c])) target = true) :
    ∃ k e, Runs (.dspRun target) k s e ∧ e.seq = .busy (.dspRun target) [] (.lcdDone (.message .done s.params.msgDone)) ∧
      e = { s with
        cmdValid := false
        seq := e.seq
        rspValid := false
        dspTarget := target
        dspBase := massOf s cs
        dspCur := massOf s [c]
        lcdByte := lastByte s.lcdByte ws
        lcdDOut := lastLatch s.lcdDOut ws
        lcdRs := lastRs s.lcdRs ws
        adcShift := c.word
        adcCnt := 24
        avgSum := sumOf [c]
        avgI := 1
        loc := e.loc
        env := { s.env with lcd := restL, adc := restA }
        hist := s.hist ++ (traceOpening s.params target ws cs ++ [.motor .feeding] ++ traceLoop s.params (ls ++ [c]) ++ [.motor .idle]) } := by
  rw [show levelsOf (ls ++ [c]) ++ restA = levelsOf ls ++ (c.levels ++ restA) by simp [levelsOf]] at h
  obtain ⟨k, e, h1, h2, h3⟩ := runs_dspFeeding h hf hg hl fun x hx => hw x (by simp [hx])
  obtain ⟨k', f, f', h4, h5, -, h7⟩ := runs_loopReading (c := c) (rest := restA) h2 (by rw [h3]; exact h.calibrated) (hw c (by simp))
    (by rw [h3])
  have h8 : f' = { s with
        cmdValid := false
        seq := f'.seq
        rspValid := false
        dspTarget := target
        dspBase := massOf s cs
        dspCur := e.dspCur
        motorLevel := .feeding
        lcdByte := lastByte s.lcdByte ws
        lcdDOut := lastLatch s.lcdDOut ws
        lcdRs := lastRs s.lcdRs ws
        adcShift := c.word
        adcCnt := 24
        avgSum := sumOf [c]
        avgI := 1
        loc := f'.loc
        env := { s.env with lcd := restL, adc := restA }
        hist := s.hist ++ (traceOpening s.params target ws cs ++ [.motor .feeding] ++ traceLoop s.params (ls ++ [c])) } := by
    rw [h7, h3]
    simp [traceLoop, show s.adcSck = false from h.rest.2.2.2.1]
  have hm : calibrated (meanOf [c]) f'.wghOffset f'.wghScale = massOf s [c] := by rw [h8]; rfl
  have hstop : targetReleased f'.dspBase (massOf s [c]) f'.dspTarget = true := by rw [h8]; exact hr
  have h9 : exec (.dspRun target) f = (Advance.go { f' with dspCur := massOf s [c] } (.motor .idle) []
      (.lcdDone (.message .done s.params.msgDone))).run (.dspRun target) := by
    rw [h5, massFinish_finite hm hc, dspTest, if_pos hstop, show f'.params = s.params by rw [h8]]
  have h10 := runs_go h9 rfl
  have h11 : doPrims (.dspRun target) [.motor .idle] { f' with dspCur := massOf s [c] } =
      { f' with dspCur := massOf s [c], motorLevel := .idle, hist := f'.hist ++ [.motor .idle] } := rfl
  rw [h11] at h10
  refine ⟨_, _, runs_trans (runs_trans h1 h4) h10, rfl, ?_⟩
  rw [h8]
  simp [show s.motorLevel = .idle from h.rest.2.2.2.2.2]

end Sys2Proof.Machine
end

