-- ==== Sys2Proof/Laws/Silent.lean ====
section
/-! SUPPORT. Silent: what the silent statements before a primitive can change (R10): data registers, `lcd_inited` and `twi_owned`, and nothing
else. Every step of a running operation therefore appends one event. -/

namespace Sys2Proof.Machine

/-- `s'` is `s` after silent statements. -/
def Silent (s s' : State) : Prop :=
  s' = { s with
    lcdByte := s'.lcdByte
    strPtr := s'.strPtr
    adcShift := s'.adcShift
    adcCnt := s'.adcCnt
    avgSum := s'.avgSum
    avgI := s'.avgI
    wghOffset := s'.wghOffset
    wghScale := s'.wghScale
    dspTarget := s'.dspTarget
    dspBase := s'.dspBase
    dspCur := s'.dspCur
    lcdInited := s'.lcdInited
    twiOwned := s'.twiOwned }

theorem silent_refl (s : State) : Silent s s := rfl

theorem silent_trans {s t u : State} (h : Silent s t) (h' : Silent t u) : Silent s u := by
  unfold Silent at *
  rw [h']; rw [h]

/-- Whatever an advance runs next, only silent statements have been run before it. -/
structure Keeps (s : State) (a : Advance) : Prop where
  silent : ∀ {s' p rest place}, a = .go s' p rest place → Silent s s'

theorem keeps_go {s s' : State} {p : Prim} {rest : List Prim} {place : Place} (h : Silent s s') :
    Keeps s (.go s' p rest place) := by
  constructor; intro _ _ _ _ e; cases e; exact h

theorem keeps_fault (s : State) (f : Fault) : Keeps s (.fault f) := by
  constructor; intro _ _ _ _ e; cases e

theorem keeps_ite {s : State} {c : Prop} [Decidable c] {a b : Advance} (ha : Keeps s a) (hb : Keeps s b) :
    Keeps s (if c then a else b) := by split <;> assumption

theorem keeps_outside (s : State) : Keeps s outsideOperation := keeps_fault s _

theorem keeps_transfer (s t : State) (h : Silent s t) (rs : Bool) (v : Byte) (u : LcdUse) : Keeps s (lcdTransfer rs v u t) :=
  keeps_go (silent_trans h rfl)

theorem keeps_until (s : State) (u : LcdUse) : Keeps s (lcdUntil u s) := keeps_ite (keeps_go rfl) (keeps_go rfl)

theorem keeps_returning {s t : State} (h : Silent s t) (o : RspOutcome) (v : RetVal) : Keeps s (returning t o v) := keeps_go h

theorem keeps_twiUntil {s : State} {done : State → Advance} (h : Keeps s (done s)) : Keeps s (twiUntil done s) :=
  keeps_ite h (keeps_go rfl)

theorem keeps_message {s t : State} (h : Silent s t) (m : Msg) (elems : List MsgElem) {done : State → Advance}
    (hd : ∀ t, Silent s t → Keeps s (done t)) : Keeps s (showMessage m elems done t) := by
  match elems with
  | [] => exact hd t h
  | .instr _ :: _ => exact keeps_transfer s t h ..
  | .char _ :: _ => exact keeps_transfer s t h ..

theorem keeps_average {s t : State} (h : Silent s t) (n : Nat) (q : Reading) : Keeps s (averageStart n q t) :=
  keeps_ite (keeps_fault s _) (keeps_go (silent_trans h rfl))

theorem keeps_mass {s t : State} (h : Silent s t) (n : Nat) (q : Reading) : Keeps s (massStart n q t) :=
  keeps_ite (keeps_fault s _) (keeps_ite (keeps_fault s _) (keeps_average h n q))

theorem keeps_sample {s t : State} (h : Silent s t) (n : Nat) (q : Reading) {done : FLOAT → State → Advance}
    (hd : ∀ a t, Silent s t → Keeps s (done a t)) : Keeps s (averageAfterSample n q done t) :=
  keeps_ite (keeps_go (silent_trans h rfl)) (hd _ _ (silent_trans h rfl))

theorem keeps_massFinish {s t : State} (h : Silent s t) (a : FLOAT) {done : FLOAT → State → Advance}
    (hd : ∀ a t, Silent s t → Keeps s (done a t)) : Keeps s (massFinish done a t) :=
  keeps_ite (hd _ _ h) (keeps_fault s _)

theorem keeps_reading (s : State) {done : Reading → State → Advance} (hd : ∀ q t, Silent s t → Keeps s (done q t))
    (place : Place) : Keeps s (resumeSample done place s) := by
  cases place with
  | adcUntil q => exact keeps_ite (keeps_go rfl) (keeps_go rfl)
  | adcPulse q =>
    refine keeps_ite (keeps_go rfl) ?_
    split
    · exact hd q _ rfl
    · exact keeps_go rfl
  | adcExtra q => exact hd q _ rfl
  | _ => exact keeps_outside s

/-- Running the pseudocode of any operation from any place to its next primitive changes only what silent statements can change. -/
theorem resume_silent (i : Instr) (place : Place) (s : State) : Keeps s (resumeOf i place s) := by
  have message (m : Msg) (t : State) (h : Silent s t) : Keeps s (dspAfterMessage m t) := by
    cases m with
    | wait => exact keeps_mass h ..
    | insuff => exact keeps_go h
    | done => exact keeps_go h
  have reading (q : Reading) (t : State) (h : Silent s t) : Keeps s (dspAfterSample q t) := by
    cases q with
    | only => exact keeps_outside s
    | base =>
      refine keeps_sample h _ _ fun a t h => keeps_massFinish h a fun a t h => keeps_ite ?_ ?_
      · refine keeps_message ?_ _ _ fun t h => message .insuff t h; exact silent_trans h rfl
      · exact keeps_go (silent_trans h rfl)
    | loop =>
      refine keeps_sample h _ _ fun a t h => keeps_massFinish h a fun a t h => keeps_ite ?_ ?_
      · exact keeps_go (silent_trans h rfl)
      · exact keeps_go (silent_trans h rfl)
  cases i with
  | lcdInit =>
    cases place with
    | start => exact keeps_go rfl
    | lcdUntil u => exact keeps_until s u
    | lcdDone u =>
      cases u with
      | init steps =>
        cases steps with
        | nil => exact keeps_returning (t := { s with lcdInited := true }) rfl ..
        | cons st rest => cases st <;> exact keeps_go rfl
      | _ => exact keeps_outside s
    | _ => exact keeps_outside s
  | lcdWri code => cases place <;> first | exact keeps_transfer s s rfl .. | exact keeps_until s _ | exact keeps_go rfl | exact keeps_outside s
  | lcdWrc byte => cases place <;> first | exact keeps_transfer s s rfl .. | exact keeps_until s _ | exact keeps_go rfl | exact keeps_outside s
  | lcdWrs addr =>
    cases place <;> first
      | exact keeps_until s _ | exact keeps_go rfl | exact keeps_outside s
      | exact keeps_ite (keeps_go rfl) (keeps_transfer s s rfl ..)
  | twiStart =>
    cases place <;> dsimp only [resumeOf, resumeTwiStart] <;> first
      | exact keeps_go rfl | exact keeps_outside s | (refine keeps_twiUntil ?_; exact keeps_go rfl)
  | twiStop =>
    cases place <;> dsimp only [resumeOf, resumeTwiStop] <;> first
      | exact keeps_go rfl | exact keeps_outside s | (refine keeps_twiUntil ?_; exact keeps_go rfl)
  | twiWrb b =>
    cases place <;> dsimp only [resumeOf, resumeTwiWrb] <;> first
      | exact keeps_go rfl | exact keeps_outside s | (refine keeps_twiUntil ?_; exact keeps_go rfl)
  | twiRda =>
    cases place <;> dsimp only [resumeOf, resumeTwiRda] <;> first
      | exact keeps_go rfl | exact keeps_outside s | (refine keeps_twiUntil ?_; exact keeps_go rfl)
  | twiRdn =>
    cases place <;> dsimp only [resumeOf, resumeTwiRdn] <;> first
      | exact keeps_go rfl | exact keeps_outside s | (refine keeps_twiUntil ?_; exact keeps_go rfl)
  | adcRaw =>
    cases place with
    | start => exact keeps_go rfl
    | _ => dsimp only [resumeOf, resumeAdcRaw]; refine keeps_reading s ?_ _; intro _ _ h; exact keeps_go h
  | adcAvg n =>
    cases place with
    | start => exact keeps_average (silent_refl s) ..
    | _ => dsimp only [resumeOf, resumeAdcAvg]; refine keeps_reading s ?_ _; intro _ _ h; refine keeps_sample h _ _ ?_; intro _ _ h; exact keeps_go h
  | wghMass n =>
    cases place with
    | start => exact keeps_mass (silent_refl s) ..
    | _ =>
      dsimp only [resumeOf, resumeWghMass]; refine keeps_reading s ?_ _; intro _ _ h; refine keeps_sample h _ _ ?_; intro _ _ h
      refine keeps_massFinish h _ ?_; intro _ _ h; exact keeps_go h
  | wghTare n =>
    cases place with
    | start => exact keeps_average (silent_refl s) ..
    | _ =>
      dsimp only [resumeOf, resumeWghTare]; refine keeps_reading s ?_ _; intro _ _ h; refine keeps_sample h _ _ ?_; intro _ _ h
      exact keeps_go (silent_trans h rfl)
  | wghCal ref =>
    cases place with
    | start => exact keeps_ite (keeps_fault s _) (keeps_ite (keeps_fault s _) (keeps_average (silent_refl s) ..))
    | _ =>
      dsimp only [resumeOf, resumeWghCal]; refine keeps_reading s ?_ _; intro _ _ h; refine keeps_sample h _ _ ?_; intro _ _ h
      refine keeps_ite ?_ (keeps_fault s _); exact keeps_go (silent_trans h rfl)
  | dspRun target =>
    cases place with
    | start =>
      refine keeps_ite (keeps_fault s _) (keeps_message ?_ _ _ fun t h => message .wait t h)
      exact silent_trans (silent_refl s) rfl
    | lcdUntil u => exact keeps_until s u
    | lcdDone u =>
      cases u with
      | message m elems => exact keeps_message (silent_refl s) _ _ fun t h => message m t h
      | _ => exact keeps_outside s
    | dspMass => dsimp only [resumeOf, resumeDspRun]; exact keeps_mass (silent_refl s) ..
    | _ => dsimp only [resumeOf, resumeDspRun]; exact keeps_reading s reading _

/-! ### One event a step -/

/-- Every step of a running operation, its acceptance included, appends one event (R10, R23). -/
theorem runs_length {i : Instr} {k : Nat} {s t : State} (hs : s.seq = .idle ∨ ∃ todo place, s.seq = .busy i todo place)
    (h : Runs i k s t) : t.hist.length = s.hist.length + k := by
  induction k generalizing s with
  | zero => cases h; rfl
  | succ k ih =>
    simp only [Runs, runOp] at h
    split at h
    · rename_i u hu
      have prim (p : Prim) (s' : State) (rest : List Prim) (place : Place) {u : State}
          (hu : u = doPrim i p { s' with seq := .busy i rest place }) :
          u.hist.length = s'.hist.length + 1 ∧ (u.seq = .idle ∨ ∃ todo place, u.seq = .busy i todo place) := by
        subst hu
        constructor
        · obtain ⟨e, he⟩ := doPrim_hist i p { s' with seq := .busy i rest place }
          rw [he]; simp
        · cases hp : p.isRet with
          | false => rw [doPrim_seq hp]; exact .inr ⟨rest, place, rfl⟩
          | true => cases p <;> simp [Prim.isRet] at hp; exact .inl rfl
      rcases exec_cases hu with ⟨-, -, he⟩ | ⟨p, rest, place, -, he⟩ | ⟨place, s', p, rest, place', -, hr, he⟩ |
        ⟨j, todo, place, hj, hne, rfl⟩
      · rw [ih (.inr ⟨_, _, by rw [he]; rfl⟩) h, he, accept_hist]; simp; omega
      · obtain ⟨h1, h2⟩ := prim p s rest place he
        rw [ih h2 h, h1]; omega
      · obtain ⟨h1, h2⟩ := prim p s' rest place' he
        have h3 : s'.hist = s.hist := by rw [(resume_silent i place s).silent hr]
        rw [ih h2 h, h1, h3]; omega
      · rw [hj] at hs; simp [hne] at hs
    · cases h
    · cases h

/-- The number of steps of a run is the number of events it appends. -/
theorem runs_count {i : Instr} {k : Nat} {s t : State} {h : List Event}
    (hs : s.seq = .idle ∨ ∃ todo place, s.seq = .busy i todo place) (hr : Runs i k s t) (ht : t.hist = s.hist ++ h) :
    Runs i h.length s t := by
  have := runs_length hs hr
  rw [ht, List.length_append] at this
  rwa [show h.length = k by omega]

/-- A run that begins at acceptance and has not ended, with its number of steps read off its events. -/
theorem runsOn_of_runs {i : Instr} {k : Nat} {s t : State} {h : List Event} {level : MotorLevel} (hs : s.seq = .idle) (hr : Runs i k s t)
    (hist : t.hist = s.hist ++ h) (running : t.running = some i) (silent : t.rspValid = false) (motor : t.motorLevel = level)
    (offset : t.wghOffset = s.wghOffset) (scale : t.wghScale = s.wghScale) : RunsOn i s h level t :=
  ⟨runs_count (.inl hs) hr hist, hist, running, silent, motor, offset, scale⟩

end Sys2Proof.Machine
end

