-- ==== Sys2Proof/Laws/Lists.lean ====
section
/-! SUPPORT. Lists: the characters of `LCD.WRS` and the steps of `LCD.INIT`, run up to any point of their list (R100, R101). -/

namespace Sys2Proof.Machine

theorem addr_succ_add (a : StrAddr) (k : Nat) : a + 1#16 + BitVec.ofNat 16 k = a + BitVec.ofNat 16 (k + 1) := by
  apply BitVec.eq_of_toNat_eq
  simp only [BitVec.toNat_add, BitVec.toNat_ofNat]
  omega

theorem strByte_congr {s t : State} (h : t.strmem = s.strmem) : t.strByte = s.strByte := by
  funext a; rw [State.strByte, State.strByte, h]

/-- Whether a string stands in memory depends on the memory alone. -/
theorem holdsChars_congr {s t : State} {addr : StrAddr} {cs : List Byte} (hc : holdsChars s addr cs) (h : t.strmem = s.strmem) :
    holdsChars t addr cs := by
  induction cs generalizing addr with
  | nil => trivial
  | cons c cs ih => exact ⟨by rw [strByte_congr h]; exact hc.1, hc.2.1, ih hc.2.2⟩

theorem holdsChars_append (s : State) (addr : StrAddr) (cs : List Byte) (c : Byte) :
    holdsChars s addr (cs ++ [c]) ↔ holdsChars s addr cs ∧ s.strByte (addr + BitVec.ofNat 16 cs.length) = c ∧ c ≠ 0x00#8 := by
  induction cs generalizing addr with
  | nil => simp [holdsChars]
  | cons d cs ih => simp only [List.cons_append, holdsChars, ih, List.length_cons, addr_succ_add]; tauto

/-- The byte at the pointer is read, and the pseudocode stands at its test (R100). -/
theorem runs_memRead {a0 addr : StrAddr} {place : Place} {s : State} (hs : s.seq = .busy (.lcdWrs a0) [] place)
    (hr : resumeLcdWrs a0 place s = .go { s with strPtr := addr } .memRead [] .strRead) :
    Runs (.lcdWrs a0) 1 s { s with
      strPtr := addr
      loc := { s.loc with c := s.strByte addr }
      hist := s.hist ++ [.mem addr (s.strByte addr)]
      seq := .busy (.lcdWrs a0) [] .strRead } :=
  runs_place (i := .lcdWrs a0) hs hr rfl

/-- The characters `ws` of a string read and written from `addr` on: the pseudocode goes on with the byte after them, whatever it is. -/
theorem runs_chars {a0 addr : StrAddr} {ws : List LcdWrite} {rest : List Nibble} {place : Place} {s : State}
    (hs : s.seq = .busy (.lcdWrs a0) [] place)
    (hr : resumeLcdWrs a0 place s = .go { s with strPtr := addr } .memRead [] .strRead)
    (hc : holdsChars s addr (ws.map LcdWrite.byte)) (ha : ∀ w ∈ ws, w.answers s.params) (he : s.env.lcd = readsOf ws ++ rest) :
    ∃ k e place', Runs (.lcdWrs a0) k s e ∧ e.seq = .busy (.lcdWrs a0) [] place' ∧
      resumeLcdWrs a0 place' e = .go { e with strPtr := addr + BitVec.ofNat 16 ws.length } .memRead [] .strRead ∧
      e = { s with
        seq := e.seq
        strPtr := e.strPtr
        lcdByte := e.lcdByte
        lcdRs := e.lcdRs
        lcdRw := e.lcdRw
        lcdE := e.lcdE
        lcdDOut := e.lcdDOut
        lcdDDir := e.lcdDDir
        loc := e.loc
        env := { s.env with lcd := rest }
        hist := s.hist ++ traceChars s.params addr ws } := by
  induction ws generalizing s addr place with
  | nil =>
    refine ⟨0, s, place, runs_zero _ s, hs, by simpa using hr, ?_⟩
    have : ({ s.env with lcd := rest } : EnvQueue) = s.env := by rw [← show s.env.lcd = rest by simpa [readsOf] using he]
    simp only [this, traceChars, List.append_nil]
  | cons w ws ih =>
    obtain ⟨hb, hne, hc⟩ := hc
    have hwa := ha w (List.mem_cons_self ..)
    have h1 := runs_memRead hs hr
    let read : State := { s with
        strPtr := addr
        loc := { s.loc with c := s.strByte addr }
        hist := s.hist ++ [.mem addr (s.strByte addr)]
        seq := .busy (.lcdWrs a0) [] .strRead }
    have h2 := runs_transfer (i := .lcdWrs a0) (u := .string) (rs := true) (v := w.byte) (busy := w.busy) (ready := w.ready)
      (rest := readsOf ws ++ rest) (s := read) (s0 := read)
      (by rw [exec_place (i := .lcdWrs a0) (place := .strRead) rfl]; simp [resumeOf, resumeLcdWrs, read, hb, hne])
      (fun _ => rfl) (by rw [he]; simp [readsOf, LcdWrite.reads]) hwa.1 hwa.2
    obtain ⟨k, e, place', h3, h4, h5, h6⟩ := ih (addr := addr + 1#16) (place := .lcdDone .string) (s := { s with
        strPtr := addr
        lcdByte := w.byte
        lcdRs := false
        lcdRw := false
        lcdE := false
        lcdDOut := lowNibble w.byte
        lcdDDir := .output
        loc := { s.loc with c := s.strByte addr, bf := false }
        env := { s.env with lcd := readsOf ws ++ rest }
        hist := s.hist ++ [.mem addr (s.strByte addr)] ++ traceTransfer s.params true w.byte (w.busy ++ [w.ready])
        seq := .busy (.lcdWrs a0) [] (.lcdDone .string) }) rfl rfl (holdsChars_congr hc rfl)
      (fun x hx => ha x (List.mem_cons_of_mem _ hx)) rfl
    refine ⟨_, e, place', runs_trans (runs_trans h1 h2) h3, h4, ?_, ?_⟩
    · rw [h5, addr_succ_add]; rfl
    · rw [h6]; simp [traceChars, LcdWrite.reads, hb]

/-- The steps `before` of an initialisation list, whose `Instr` steps are the writes `ws`: `LCD.INIT` stands before the steps `after`. -/
theorem runs_initSteps {before after : List InitStep} {ws : List LcdWrite} {rest : List Nibble} {s : State}
    (hs : s.seq = .busy .lcdInit [] (.lcdDone (.init (before ++ after)))) (hw : ws.map LcdWrite.byte = initCodes before)
    (ha : ∀ w ∈ ws, w.answers s.params) (he : s.env.lcd = readsOf ws ++ rest) :
    ∃ k e, Runs .lcdInit k s e ∧ e.seq = .busy .lcdInit [] (.lcdDone (.init after)) ∧
      e = { s with
        seq := e.seq
        lcdByte := e.lcdByte
        lcdRs := e.lcdRs
        lcdRw := e.lcdRw
        lcdE := e.lcdE
        lcdDOut := e.lcdDOut
        lcdDDir := e.lcdDDir
        loc := e.loc
        env := { s.env with lcd := rest }
        hist := s.hist ++ traceInit s.params before ws } := by
  induction before generalizing s ws with
  | nil =>
    have hws : ws = [] := by simpa [initCodes] using hw
    subst hws
    refine ⟨0, s, runs_zero _ s, by simpa using hs, ?_⟩
    have : ({ s.env with lcd := rest } : EnvQueue) = s.env := by rw [← show s.env.lcd = rest by simpa [readsOf] using he]
    simp only [this, traceInit, List.append_nil]
  | cons st before ih =>
    cases st with
    | wait T =>
      have h1 := runs_place (i := .lcdInit) (p := .delay T) (ps := []) (s' := s) hs rfl rfl
      obtain ⟨k, e, h2, h3, h4⟩ := ih (ws := ws) (s := { s with
        hist := s.hist ++ [.delay T], seq := .busy .lcdInit [] (.lcdDone (.init (before ++ after))) }) rfl
        (by simpa [initCodes] using hw) ha he
      refine ⟨_, e, runs_trans h1 h2, h3, ?_⟩
      rw [h4]; simp [traceInit]
    | nibble x =>
      have h1 := runs_place (i := .lcdInit) (p := .busWrite x) (ps := lcdPulseE) (s' := s) hs rfl rfl
      obtain ⟨k, e, h2, h3, h4⟩ := ih (ws := ws) (s := { s with
        lcdDOut := x
        lcdE := false
        hist := s.hist ++ traceNibble x
        seq := .busy .lcdInit [] (.lcdDone (.init (before ++ after))) }) rfl (by simpa [initCodes] using hw) ha he
      refine ⟨_, e, runs_trans h1 (by simpa [doPrims, lcdPulseE, doPrim, State.pinWrite, State.emit, traceNibble, tracePulseE] using h2), h3, ?_⟩
      rw [h4]; simp [traceInit]
    | instr code =>
      cases ws with
      | nil => simp [initCodes] at hw
      | cons w ws =>
      obtain ⟨hb, hw⟩ : w.byte = code ∧ ws.map LcdWrite.byte = initCodes before := by simpa [initCodes] using hw
      have hwa := ha w (List.mem_cons_self ..)
      have h1 := runs_transfer (i := .lcdInit) (u := .init (before ++ after)) (rs := false) (v := code) (busy := w.busy)
        (ready := w.ready) (rest := readsOf ws ++ rest) (s0 := s) (by rw [exec_place hs]; rfl) (fun _ => rfl)
        (by rw [he]; simp [readsOf, LcdWrite.reads]) hwa.1 hwa.2
      obtain ⟨k, e, h2, h3, h4⟩ := ih (ws := ws) (s := { s with
        lcdByte := code
        lcdRs := false
        lcdRw := false
        lcdE := false
        lcdDOut := lowNibble code
        lcdDDir := .output
        loc := { s.loc with bf := false }
        env := { s.env with lcd := readsOf ws ++ rest }
        hist := s.hist ++ traceTransfer s.params false code (w.busy ++ [w.ready])
        seq := .busy .lcdInit [] (.lcdDone (.init (before ++ after))) }) rfl hw (fun x hx => ha x (List.mem_cons_of_mem _ hx)) rfl
      refine ⟨_, e, runs_trans h1 h2, h3, ?_⟩
      rw [h4]; simp [traceInit, LcdWrite.reads]

end Sys2Proof.Machine
end

