-- ==== Sys2Proof/Laws/Memory.lean ====
section
/-! SUPPORT. Memory: string memory reads back what was written, and every write keeps its canonical form (R51). -/

namespace Sys2Proof.Machine

theorem memory_wfFrom_mono {m : Memory} {lo lo' : Nat} (h : lo' ≤ lo) (hm : Memory.wfFrom lo m = true) :
    Memory.wfFrom lo' m = true := by
  cases m with
  | nil => rfl
  | cons c rest =>
    obtain ⟨a, v⟩ := c
    simp only [Memory.wfFrom, Bool.and_eq_true, decide_eq_true_eq] at hm ⊢
    obtain ⟨⟨⟨h1, h2⟩, h3⟩, h4⟩ := hm
    exact ⟨⟨⟨by omega, h2⟩, h3⟩, h4⟩

/-- Below its first cell a canonical memory lists nothing. -/
theorem memory_read_below {m : Memory} {lo a : Nat} (h : a < lo) (hm : Memory.wfFrom lo m = true) :
    Memory.read m a = strmemUnwritten := by
  induction m generalizing lo with
  | nil => rfl
  | cons c rest ih =>
    obtain ⟨b, v⟩ := c
    simp only [Memory.wfFrom, Bool.and_eq_true, decide_eq_true_eq] at hm
    obtain ⟨⟨⟨h1, h2⟩, h3⟩, h4⟩ := hm
    simp only [Memory.read]
    rw [if_neg (by omega)]
    exact ih (by omega) h4

/-- A write keeps the canonical form from any bound it respects. -/
theorem memory_write_wfFrom {m : Memory} {lo a : Nat} {v : Byte} (ha : lo ≤ a) (ha' : a < 65536)
    (hm : Memory.wfFrom lo m = true) : Memory.wfFrom lo (Memory.write m a v) = true := by
  induction m generalizing lo with
  | nil =>
    simp only [Memory.write]
    split
    · rfl
    · simp_all [Memory.wfFrom]
  | cons c rest ih =>
    obtain ⟨b, w⟩ := c
    have hm' := hm
    simp only [Memory.wfFrom, Bool.and_eq_true, decide_eq_true_eq] at hm'
    obtain ⟨⟨⟨h1, h2⟩, h3⟩, h4⟩ := hm'
    simp only [Memory.write]
    split
    · split
      · exact hm
      · simp_all [Memory.wfFrom]
    · split
      · split
        · exact memory_wfFrom_mono (by omega) h4
        · simp_all [Memory.wfFrom]
      · simp only [Memory.wfFrom, Bool.and_eq_true, decide_eq_true_eq]
        exact ⟨⟨⟨h1, h2⟩, h3⟩, ih (by omega) h4⟩

/-- Every write keeps the canonical form. -/
theorem memory_write_wf {m : Memory} {a : Nat} {v : Byte} (ha : a < 65536) (hm : Memory.wf m = true) :
    Memory.wf (Memory.write m a v) = true := memory_write_wfFrom (Nat.zero_le _) ha hm

/-- The written byte reads as written, every other byte as before. -/
theorem memory_read_write {m : Memory} {lo a b : Nat} {v : Byte} (hm : Memory.wfFrom lo m = true) :
    Memory.read (Memory.write m a v) b = if b = a then v else Memory.read m b := by
  induction m generalizing lo with
  | nil =>
    simp only [Memory.write]
    split
    · rename_i hv
      by_cases hb : b = a
      · rw [if_pos hb, hv]; rfl
      · rw [if_neg hb]
    · by_cases hb : b = a
      · rw [if_pos hb, Memory.read, if_pos hb.symm]
      · simp only [Memory.read]; rw [if_neg hb, if_neg (Ne.symm hb)]
  | cons c rest ih =>
    obtain ⟨d, w⟩ := c
    simp only [Memory.wfFrom, Bool.and_eq_true, decide_eq_true_eq] at hm
    obtain ⟨⟨⟨h1, h2⟩, h3⟩, h4⟩ := hm
    simp only [Memory.write]
    split
    · rename_i hlt
      split
      · rename_i hv
        by_cases hb : b = a
        · subst hb
          simp only [Memory.read, if_true]
          rw [if_neg (by omega), memory_read_below (by omega) h4, hv]
        · rw [if_neg hb]
      · simp only [Memory.read]
        by_cases hb : b = a
        · subst hb; simp
        · simp [hb, Ne.symm hb]
    · split
      · rename_i hnlt heq
        subst heq
        split
        · rename_i hv
          by_cases hb : b = a
          · subst hb
            rw [memory_read_below (by omega) h4, if_pos rfl, hv]
          · simp [Memory.read, hb, Ne.symm hb]
        · simp only [Memory.read]
          by_cases hb : b = a
          · subst hb; simp
          · simp [hb, Ne.symm hb]
      · simp only [Memory.read]
        by_cases hd : d = b
        · subst hd
          simp; omega
        · simp [hd, ih h4]

end Sys2Proof.Machine
end

