-- ==== Sys2Proof/Laws/PerInstr.lean ====
section
/-! SUPPORT. PerInstr: the family `TableRow`, one lemma per operation: its command word is a word of its own row of the opcode table. -/

namespace Sys2Proof.Laws.TableRow

/-- The row of the opcode table an operation stands for: the mask of the bits the row fixes, and their values (R71, R72, R74). -/
def row : Instr → CmdWord × CmdWord
  | .lcdInit => (0xFFFFFFFFFF#40, 0x1000000000#40)
  | .lcdWri _ => (0xFFFFFFFF00#40, 0x1100000000#40)
  | .lcdWrc _ => (0xFFFFFFFF00#40, 0x1200000000#40)
  | .lcdWrs _ => (0xFFFFFF0000#40, 0x1300000000#40)
  | .twiStart => (0xFFFFFFFFFF#40, 0x2000000000#40)
  | .twiStop => (0xFFFFFFFFFF#40, 0x2100000000#40)
  | .twiWrb _ => (0xFFFFFFFF00#40, 0x2200000000#40)
  | .twiRda => (0xFFFFFFFFFF#40, 0x2300000000#40)
  | .twiRdn => (0xFFFFFFFFFF#40, 0x2400000000#40)
  | .adcRaw => (0xFFFFFFFFFF#40, 0x3000000000#40)
  | .adcAvg _ => (0xFFFFFFFF00#40, 0x3100000000#40)
  | .wghMass _ => (0xFFFFFFFF00#40, 0x4000000000#40)
  | .wghTare _ => (0xFFFFFFFF00#40, 0x4100000000#40)
  | .wghCal _ => (0xFF00000000#40, 0x4200000000#40)
  | .dspRun _ => (0xFF00000000#40, 0x5000000000#40)

/-- A well-formed operation's command word agrees with its row on every bit the row fixes. -/
def Statement (i : Instr) : Prop := i.wf = true → encode i &&& (row i).1 = (row i).2

/-- The masked word of an operation whose op code is `op` and whose operand field respects the mask `m`. -/
theorem masked {op : Byte} {imm m : Imm} {mask value : CmdWord} (h : imm &&& m = 0#32) (hm : mask = 0xFF#8 ++ m)
    (hv : value = op ++ (0#32 : Imm)) : (op ++ imm : CmdWord) &&& mask = value := by
  have ho : op &&& 0xFF#8 = op := by rw [show (0xFF#8 : Byte) = BitVec.allOnes 8 from rfl, BitVec.and_allOnes]
  rw [hm, hv, BitVec.and_append, h, ho]

/-- A byte leaves the bits above it 0. -/
theorem byte_masked (b : Byte) : (b.setWidth 32 : Imm) &&& 0xFFFFFF00#32 = 0#32 := by
  rw [← Machine.zeros_append_byte, show (0xFFFFFF00#32 : Imm) = BitVec.allOnes 24 ++ (0#8 : Byte) from by decide, BitVec.and_append]
  simp

/-- An address leaves the bits above it 0. -/
theorem addr_masked (a : StrAddr) : (a.setWidth 32 : Imm) &&& 0xFFFF0000#32 = 0#32 := by
  rw [← Machine.zeros_append_addr, show (0xFFFF0000#32 : Imm) = BitVec.allOnes 16 ++ (0#16 : StrAddr) from by decide, BitVec.and_append]
  simp

theorem lcdInit : Statement (.lcdInit) := fun _ => masked (m := 0xFFFFFFFF#32) (by decide) (by decide) (by decide)
theorem lcdWri (code : Byte) : Statement (.lcdWri code) := fun _ => masked (byte_masked _) (by simp only [row]; decide) (by simp only [row, opcode]; decide)
theorem lcdWrc (byte : Byte) : Statement (.lcdWrc byte) := fun _ => masked (byte_masked _) (by simp only [row]; decide) (by simp only [row, opcode]; decide)
theorem lcdWrs (addr : StrAddr) : Statement (.lcdWrs addr) := fun _ => masked (addr_masked _) (by simp only [row]; decide) (by simp only [row, opcode]; decide)
theorem twiStart : Statement (.twiStart) := fun _ => masked (m := 0xFFFFFFFF#32) (by decide) (by decide) (by decide)
theorem twiStop : Statement (.twiStop) := fun _ => masked (m := 0xFFFFFFFF#32) (by decide) (by decide) (by decide)
theorem twiWrb (b : Byte) : Statement (.twiWrb b) := fun _ => masked (byte_masked _) (by simp only [row]; decide) (by simp only [row, opcode]; decide)
theorem twiRda : Statement (.twiRda) := fun _ => masked (m := 0xFFFFFFFF#32) (by decide) (by decide) (by decide)
theorem twiRdn : Statement (.twiRdn) := fun _ => masked (m := 0xFFFFFFFF#32) (by decide) (by decide) (by decide)
theorem adcRaw : Statement (.adcRaw) := fun _ => masked (m := 0xFFFFFFFF#32) (by decide) (by decide) (by decide)
theorem adcAvg (n : Nat) : Statement (.adcAvg n) := fun _ => masked (byte_masked _) (by simp only [row]; decide) (by simp only [row, opcode]; decide)
theorem wghMass (n : Nat) : Statement (.wghMass n) := fun _ => masked (byte_masked _) (by simp only [row]; decide) (by simp only [row, opcode]; decide)
theorem wghTare (n : Nat) : Statement (.wghTare n) := fun _ => masked (byte_masked _) (by simp only [row]; decide) (by simp only [row, opcode]; decide)
theorem wghCal (ref : FLOAT) : Statement (.wghCal ref) := fun _ => masked (m := 0#32) BitVec.and_zero (by simp only [row]; decide) (by simp only [row, opcode]; decide)
theorem dspRun (target : FLOAT) : Statement (.dspRun target) := fun _ => masked (m := 0#32) BitVec.and_zero (by simp only [row]; decide) (by simp only [row, opcode]; decide)

end Sys2Proof.Laws.TableRow
end

