-- ==== Sys2Proof/Laws/Position.lean ====
section
/-! SUPPORT. Position: what comes next when the pseudocode of an operation goes on from a place, as far as the sequencer and the lines go: a
`return` with the lines at rest, or a primitive and a piece that lead to a place the operation has (R10, R21, R236). -/

namespace Sys2Proof.Machine

/-- The first primitive of a piece fits the operation and the place the piece leads to. -/
def firstFits (op : Instr) (p : Prim) (rest : List Prim) (place : Place) : Bool :=
  match p with
  | .twiReq kind _ => usesTwi op && kind == actionOf op && rest == [.twiPoll] && place == .twiUntil
  | .twiPoll => usesTwi op && rest == [] && place == .twiUntil
  | .memRead => useFits op .string && place != .twiUntil
  | .motor _ => isDispense op && place != .twiUntil
  | .readReady => usesAdc op && place != .twiUntil
  | q => primFits op q && place != .twiUntil

/-- From the lines `l`, a first primitive and the piece after it lead to `place`. -/
structure LeadsTo (op : Instr) (l : Lines) (p : Prim) (rest : List Prim) (place : Place) : Prop where
  first : firstFits op p rest place = true
  fits : placeFits op place = true
  todo : todoFits op rest place = true
  lines : rest.foldl Lines.after (l.after p) = linesAt place
  free : contentionFree (l.after p) rest = true

/-- If the advance goes on: it returns, with the lines at rest, or it leads to a place. -/
structure Fits (op : Instr) (l : Lines) (a : Advance) : Prop where
  goes : ∀ {s p rest place}, a = .go s p rest place →
    ((∃ o v, p = .ret o v) ∧ l = restLines) ∨ LeadsTo op l p rest place

theorem fits_go {op : Instr} {l : Lines} {s : State} {p : Prim} {rest : List Prim} {place : Place}
    (h : LeadsTo op l p rest place) : Fits op l (.go s p rest place) := by
  constructor; intro _ _ _ _ e; cases e; exact .inr h

theorem fits_fault (op : Instr) (l : Lines) (f : Fault) : Fits op l (.fault f) := by
  constructor; intro _ _ _ _ e; cases e

theorem fits_ite {op : Instr} {l : Lines} {c : Prop} [Decidable c] {a b : Advance} (ha : Fits op l a) (hb : Fits op l b) :
    Fits op l (if c then a else b) := by split <;> assumption

theorem fits_returning (op : Instr) (s : State) (o : RspOutcome) (v : RetVal) : Fits op restLines (returning s o v) := by
  constructor; intro _ _ _ _ e; cases e; exact .inl ⟨⟨_, _, rfl⟩, rfl⟩

/-! ### The display -/

theorem useFits_usesDisplay {op : Instr} {u : LcdUse} (h : useFits op u = true) : usesDisplay op = true := by
  cases u <;> cases op <;> simp_all [useFits, usesDisplay, isDispense]

theorem fits_transfer {op : Instr} {u : LcdUse} (h : useFits op u = true) (rs : Bool) (v : Byte) (s : State) :
    Fits op restLines (lcdTransfer rs v u s) := by
  have hd := useFits_usesDisplay h
  refine fits_go ⟨?_, ?_, ?_, ?_, ?_⟩
  · simp [firstFits, primFits, hd]
  · exact h
  · cases hp : s.params.bfReadPulses <;>
      simp [todoFits, lcdWriteByteRest, lcdWaitReady, lcdPutNibble, lcdPollRest, hp, lcdPulseE, primFits, hd]
  · cases hp : s.params.bfReadPulses <;>
      simp [lcdWriteByteRest, lcdWaitReady, lcdPutNibble, lcdPollRest, hp, lcdPulseE, Lines.after, linesAt, restLines]
  · cases hp : s.params.bfReadPulses <;>
      simp [lcdWriteByteRest, lcdWaitReady, lcdPutNibble, lcdPollRest, hp, lcdPulseE, Lines.after, restLines, contentionFree]

theorem fits_until {op : Instr} {u : LcdUse} (h : useFits op u = true) (s : State) :
    Fits op (linesAt (.lcdUntil u)) (lcdUntil u s) := by
  have hd := useFits_usesDisplay h
  refine fits_ite (fits_go ⟨?_, ?_, ?_, ?_, ?_⟩) (fits_go ⟨?_, ?_, ?_, ?_, ?_⟩)
  · simp [firstFits, primFits]
  · exact h
  · cases hp : s.params.bfReadPulses <;> simp [todoFits, lcdPollRest, hp, lcdPulseE, primFits, hd]
  · cases hp : s.params.bfReadPulses <;> simp [lcdPollRest, hp, lcdPulseE, Lines.after, linesAt, restLines]
  · cases hp : s.params.bfReadPulses <;> simp [lcdPollRest, hp, lcdPulseE, Lines.after, linesAt, restLines, contentionFree]
  · simp [firstFits, primFits, hd]
  · exact h
  · simp [todoFits, primFits, hd]
  · simp [Lines.after, linesAt, restLines]
  · simp [Lines.after, linesAt, restLines, contentionFree]

/-! ### The two-wire engine -/

theorem fits_twiAction {op : Instr} (h : usesTwi op = true) (b : Option Byte) (s : State) :
    Fits op restLines (twiAction (actionOf op) b s) :=
  fits_go ⟨by simp [firstFits, h], h, rfl, rfl, rfl⟩

theorem fits_twiUntil {op : Instr} (h : usesTwi op = true) {done : State → Advance} {s : State} (hd : Fits op restLines (done s)) :
    Fits op restLines (twiUntil done s) :=
  fits_ite hd (fits_go ⟨by simp [firstFits, h], h, rfl, rfl, rfl⟩)

/-! ### The ADC -/

theorem readingFits_usesAdc {op : Instr} {q : Reading} (h : readingFits op q = true) : usesAdc op = true := by
  simp only [readingFits, Bool.and_eq_true] at h; exact h.1

/-- The lines a reading finds and leaves: the motor feeds in the loop of `DSP.RUN` and nowhere else. -/
theorem linesAt_reading (q : Reading) :
    linesAt (.adcUntil q) = linesAt (.adcPulse q) ∧ linesAt (.adcUntil q) = linesAt (.adcExtra q) := by
  cases q <;> exact ⟨rfl, rfl⟩

theorem fits_readSample {op : Instr} {q : Reading} (h : readingFits op q = true) (s : State) :
    Fits op (linesAt (.adcUntil q)) (adcReadSample q s) :=
  fits_go ⟨by simp [firstFits, readingFits_usesAdc h], h, rfl, rfl, by cases q <;> rfl⟩

theorem fits_pulse {op : Instr} {q : Reading} (h : readingFits op q = true) (s : State) :
    Fits op (linesAt (.adcUntil q)) (adcPulseBit q s) := by
  have hd := readingFits_usesAdc h
  refine fits_go ⟨by simp [firstFits, primFits, hd], h, ?_, ?_, ?_⟩
  · cases hp : s.params.adcSamplePhase <;> simp [todoFits, adcPulseRest, hp, primFits, hd]
  · cases hp : s.params.adcSamplePhase <;> cases q <;> simp [adcPulseRest, hp, Lines.after, linesAt, restLines]
  · cases hp : s.params.adcSamplePhase <;> cases q <;> simp [adcPulseRest, hp, Lines.after, linesAt, restLines, contentionFree]

theorem fits_adcUntil {op : Instr} {q : Reading} (h : readingFits op q = true) (s : State) :
    Fits op (linesAt (.adcUntil q)) (adcUntil q s) :=
  fits_ite (fits_pulse h _) (fits_readSample h _)

theorem extra_facts (op : Instr) (q : Reading) (h : usesAdc op = true) (n : Nat) :
    (adcExtraPulses n).all (primFits op) = true ∧
      (adcExtraPulses n).foldl Lines.after (linesAt (.adcExtra q)) = linesAt (.adcExtra q) ∧
      contentionFree (linesAt (.adcExtra q)) (adcExtraPulses n) = true := by
  induction n with
  | zero => exact ⟨rfl, rfl, by cases q <;> rfl⟩
  | succ n ih =>
    obtain ⟨h1, h2, h3⟩ := ih
    refine ⟨?_, ?_, ?_⟩
    · simp [adcExtraPulses, adcExtraRest, primFits, h, h1]
    · cases q <;> simpa [adcExtraPulses, adcExtraRest, Lines.after, linesAt, restLines] using h2
    · cases q <;> simpa [adcExtraPulses, adcExtraRest, Lines.after, linesAt, restLines, contentionFree] using h3

theorem fits_afterPulse {op : Instr} {q : Reading} (h : readingFits op q = true) {done : State → Advance} {s : State}
    (hd : Fits op (linesAt (.adcUntil q)) (done s.takeBit)) : Fits op (linesAt (.adcUntil q)) (adcAfterPulse q done s) := by
  have ha := readingFits_usesAdc h
  refine fits_ite (fits_pulse h _) ?_
  split
  · exact hd
  · rename_i n _
    obtain ⟨h1, h2, h3⟩ := extra_facts op q ha n
    refine fits_go ⟨by simp [firstFits, primFits, ha], h, ?_, ?_, ?_⟩
    · simp only [todoFits, List.all_append, h1, Bool.and_true]; simp [adcExtraRest, primFits, ha]
    · cases q <;> simpa [adcExtraRest, Lines.after, linesAt, restLines] using h2
    · cases q <;> simpa [adcExtraRest, Lines.after, linesAt, restLines, contentionFree] using h3

theorem fits_reading {op : Instr} {done : Reading → State → Advance} {place : Place} {s : State} (hp : placeFits op place = true)
    (hd : ∀ q t, readingFits op q = true → Fits op (linesAt (.adcUntil q)) (done q t)) :
    Fits op (linesAt place) (resumeSample done place s) := by
  cases place with
  | adcUntil q => exact fits_adcUntil hp s
  | adcPulse q => rw [← (linesAt_reading q).1]; exact fits_afterPulse hp (hd q _ hp)
  | adcExtra q => rw [← (linesAt_reading q).2]; exact hd q s hp
  | _ => exact fits_fault ..

theorem fits_average {op : Instr} {q : Reading} (h : readingFits op q = true) (n : Nat) (s : State) :
    Fits op (linesAt (.adcUntil q)) (averageStart n q s) :=
  fits_ite (fits_fault ..) (fits_readSample h _)

theorem fits_mass {op : Instr} {q : Reading} (h : readingFits op q = true) (n : Nat) (s : State) :
    Fits op (linesAt (.adcUntil q)) (massStart n q s) :=
  fits_ite (fits_fault ..) (fits_ite (fits_fault ..) (fits_average h n s))

theorem fits_sample {op : Instr} {q : Reading} (h : readingFits op q = true) (n : Nat) {done : FLOAT → State → Advance} {s : State}
    (hd : ∀ a t, Fits op (linesAt (.adcUntil q)) (done a t)) : Fits op (linesAt (.adcUntil q)) (averageAfterSample n q done s) :=
  fits_ite (fits_readSample h _) (hd _ _)

theorem fits_massFinish {op : Instr} {l : Lines} {done : FLOAT → State → Advance} (a : FLOAT) (s : State)
    (hd : ∀ a t, Fits op l (done a t)) : Fits op l (massFinish done a s) :=
  fits_ite (hd _ _) (fits_fault ..)

/-! ### The dispensing controller -/

theorem fits_message {op : Instr} {m : Msg} (h : ∀ rest, useFits op (.message m rest) = true) (elems : List MsgElem)
    {done : State → Advance} (s : State) (hd : ∀ t, Fits op restLines (done t)) : Fits op restLines (showMessage m elems done s) := by
  match elems with
  | [] => exact hd s
  | .instr _ :: rest => exact fits_transfer (h rest) ..
  | .char _ :: rest => exact fits_transfer (h rest) ..

/-- From a place it has, with the lines as they are there, an operation leads to a place it has or returns with the lines at rest. -/
theorem resume_fits {op : Instr} {place : Place} (hp : placeFits op place = true) (hne : place ≠ .finished) (s : State) :
    Fits op (linesAt place) (resumeOf op place s) := by
  have only {op : Instr} {q : Reading} (hn : isDispense op = false) (h : readingFits op q = true) : q = .only := by
    cases q <;> simp_all [readingFits]
  have message (target : FLOAT) (m : Msg) (t : State) : Fits (.dspRun target) restLines (dspAfterMessage m t) := by
    cases m with
    | wait => exact fits_mass (q := .base) rfl ..
    | insuff => exact fits_go ⟨rfl, rfl, rfl, rfl, rfl⟩
    | done => exact fits_go ⟨rfl, rfl, rfl, rfl, rfl⟩
  cases op with
  | lcdInit =>
    cases place with
    | start => exact fits_go ⟨rfl, rfl, rfl, rfl, rfl⟩
    | lcdUntil u => exact fits_until (op := .lcdInit) hp s
    | lcdDone u =>
      cases u with
      | init steps =>
        cases steps with
        | nil => exact fits_returning ..
        | cons st rest =>
          cases st with
          | wait T => exact fits_go ⟨rfl, rfl, rfl, rfl, rfl⟩
          | nibble x => exact fits_go ⟨rfl, rfl, rfl, rfl, rfl⟩
          | instr code => exact fits_transfer rfl ..
      | _ => exact fits_fault ..
    | _ => exact fits_fault ..
  | lcdWri code =>
    cases place with
    | start => exact fits_transfer rfl ..
    | lcdUntil u => exact fits_until (op := .lcdWri code) hp s
    | lcdDone u => exact fits_returning ..
    | _ => exact fits_fault ..
  | lcdWrc byte =>
    cases place with
    | start => exact fits_transfer rfl ..
    | lcdUntil u => exact fits_until (op := .lcdWrc byte) hp s
    | lcdDone u => exact fits_returning ..
    | _ => exact fits_fault ..
  | lcdWrs addr =>
    cases place with
    | start => exact fits_go ⟨rfl, rfl, rfl, rfl, rfl⟩
    | strRead => exact fits_ite (fits_returning ..) (fits_transfer rfl ..)
    | lcdUntil u => exact fits_until (op := .lcdWrs addr) hp s
    | lcdDone u => exact fits_go ⟨rfl, rfl, rfl, rfl, rfl⟩
    | _ => exact fits_fault ..
  | twiStart =>
    cases place with
    | start => exact fits_twiAction (op := .twiStart) rfl ..
    | twiUntil => dsimp only [resumeOf, resumeTwiStart]; exact fits_twiUntil rfl (fits_returning ..)
    | _ => exact fits_fault ..
  | twiStop =>
    cases place with
    | start => exact fits_twiAction (op := .twiStop) rfl ..
    | twiUntil => dsimp only [resumeOf, resumeTwiStop]; exact fits_twiUntil rfl (fits_returning ..)
    | _ => exact fits_fault ..
  | twiWrb b =>
    cases place with
    | start => exact fits_twiAction (op := .twiWrb b) rfl ..
    | twiUntil => dsimp only [resumeOf, resumeTwiWrb]; exact fits_twiUntil rfl (fits_returning ..)
    | _ => exact fits_fault ..
  | twiRda =>
    cases place with
    | start => exact fits_twiAction (op := .twiRda) rfl ..
    | twiUntil => dsimp only [resumeOf, resumeTwiRda]; exact fits_twiUntil rfl (fits_returning ..)
    | _ => exact fits_fault ..
  | twiRdn =>
    cases place with
    | start => exact fits_twiAction (op := .twiRdn) rfl ..
    | twiUntil => dsimp only [resumeOf, resumeTwiRdn]; exact fits_twiUntil rfl (fits_returning ..)
    | _ => exact fits_fault ..
  | adcRaw =>
    cases place with
    | start => exact fits_readSample (q := .only) rfl s
    | _ =>
      dsimp only [resumeOf, resumeAdcRaw]; refine fits_reading hp ?_; intro q t h
      rw [only rfl h]; exact fits_returning ..
  | adcAvg n =>
    cases place with
    | start => exact fits_average (q := .only) rfl n s
    | _ =>
      dsimp only [resumeOf, resumeAdcAvg]; refine fits_reading hp ?_; intro q t h
      rw [only rfl h]; refine fits_sample rfl n ?_; intro a t; exact fits_returning ..
  | wghMass n =>
    cases place with
    | start => exact fits_mass (q := .only) rfl n s
    | _ =>
      dsimp only [resumeOf, resumeWghMass]; refine fits_reading hp ?_; intro q t h
      rw [only rfl h]; refine fits_sample rfl n ?_; intro a t; refine fits_massFinish a t ?_; intro a t; exact fits_returning ..
  | wghTare n =>
    cases place with
    | start => exact fits_average (q := .only) rfl n s
    | _ =>
      dsimp only [resumeOf, resumeWghTare]; refine fits_reading hp ?_; intro q t h
      rw [only rfl h]; refine fits_sample rfl n ?_; intro a t; exact fits_returning ..
  | wghCal ref =>
    cases place with
    | start => exact fits_ite (fits_fault ..) (fits_ite (fits_fault ..) (fits_average (q := .only) rfl _ s))
    | _ =>
      dsimp only [resumeOf, resumeWghCal]; refine fits_reading hp ?_; intro q t h
      rw [only rfl h]; refine fits_sample rfl _ ?_; intro a t; exact fits_ite (fits_returning ..) (fits_fault ..)
  | dspRun target =>
    cases place with
    | start => exact fits_ite (fits_fault ..) (fits_message (fun _ => rfl) _ _ (message target .wait))
    | lcdUntil u => exact fits_until (op := .dspRun target) hp s
    | lcdDone u =>
      cases u with
      | message m elems => exact fits_message (fun _ => rfl) _ _ (message target m)
      | _ => exact fits_fault ..
    | dspMass => exact fits_mass (q := .loop) rfl 1 s
    | finished => exact absurd rfl hne
    | _ =>
      dsimp only [resumeOf, resumeDspRun]; refine fits_reading hp ?_; intro q t h
      cases q with
      | only => exact fits_fault ..
      | base =>
        refine fits_sample rfl _ ?_; intro a t; refine fits_massFinish a t ?_; intro a t
        exact fits_ite (fits_message (fun _ => rfl) _ _ (message target .insuff)) (fits_go ⟨rfl, rfl, rfl, rfl, rfl⟩)
      | loop =>
        refine fits_sample rfl _ ?_; intro a t; refine fits_massFinish a t ?_; intro a t
        exact fits_ite (fits_go ⟨rfl, rfl, rfl, rfl, rfl⟩) (fits_go ⟨rfl, rfl, rfl, rfl, rfl⟩)

end Sys2Proof.Machine
end

