-- ==== Sys2Proof/Laws/Twi.lean ====
section
/-! SUPPORT. Twi: a bus action with its wait, run whole, for every number of polls that answer 0 (R122 to R124). -/

namespace Sys2Proof.Machine

/-- `until tc = 1` with an answer still to come: `waits` more answers 0, then 1 with the byte `r`. -/
theorem runs_twiUntil {i : Instr} {done : State → Advance} (hu : ∀ s, resumeOf i .twiUntil s = twiUntil done s)
    {waits : List TwiAnswer} {r : Byte} {rest : List TwiAnswer} {todo : List Prim} {s : State}
    (hs : s.seq = .busy i todo .twiUntil) (ht : todo = [.twiPoll] ∨ todo = [] ∧ s.loc.tc = false)
    (hw : ∀ a ∈ waits, a.tc = false) (he : s.env.twi = waits ++ { tc := true, byte := r } :: rest) :
    Runs i (waits.length + 1) s { s with
      loc := { s.loc with tc := true }
      env := { s.env with twi := rest }
      twiTc := true
      twiReq := .none
      twiDr := if s.twiReq.receives then r else s.twiDr
      hist := s.hist ++ (List.replicate waits.length (.twiTc false none) ++
        [if s.twiReq.receives then .twiTc true (some r) else .twiTc true none])
      seq := .busy i [] .twiUntil } := by
  have next (s : State) (todo : List Prim) (hs : s.seq = .busy i todo .twiUntil)
      (ht : todo = [.twiPoll] ∨ todo = [] ∧ s.loc.tc = false) :
      exec i s = .next ({ s with seq := .busy i [] .twiUntil } : State).pollTwi := by
    rcases ht with rfl | ⟨rfl, hf⟩
    · rw [exec_todo hs]; rfl
    · rw [exec_place hs, hu, twiUntil, if_neg (by simp [hf])]; rfl
  induction waits generalizing s todo with
  | nil =>
    refine runs_one ?_
    rw [next s todo hs ht, pollTwi_settled (ans := { tc := true, byte := r }) (rest := rest) (by simpa using he)]
    simp [twiEvent]
  | cons a waits ih =>
    have ha := hw a (List.mem_cons_self ..)
    have h1 := next s todo hs ht
    rw [pollTwi_settled (ans := a) (rest := waits ++ { tc := true, byte := r } :: rest) (by simpa using he)] at h1
    have h2 := runs_succ h1 (ih (todo := []) rfl (.inr ⟨rfl, ha⟩) (fun b hb => hw b (List.mem_cons_of_mem _ hb)) rfl)
    simpa [ha, twiEvent, List.replicate_succ] using h2

/-- `TwiReq(kind, b); TwiWait()` run whole: the pseudocode goes on with `done`. -/
theorem runs_twiAction {i : Instr} {done : State → Advance} (hu : ∀ s, resumeOf i .twiUntil s = twiUntil done s)
    {kind : TwiReq} {b : Option Byte} {waits : List TwiAnswer} {r : Byte} {rest : List TwiAnswer} {s : State}
    (hx : exec i s = (twiAction kind b s).run i) (hw : ∀ a ∈ waits, a.tc = false)
    (he : s.env.twi = waits ++ { tc := true, byte := r } :: rest) :
    ∃ e : State, Runs i (waits.length + 2) s e ∧ exec i e = (done e).run i ∧
      e = { s with
        loc := { s.loc with tc := true }
        env := { s.env with twi := rest }
        twiTc := true
        twiReq := .none
        twiDr := if kind.receives then r else b.getD s.twiDr
        hist := s.hist ++ (.twi kind b :: List.replicate waits.length (.twiTc false none) ++
          [if kind.receives then .twiTc true (some r) else .twiTc true none])
        seq := .busy i [] .twiUntil } := by
  refine ⟨_, ?_, ?_, rfl⟩
  · have h1 : exec i s = .next (({ s with seq := .busy i [.twiPoll] .twiUntil } : State).requestTwi kind b) := by
      rw [hx]; rfl
    have h2 := runs_succ h1 (runs_twiUntil hu (todo := [.twiPoll]) rfl (.inl rfl) hw he)
    rw [show waits.length + 2 = waits.length + 1 + 1 from rfl]
    cases hk : kind.receives <;> simpa [hk] using h2
  · rw [exec_place (place := .twiUntil) rfl, hu, twiUntil, if_pos rfl]

end Sys2Proof.Machine
end

