-- ==== Sys2Proof/Tests/Slice0.lean ====
section
/-! SUPPORT. Slice0: the model's own tests. Expected values come from the spec: 95_test_vectors.md, the examples of the operations' rules, and
words written out from 30_encoding.md. The `witness_…` theorems show a state and operands that meet the hypotheses of each obligation. -/

namespace Sys2Proof.Tests

open Sys2Proof.Machine

/-! ### Well-formedness: each check refuses an ill-formed term -/

theorem test_wf_adcAvg_refuses : (Instr.adcAvg 256).wf = false := by decide
theorem test_wf_wghMass_refuses : (Instr.wghMass 256).wf = false := by decide
theorem test_wf_wghTare_refuses : (Instr.wghTare 300).wf = false := by decide
theorem test_wf_accepts_bounds : (Instr.adcAvg 0).wf = true ∧ (Instr.wghMass 255).wf = true ∧ (Instr.wghTare 255).wf = true := by decide

/-! ### Decoding: words written out from R71 to R74 -/

theorem test_decode_lcdInit : decode 0b0001000000000000000000000000000000000000#40 = .ok .lcdInit := by decide
theorem test_decode_lcdWri : decode 0b0001000100000000000000000000000010000001#40 = .ok (.lcdWri 0x81) := by decide
theorem test_decode_lcdWrc : decode 0b0001001000000000000000000000000001000001#40 = .ok (.lcdWrc 0x41) := by decide
theorem test_decode_lcdWrs : decode 0b0001001100000000000000001000000100000001#40 = .ok (.lcdWrs 0x8101) := by decide
theorem test_decode_twiStart : decode 0b0010000000000000000000000000000000000000#40 = .ok .twiStart := by decide
theorem test_decode_twiStop : decode 0b0010000100000000000000000000000000000000#40 = .ok .twiStop := by decide
theorem test_decode_twiWrb : decode 0b0010001000000000000000000000000011010000#40 = .ok (.twiWrb 0xD0) := by decide
theorem test_decode_twiRda : decode 0b0010001100000000000000000000000000000000#40 = .ok .twiRda := by decide
theorem test_decode_twiRdn : decode 0b0010010000000000000000000000000000000000#40 = .ok .twiRdn := by decide
theorem test_decode_adcRaw : decode 0b0011000000000000000000000000000000000000#40 = .ok .adcRaw := by decide
theorem test_decode_adcAvg : decode 0b0011000100000000000000000000000011111111#40 = .ok (.adcAvg 255) := by decide
theorem test_decode_wghMass : decode 0b0100000000000000000000000000000000001010#40 = .ok (.wghMass 10) := by decide
theorem test_decode_wghTare : decode 0b0100000100000000000000000000000000000010#40 = .ok (.wghTare 2) := by decide
/-- `WGH.CAL 100.0`: sign 0, exponent 133, fraction 0x480000. -/
theorem test_decode_wghCal : decode 0b0100001001000010110010000000000000000000#40 = .ok (.wghCal 0x42C80000) := by decide
/-- `DSP.RUN 30.0`: sign 0, exponent 131, fraction 0x700000. -/
theorem test_decode_dspRun : decode 0b0101000001000001111100000000000000000000#40 = .ok (.dspRun 0x41F00000) := by decide
/-- An op code outside the table, with must-be-zero bits set too: the op code is answered first (R214). -/
theorem test_decode_reservedOp : decode 0xFFFFFFFFFF#40 = .error .reservedOp ∧ decode 0x1400000000#40 = .error .reservedOp := by decide
/-- The lowest and the highest must-be-zero bit of formats N, B, C and A (R72, R76). -/
theorem test_decode_reservedBits :
    decode 0x1000000001#40 = .error .reservedBits ∧ decode 0x1180000000#40 = .error .reservedBits ∧
    decode 0x3100000100#40 = .error .reservedBits ∧ decode 0x1300010000#40 = .error .reservedBits := by decide
theorem test_encode_words : encode (.lcdWri 0x81) = 0x1100000081#40 ∧ encode (.adcAvg 255) = 0x31000000FF#40 ∧
    encode (.lcdWrs 0x8101) = 0x1300008101#40 ∧ encode (.dspRun 0x41F00000) = 0x5041F00000#40 := by decide
theorem test_decodeTableWord : decodeTableWord 40 0x1100000081 = some (.lcdWri 0x81) ∧ decodeTableWord 40 0x1400000000 = none := by decide

/-! ### Numbers: the examples of R147, R150, R164, R165, R166 and R184 -/

/-- A conversion that is ready at once and whose word, in pulse order, is `w`. -/
def conversionOf (w : Nat) : Conversion := { waits := 0, bits := (List.range 24).map fun k => w.testBit (23 - k) }

/-- The conversion of which the raw sample is `v`: the sign bit inverted (R146). -/
def sampleOf (v : Nat) : Conversion := conversionOf (v ^^^ 0x800000)

/-- R147: bits that give `t = 0x000100` return 0x800100. -/
theorem test_raw_sample : (conversionOf 0x000100).word = 0x000100#24 ∧ (conversionOf 0x000100).raw = 0x800100#24 := by decide +kernel
/-- R146: the corner words. -/
theorem test_raw_corners : (conversionOf 0xFFFFFF).raw = 0x7FFFFF#24 ∧ (conversionOf 0).raw = 0x800000#24 ∧
    (conversionOf 0x800000).raw = 0x000000#24 ∧ (conversionOf 0x7FFFFF).raw = 0xFFFFFF#24 := by decide +kernel
/-- R150: samples 0x800000 and 0x800002 average to 8388609.0. -/
theorem test_mean : meanOf [sampleOf 0x800000, sampleOf 0x800002] = 0x4B000001#32 := by decide +kernel
/-- R164: ten samples 0x80A410 with offset 8388608.0 and scale 420.0 weigh 100.0. -/
theorem test_mass : calibrated (meanOf (List.replicate 10 (sampleOf 0x80A410))) 0x4B000000#32 0x43D20000#32 = 0x42C80000#32 := by decide +kernel
/-- R166: a hundred samples 0x80A410 against 100.0 give the scale 419.8900146484375. -/
theorem test_scale : calibrated (meanOf (List.replicate 100 (sampleOf 0x80A410))) 0x4B000000#32 0x42C80000#32 = 0x43D1F1EC#32 := by decide +kernel
/-- R184: from 250, the reading 235 has not released 30 and the reading 220 has. -/
theorem test_released : targetReleased 0x437A0000#32 0x436B0000#32 0x41F00000#32 = false ∧
    targetReleased 0x437A0000#32 0x435C0000#32 0x41F00000#32 = true := by decide +kernel
/-- R9: +0 and -0 compare equal, a NaN makes both comparisons false. -/
theorem test_comparisons : flt 0x80000000#32 0x00000000#32 = false ∧ fge 0x80000000#32 0x00000000#32 = true ∧
    flt 0x7FC00000#32 0x3F800000#32 = false ∧ fge 0x7FC00000#32 0x3F800000#32 = false := by decide
/-- R183: the gate is strict at the target, and closed just below it. -/
theorem test_gate : flt 0x41F00000#32 0x41F00000#32 = false ∧ flt 0x41EFFFFF#32 0x41F00000#32 = true := by decide

/-! ### States -/

/-- A configuration with every parameter at a value. -/
def params : Params where
  bfBit := 3
  bfReadPulses := .two
  lcdInitSeq := [.wait .tPwrup, .nibble 0x3, .instr 0x28]
  adcExtraPulses := 0
  adcSamplePhase := .high
  offsetReset := 0x4B000000
  scaleReset := 0x43D20000
  minSupply := 0x42480000
  nAvail := 1
  msgWait := [.instr 0x01, .char 0x57]
  msgInsuff := [.char 0x49]
  msgDone := [.char 0x44]
  dutyIdle := 0
  dutyFeed := 1
  tSettle := 1
  tPwrup := 1
  tInit1 := 1
  tInit2 := 1
  tAdcClk := 1
  tDispPoll := 1
  tMsg := 1

/-- An idle block of that configuration, the display initialised and the bus owned, with settled answers of the environment. -/
def idleWith (env : EnvQueue) : State := { State.resetWith params with lcdInited := true, twiOwned := true, env := env }

/-- The same block with a command presented. -/
def presenting (w : CmdWord) : State := { idleWith ⟨[], [], []⟩ with cmdValid := true, cmdWord := w }

/-- The same block in the middle of an operation. -/
def busyAt (op : Instr) (todo : List Prim) (place : Place) (env : EnvQueue) : State :=
  { idleWith env with seq := .busy op todo place }

/-- What a test looks at: a field of the next state, and none after a stop. -/
def after {α : Type} (r : Result) (f : State → α) : Option α :=
  match r with
  | .next t => some (f t)
  | _ => none

/-- A byte the display takes after one busy answer. -/
def write (b : Byte) : LcdWrite := { byte := b, busy := [0x8], ready := 0x7 }

/-! ### One step of each operation -/

/-- R23: acceptance latches the operation and records the command word. -/
theorem test_accept : after (step (presenting 0x1100000001)) (fun t => (t.seq, t.cmdValid, t.hist)) =
    some (.busy (.lcdWri 0x01) [] .start, false, [.cmd 0x1100000001]) := by decide
/-- R49: with nothing presented an idle block stays as it is. -/
theorem test_reset_idles : (State.reset.seq, State.reset.cmdValid) = (.idle, false) := by decide
/-- R101: the first step of `LCD.INIT` makes the bus an output. -/
theorem test_lcdInit_first : after (exec .lcdInit { busyAt .lcdInit [] .start ⟨[], [], []⟩ with lcdDDir := .input })
    (fun t => (t.lcdDDir, t.hist)) = some (.output, [.dir .lcdD .output]) := by decide
/-- R101, R28: the return of `LCD.INIT` sets `lcd_inited`. -/
theorem test_lcdInit_returns : after (exec .lcdInit { busyAt .lcdInit [] (.lcdDone (.init [])) ⟨[], [], []⟩ with lcdInited := false })
    (fun t => (t.lcdInited, t.seq, t.rspValid)) = some (true, .idle, true) := by decide
/-- R96: `LCD.WRI` frames an instruction. -/
theorem test_lcdWri_first : after (exec (.lcdWri 0x28) { busyAt (.lcdWri 0x28) [] .start ⟨[], [], []⟩ with lcdRs := true })
    (fun t => (t.lcdRs, t.lcdByte)) = some (false, 0x28) := by decide
/-- R97: a status read keeps bit 3 of the four. -/
theorem test_lcdWri_probe : after (exec (.lcdWri 0x28) (busyAt (.lcdWri 0x28) [.readBusy] (.lcdUntil .single) ⟨[0x8], [], []⟩))
    (fun t => (t.loc.bf, t.hist)) = some (true, [.busRead 0x8]) := by decide
/-- R96: `LCD.WRC` frames data. -/
theorem test_lcdWrc_first : after (exec (.lcdWrc 0x41) (busyAt (.lcdWrc 0x41) [] .start ⟨[], [], []⟩))
    (fun t => (t.lcdRs, t.lcdByte)) = some (true, 0x41) := by decide
/-- R97, R241: the poll over, `lcd_rw` goes back to 0 before the bus goes back to output. -/
theorem test_lcdWrc_restores : after (exec (.lcdWrc 0x41)
    { busyAt (.lcdWrc 0x41) [] (.lcdUntil .single) ⟨[], [], []⟩ with lcdRw := true, lcdDDir := .input })
    (fun t => (t.lcdRw, t.lcdDDir)) = some (false, .input) := by decide
/-- R100: `LCD.WRS` reads its first byte at the operand. -/
theorem test_lcdWrs_first : after (exec (.lcdWrs 0x0100) { busyAt (.lcdWrs 0x0100) [] .start ⟨[], [], []⟩ with strmem := [(0x0100, 0x48)] })
    (fun t => (t.strPtr, t.loc.c, t.hist)) = some (0x0100, 0x48, [.mem 0x0100 0x48]) := by decide
/-- R51, R100: the byte after 0xFFFF is 0x0000. -/
theorem test_lcdWrs_wraps : after (exec (.lcdWrs 0xFFFF)
    { busyAt (.lcdWrs 0xFFFF) [] (.lcdDone .string) ⟨[], [], []⟩ with strPtr := 0xFFFF, strmem := [(0, 0x69)] })
    (fun t => (t.strPtr, t.loc.c)) = some (0x0000, 0x69) := by decide
/-- R122, R125: the request clears the flag. -/
theorem test_twiStart_requests : after (exec .twiStart { busyAt .twiStart [] .start ⟨[], [], []⟩ with twiTc := true })
    (fun t => (t.twiReq, t.twiTc, t.hist)) = some (.start, false, [.twi .start none]) := by decide
/-- R125: the return sets `twi_owned`. -/
theorem test_twiStart_returns : after (exec .twiStart
    { busyAt .twiStart [] .twiUntil ⟨[], [], []⟩ with twiOwned := false, loc := ⟨false, false, false, true, 0⟩ })
    (fun t => (t.twiOwned, t.seq)) = some (true, .idle) := by decide
/-- R126: the return clears `twi_owned`. -/
theorem test_twiStop_returns : after (exec .twiStop
    { busyAt .twiStop [] .twiUntil ⟨[], [], []⟩ with loc := ⟨false, false, false, true, 0⟩ })
    (fun t => (t.twiOwned, t.seq)) = some (false, .idle) := by decide
/-- R127: the byte goes to the data register with the request. -/
theorem test_twiWrb_requests : after (exec (.twiWrb 0xD0) (busyAt (.twiWrb 0xD0) [] .start ⟨[], [], []⟩))
    (fun t => (t.twiDr, t.hist)) = some (0xD0, [.twi .tx (some 0xD0)]) := by decide
/-- R123, R128: a completed receive brings its byte; R128's example 0x30. -/
theorem test_twiRda_polls : after (exec .twiRda
    { busyAt .twiRda [.twiPoll] .twiUntil ⟨[], [], [⟨true, 0x30⟩]⟩ with twiReq := .rxAck })
    (fun t => (t.twiDr, t.twiReq, t.twiTc, t.hist)) = some (0x30, .none, true, [.twiTc true (some 0x30)]) := by decide
/-- R129: the byte received is returned; R129's example 0x24. -/
theorem test_twiRdn_returns : after (exec .twiRdn
    { busyAt .twiRdn [] .twiUntil ⟨[], [], []⟩ with twiDr := 0x24, loc := ⟨false, false, false, true, 0⟩ })
    (fun t => (t.rspByte, t.rspValid, t.hist)) = some (0x24, true, [.ret 0x24 .ok (.byte 0x24)]) := by decide
/-- R142: not ready, the line is read again. -/
theorem test_adcRaw_waits : after (exec .adcRaw
    { busyAt .adcRaw [] (.adcUntil .only) ⟨[], [true], []⟩ with loc := ⟨false, false, true, false, 0⟩ })
    (fun t => (t.seq, t.hist)) = some (.busy .adcRaw [] (.adcUntil .only), [.adcRead true]) := by decide
/-- R145, R147: the 24th bit completes the word and the sample is returned with its sign bit inverted. -/
theorem test_adcRaw_returns : after (exec .adcRaw
    { busyAt .adcRaw [] (.adcPulse .only) ⟨[], [], []⟩ with adcShift := 0x800001, adcCnt := 23, loc := ⟨false, true, false, false, 0⟩ })
    (fun t => (t.adcShift, t.adcCnt, t.rspU24)) = some (0x000003, 24, 0x800003) := by decide
/-- R149: a mean of two starts from +0 and sample 0. -/
theorem test_adcAvg_first : after (exec (.adcAvg 2)
    { busyAt (.adcAvg 2) [] .start ⟨[], [true], []⟩ with avgSum := 0x3F800000, avgI := 7 })
    (fun t => (t.avgSum, t.avgI, t.hist)) = some (0x00000000, 0, [.adcRead true]) := by decide +kernel
/-- R207: a count of 0 faults (vector V-E2). -/
theorem test_adcAvg_zero : (match exec (.adcAvg 0) (busyAt (.adcAvg 0) [] .start ⟨[], [], []⟩) with
    | .fault f => some f
    | _ => none) = some .zeroSamples := by decide
/-- R163: a zero scale faults before any pin moves. -/
theorem test_wghMass_scale : (match exec (.wghMass 1) { busyAt (.wghMass 1) [] .start ⟨[], [], []⟩ with wghScale := 0x80000000 } with
    | .fault f => some f
    | _ => none) = some .badCalibration := by decide
/-- R165: the mean of the last sample becomes the offset and the scale stays; 0x800000 then 0x800002. -/
theorem test_wghTare_returns : after (exec (.wghTare 2)
    { busyAt (.wghTare 2) [] (.adcPulse .only) ⟨[], [], []⟩ with
      adcShift := 0x000001, adcCnt := 23, avgSum := 0x4B000000, avgI := 1, wghOffset := 0, loc := ⟨false, false, false, false, 0⟩ })
    (fun t => (t.wghOffset, t.wghScale)) = some (0x4B000001, 0x43D20000) := by decide +kernel
/-- R166: a reference of -0 faults. -/
theorem test_wghCal_zero : (match exec (.wghCal 0x80000000) (busyAt (.wghCal 0x80000000) [] .start ⟨[], [], []⟩) with
    | .fault f => some f
    | _ => none) = some .badArgument := by decide
/-- R184: an infinite target faults. -/
theorem test_dspRun_target : (match exec (.dspRun 0x7F800000) (busyAt (.dspRun 0x7F800000) [] .start ⟨[], [], []⟩) with
    | .fault f => some f
    | _ => none) = some .badArgument := by decide
/-- R184, R189: the good ending returns `MAIN`. -/
theorem test_dspRun_returns : after (exec (.dspRun 0x41F00000)
    (busyAt (.dspRun 0x41F00000) [.ret .ok (.next .main)] .finished ⟨[], [], []⟩))
    (fun t => (t.rspOutcome, t.rspNext, t.seq)) = some (.ok, .main, .idle) := by decide
/-- R104: before `LCD.INIT` a display write is refused; R131: outside a bracket a byte is (vectors V-E1). -/
theorem test_refusals : (match step { presenting 0x1100000001 with lcdInited := false } with
      | .refused r => some r
      | _ => none) = some .lcdNotInitialised ∧
    (match step { presenting 0x22000000D0 with twiOwned := false } with
      | .refused r => some r
      | _ => none) = some .twiNotStarted := by decide
/-- R230: power removed in the middle of a poll. -/
theorem test_restart : after (step { busyAt .adcRaw [.readBit] (.adcPulse .only) ⟨[], [], []⟩ with powerCycle := true, wghOffset := 0 })
    (fun t => (t.seq, t.lcdInited, t.wghOffset, t.powerCycle)) = some (.idle, false, 0x4B000000, false) := by decide

/-! ### Witnesses: the hypotheses of each obligation can be met -/

theorem witness_DecodeAfterEncode : (Instr.wghMass 255).wf = true := by decide
theorem witness_EncodeAfterDecode : decode 0x31000000FF#40 = .ok (.adcAvg 255) := by decide
theorem witness_ReservedOpRefused : (presenting 0x1400000000).powerCycle = false ∧ (presenting 0x1400000000).seq = .idle ∧
    (presenting 0x1400000000).cmdValid = true ∧ (presenting 0x1400000000).cmdWord.extractLsb' 32 8 ∉ definedOps := by decide
/-- One word for each clause of `reserved`. -/
theorem witness_ReservedBitsRefused :
    ((0x1000000001#40 : CmdWord).extractLsb' 32 8 = 0x10#8 ∧ (0x1000000001#40 : CmdWord).extractLsb' 0 32 ≠ 0#32) ∧
    ((0x3100000100#40 : CmdWord).extractLsb' 32 8 = 0x31#8 ∧ (0x3100000100#40 : CmdWord).extractLsb' 8 24 ≠ 0#24) ∧
    ((0x1300010000#40 : CmdWord).extractLsb' 32 8 = 0x13#8 ∧ (0x1300010000#40 : CmdWord).extractLsb' 16 16 ≠ 0#16) ∧
    (presenting 0x1300010000).powerCycle = false ∧ (presenting 0x1300010000).seq = .idle ∧ (presenting 0x1300010000).cmdValid = true := by decide
theorem witness_StepRunsDecoded : (presenting 0x3000000000).powerCycle = false ∧ (presenting 0x3000000000).seq = .idle ∧
    (presenting 0x3000000000).cmdValid = true ∧ decode (presenting 0x3000000000).cmdWord = .ok .adcRaw ∧
    (busyAt .adcRaw [.readBit] (.adcPulse .only) ⟨[], [], []⟩).powerCycle = false ∧ (idleWith ⟨[], [], []⟩).cmdValid = false := by decide
/-- The first two steps of `TWI.START`. -/
theorem witness_MachineRunsOperation : ∃ t, (presenting 0x2000000000).powerCycle = false ∧ (presenting 0x2000000000).seq = .idle ∧
    (presenting 0x2000000000).cmdValid = true ∧ decode (presenting 0x2000000000).cmdWord = .ok .twiStart ∧
    runOp .twiStart 2 (presenting 0x2000000000) = .next t ∧
    ∀ j u, 0 < j → j < 2 → runOp .twiStart j (presenting 0x2000000000) = .next u → u.seq ≠ .idle := by
  refine ⟨_, rfl, rfl, rfl, by decide, rfl, ?_⟩
  intro j u h0 h1 h
  obtain rfl : j = 1 := by omega
  cases h
  decide
theorem witness_AcceptCommand : (presenting 0x2300000000).powerCycle = false ∧ (presenting 0x2300000000).seq = .idle ∧
    (presenting 0x2300000000).cmdValid = true ∧ decode (presenting 0x2300000000).cmdWord = .ok .twiRda ∧
    Admitted .twiRda (presenting 0x2300000000) := by
  refine ⟨rfl, rfl, rfl, by decide, ?_, ?_⟩ <;> decide
theorem witness_BusyIgnoresCommandPort : (busyAt .twiRda [.twiPoll] .twiUntil ⟨[], [], []⟩).powerCycle = false ∧
    (busyAt .twiRda [.twiPoll] .twiUntil ⟨[], [], []⟩).seq ≠ .idle := by decide
theorem witness_HostWaitsWhileBusy : (busyAt .twiRda [.twiPoll] .twiUntil ⟨[], [], []⟩).seq = .busy .twiRda [.twiPoll] .twiUntil := by decide
theorem witness_StateRefusals : needsDisplay (.dspRun 0) = true ∧ needsBus .twiStop = true ∧
    decode 0x5000000000#40 = .ok (.dspRun 0) ∧ decode 0x2100000000#40 = .ok .twiStop ∧
    ({ presenting 0x5000000000 with lcdInited := false } : State).lcdInited = false ∧
    ({ presenting 0x2100000000 with twiOwned := false } : State).twiOwned = false := by decide
theorem witness_BusyNeverRefused : ∃ r, step (presenting 0x1400000000) = .refused r := ⟨.reservedOp, rfl⟩
theorem witness_OneEventPerStep : ∃ t, exec .adcRaw (idleWith ⟨[], [], []⟩) = .next t ∧
    ((idleWith ⟨[], [], []⟩).seq = .idle ∨ (idleWith ⟨[], [], []⟩).running = some .adcRaw) := ⟨_, rfl, .inl rfl⟩
theorem witness_RestartAtAnyStep : (busyAt .adcRaw [] .start ⟨[], [], []⟩).hostPowerCycle.powerCycle = true := by decide
theorem witness_StringMemory : Memory.wf [(0x0100, 0x48), (0x0101, 0x69)] = true ∧ Memory.wf [(0x0101, 0x00)] = false ∧
    (idleWith ⟨[], [], []⟩).seq = .idle ∧ ∃ t, step (busyAt (.lcdWrs 5) [] .start ⟨[], [], []⟩) = .next t :=
  ⟨by decide, by decide, rfl, _, rfl⟩
theorem witness_MemoryCanonical : Memory.wf (Memory.write [(0x0100, 0x48)] 0xFFFF 0x69) = true ∧
    Memory.write [(0x0100, 0x48)] 0x0100 0x00 = [] := by decide
theorem witness_ParamsConstant : ∃ t, step (presenting 0x3000000000) = .next t := ⟨_, rfl⟩
/-- The last step of `WGH.TARE 1`, which does change the offset. -/
def tareEnds : State := { busyAt (.wghTare 1) [] (.adcPulse .only) ⟨[], [], []⟩ with adcCnt := 23, avgI := 0 }
theorem witness_CalibrationWriters : ∃ t, step tareEnds = .next t ∧ t.wghOffset = 0x4B000000 ∧
    ({ tareEnds with wghOffset := 0 } : State).wghOffset ≠ 0x4B000000 := ⟨_, rfl, by decide +kernel, by decide⟩
/-- The dispensing loop with the motor feeding. -/
def feeding : State := { busyAt (.dspRun 0x41F00000) [] .dspMass ⟨[], [], []⟩ with motorLevel := .feeding }
theorem sound_feeding : Sound feeding := ⟨rfl, rfl, rfl, rfl, rfl⟩
/-- A poll of the display between the two writes of `lcd_e`. -/
def polling : State :=
  { busyAt (.lcdWri 0x01) [.readBusy, .pinWrite .lcdE false] (.lcdUntil .single) ⟨[0x8], [], []⟩ with
    lcdRw := true, lcdDDir := .input, lcdE := true }
theorem sound_polling : Sound polling := ⟨rfl, rfl, rfl, rfl, rfl⟩
/-- A data pulse with the clock at 1. -/
def pulsing : State := { busyAt .adcRaw [.readBit, .pinWrite .adcSck false] (.adcPulse .only) ⟨[], [], []⟩ with adcSck := true }
theorem sound_pulsing : Sound pulsing := ⟨rfl, rfl, rfl, rfl, rfl⟩
/-- A poll of the two-wire engine that brings a byte. -/
def receiving : State := { busyAt .twiRda [.twiPoll] .twiUntil ⟨[], [], [⟨true, 0x30⟩]⟩ with twiReq := .rxAck }
theorem sound_receiving : Sound receiving :=
  have engine : TwiSound .twiRda receiving [.twiPoll] .twiUntil := Or.inr ⟨fun h => (nomatch h), rfl, rfl⟩
  ⟨rfl, rfl, rfl, rfl, engine⟩
theorem witness_RegisterOwners : Sound receiving ∧ receiving.powerCycle = false ∧
    ∃ t, step receiving = .next t ∧ t.twiDr ≠ receiving.twiDr := ⟨sound_receiving, rfl, _, rfl, by decide⟩
theorem witness_ControlStateWriters : Sound receiving ∧ receiving.powerCycle = false ∧
    ∃ t, step receiving = .next t ∧ t.twiTc ≠ receiving.twiTc := ⟨sound_receiving, rfl, _, rfl, by decide⟩
theorem witness_SoundKept : Sound polling ∧ ∃ t, step polling = .next t := ⟨sound_polling, _, rfl⟩
/-- A block with parameters of its own, and the default one. -/
theorem witness_ReachableSound : Reachable (State.resetWith params) ∧ (State.resetWith params).seq = .idle ∧ Reachable State.reset :=
  ⟨.reset _, rfl, .reset _⟩
theorem witness_NoBusContention : Sound polling ∧ polling.lcdRw = true := ⟨sound_polling, rfl⟩
theorem witness_MotorFeedsOnlyInRun : Sound feeding ∧ feeding.motorLevel = .feeding := ⟨sound_feeding, rfl⟩
theorem witness_ClockNeverRests : Sound pulsing ∧ pulsing.adcSck = true := ⟨sound_pulsing, rfl⟩
/-- The step before a fault of each kind: a count of 0, a zero scale, a NaN target, and a mass that overflows. -/
def faulting : Fault → State
  | .zeroSamples => busyAt (.adcAvg 0) [] .start ⟨[], [], []⟩
  | .badCalibration => { feeding with wghScale := 0 }
  | .badArgument => busyAt (.dspRun 0x7FC00000) [] .start ⟨[], [], []⟩
  | .notFinite => { busyAt (.wghMass 1) [] (.adcPulse .only) ⟨[], [], []⟩ with adcCnt := 23, wghOffset := 0, wghScale := 0x00000001 }
  | .positionOutsideOperation => feeding
/-- The fault a result carries. -/
def faultOf (r : Result) : Option Fault :=
  match r with
  | .fault f => some f
  | _ => none
theorem faultOf_some {r : Result} {f : Fault} (h : faultOf r = some f) : r = .fault f := by
  cases r <;> simp_all [faultOf]
theorem witness_FaultTable : params.wf = true ∧
    (Sound (faulting .zeroSamples) ∧ step (faulting .zeroSamples) = .fault .zeroSamples) ∧
    (Sound (faulting .badCalibration) ∧ step (faulting .badCalibration) = .fault .badCalibration) ∧
    (Sound (faulting .badArgument) ∧ step (faulting .badArgument) = .fault .badArgument) ∧
    (Sound (faulting .notFinite) ∧ step (faulting .notFinite) = .fault .notFinite) :=
  ⟨by decide, ⟨⟨rfl, rfl, rfl, rfl, rfl⟩, rfl⟩, ⟨⟨rfl, rfl, rfl, rfl, rfl⟩, rfl⟩, ⟨⟨rfl, rfl, rfl, rfl, rfl⟩, rfl⟩,
    ⟨⟨rfl, rfl, rfl, rfl, rfl⟩, faultOf_some (by decide +kernel)⟩⟩
/-- From 23 at the end of the last data pulse the counter goes to 24. -/
theorem witness_SampleCounterBounded : Counted tareEnds ∧ tareEnds.adcCnt = 23 ∧ (∃ t, step tareEnds = .next t ∧ t.adcCnt = 24) ∧
    Reachable (State.resetWith params) := ⟨(by decide : (23 : BitVec 5).toNat ≤ 23), rfl, ⟨_, rfl, rfl⟩, .reset _⟩

/-! ### Witnesses of the run statements: environments that answer -/

/-- The handshakes of the display settled on. -/
def displayed (ws : List LcdWrite) : EnvQueue := ⟨readsOf ws ++ [0xF], [], []⟩
/-- The conversions of the ADC settled on. -/
def weighed (cs : List Conversion) : EnvQueue := ⟨[], levelsOf cs ++ [true], []⟩
/-- Two polls that answer 0, then a completion with the byte 0x5A. -/
def answered : EnvQueue := ⟨[], [], [⟨false, 0⟩, ⟨false, 0⟩, ⟨true, 0x5A⟩]⟩

theorem answers_write (b : Byte) : (write b).answers params := by
  simp [LcdWrite.answers, write, params]

theorem witness_LcdWriRun : (idleWith (displayed [write 0x01])).seq = .idle ∧ (idleWith (displayed [write 0x01])).lcdInited = true ∧
    (write 0x01).byte = 0x01 ∧ (write 0x01).answers params ∧ (idleWith (displayed [write 0x01])).env.lcd = (write 0x01).reads ++ [0xF] :=
  ⟨rfl, rfl, rfl, answers_write _, rfl⟩
theorem witness_LcdWrcRun : (idleWith (displayed [write 0x41])).seq = .idle ∧ (idleWith (displayed [write 0x41])).lcdInited = true ∧
    (write 0x41).byte = 0x41 ∧ (write 0x41).answers params ∧ (idleWith (displayed [write 0x41])).env.lcd = (write 0x41).reads ++ [0xF] :=
  ⟨rfl, rfl, rfl, answers_write _, rfl⟩
/-- A string of two characters that crosses 0xFFFF. -/
def wrapping : State := { idleWith (displayed [write 0x48, write 0x69]) with strmem := [(0, 0x69), (0xFFFF, 0x48)] }
theorem witness_LcdWrsRun : wrapping.seq = .idle ∧ wrapping.lcdInited = true ∧ AtRest wrapping ∧
    holdsString wrapping 0xFFFF ([write 0x48, write 0x69].map LcdWrite.byte) ∧
    (∀ w ∈ [write 0x48, write 0x69], w.answers wrapping.params) ∧ wrapping.env.lcd = readsOf [write 0x48, write 0x69] ++ [0xF] := by
  refine ⟨rfl, rfl, ⟨rfl, rfl, rfl, rfl, rfl, rfl⟩, ⟨by decide, by decide, by decide, by decide, (by decide : wrapping.strByte 0x0001 = 0x00)⟩, ?_, rfl⟩
  intro w hw
  simp only [List.mem_cons, List.not_mem_nil, or_false] at hw
  obtain rfl | rfl := hw <;> exact answers_write _
theorem witness_LcdInitRun : (idleWith (displayed [write 0x28])).seq = .idle ∧
    [write 0x28].map LcdWrite.byte = initCodes params.lcdInitSeq ∧ (∀ w ∈ [write 0x28], w.answers params) ∧
    (idleWith (displayed [write 0x28])).env.lcd = readsOf [write 0x28] ++ [0xF] := by
  refine ⟨rfl, rfl, ?_, rfl⟩
  intro w hw
  obtain rfl := List.mem_singleton.mp hw
  exact answers_write _
/-- Two reads that answer busy. -/
theorem busy_twice : StaysBusy params [0x8, 0xF] := ⟨by decide, by decide⟩
/-- The three clauses: a single write; the second character of a string, at 0x0000 after 0xFFFF; the `Instr` step of `params`. -/
theorem witness_LcdHangs : (idleWith ⟨[0x8, 0xF], [], []⟩).seq = .idle ∧ StaysBusy params [0x8, 0xF] ∧
    ((idleWith ⟨[0x8, 0xF], [], []⟩).lcdInited = true ∧ (idleWith ⟨[0x8, 0xF], [], []⟩).env.lcd = [0x8, 0xF] ++ []) ∧
    (let s := { wrapping with env := ⟨readsOf [write 0x48] ++ [0x8, 0xF], [], []⟩ };
      s.lcdInited = true ∧ holdsChars s 0xFFFF ([write 0x48].map LcdWrite.byte ++ [0x69]) ∧ (∀ w ∈ [write 0x48], w.answers s.params) ∧
      s.env.lcd = readsOf [write 0x48] ++ [0x8, 0xF] ++ []) ∧
    params.lcdInitSeq = [.wait .tPwrup, .nibble 0x3] ++ .instr 0x28 :: [] ∧
    ([] : List LcdWrite).map LcdWrite.byte = initCodes [.wait .tPwrup, .nibble 0x3] := by
  refine ⟨rfl, busy_twice, ⟨rfl, rfl⟩, ⟨rfl, ⟨by decide, by decide, by decide, by decide, trivial⟩, ?_, rfl⟩, rfl, rfl⟩
  intro w hw
  obtain rfl := List.mem_singleton.mp hw
  exact answers_write _
/-- String memory with the byte 0x41 at every address from `lo` on, `n` of them. -/
def filled (lo n : Nat) : Memory := (List.range' lo n).map fun a => (a, 0x41)
theorem filled_read (lo n a : Nat) (h : lo ≤ a) (h' : a < lo + n) : Memory.read (filled lo n) a = 0x41 := by
  induction n generalizing lo with
  | zero => omega
  | succ n ih =>
    simp only [filled, List.range'_succ, List.map_cons, Memory.read] at ih ⊢
    split
    · rfl
    · exact ih (lo + 1) (by omega) (by omega)
theorem filled_wf (lo n : Nat) (h : lo + n ≤ 65536) : Memory.wfFrom lo (filled lo n) = true := by
  induction n generalizing lo with
  | zero => rfl
  | succ n ih =>
    have := ih (lo + 1) (by omega)
    simp only [filled, List.range'_succ, List.map_cons, Memory.wfFrom] at this ⊢
    simp only [this, strmemUnwritten, le_refl, decide_true, Bool.true_and, Bool.and_true, Bool.and_eq_true, decide_eq_true_eq]
    exact ⟨by omega, by decide⟩
/-- No 0x00 anywhere, in canonical form; the first characters are written. -/
def endless : State := { idleWith (displayed [write 0x41, write 0x41]) with strmem := filled 0 65536 }
theorem witness_LcdWrsNeverEnds : endless.seq = .idle ∧ endless.lcdInited = true ∧ (∀ a, endless.strByte a ≠ 0x00#8) ∧
    Memory.wf endless.strmem = true ∧
    [write 0x41, write 0x41].map LcdWrite.byte =
      (List.range [write 0x41, write 0x41].length).map (fun k => endless.strByte (0xFFFF#16 + BitVec.ofNat 16 k)) ∧
    (∀ w ∈ [write 0x41, write 0x41], w.answers endless.params) ∧ endless.env.lcd = readsOf [write 0x41, write 0x41] ++ [0xF] := by
  have all (a : StrAddr) : endless.strByte a = 0x41#8 := filled_read 0 65536 a.toNat (by omega) (by simpa using a.isLt)
  refine ⟨rfl, rfl, fun a => by rw [all]; decide, filled_wf 0 65536 (by omega), ?_, ?_, rfl⟩
  · simp only [all, List.map_const']; rfl
  · intro w hw
    simp only [List.mem_cons, List.not_mem_nil, or_false, or_self] at hw
    rw [hw]; exact answers_write _
/-- The hypotheses of `TwiStartRun`, `TwiStopRun`, `TwiWrbRun` and `TwiReadRuns` together. -/
theorem witness_TwiRuns : (idleWith answered).seq = .idle ∧ (idleWith answered).twiOwned = true ∧
    (∀ a ∈ [(⟨false, 0⟩ : TwiAnswer), ⟨false, 0⟩], a.tc = false) ∧
    (idleWith answered).env.twi = [⟨false, 0⟩, ⟨false, 0⟩] ++ { tc := true, byte := 0x5A } :: [] := by decide
/-- `TWI.START` from a bracket that is open (a repeated start), and `TWI.WRB`. -/
theorem witness_TwiHangs : usesTwi .twiStart = true ∧ usesTwi (.twiWrb 0xD0) = true ∧
    Admitted .twiStart (idleWith answered) ∧ Admitted (.twiWrb 0xD0) (idleWith answered) ∧ (idleWith answered).seq = .idle ∧
    (∀ a ∈ [(⟨false, 0⟩ : TwiAnswer), ⟨false, 0⟩], a.tc = false) ∧
    (idleWith answered).env.twi = [⟨false, 0⟩, ⟨false, 0⟩] ++ [⟨true, 0x5A⟩] := by
  refine ⟨rfl, rfl, ⟨by decide, by decide⟩, ⟨by decide, by decide⟩, rfl, by decide, rfl⟩

theorem weighed_adc (cs : List Conversion) : (idleWith (weighed cs)).env.adc = levelsOf cs ++ [true] := rfl
/-- A conversion that is late, and one that is ready at once. -/
def twoSamples : List Conversion := [{ sampleOf 0x80A410 with waits := 2 }, sampleOf 0x80A410]
theorem whole_sampleOf (vs : List Nat) : WholeSamples (vs.map sampleOf) := by
  intro c hc
  obtain ⟨v, -, rfl⟩ := List.mem_map.mp hc
  simp [sampleOf, conversionOf]
theorem whole_twoSamples : WholeSamples twoSamples := by
  intro c hc
  simp only [twoSamples, List.mem_cons, List.not_mem_nil, or_false] at hc
  obtain rfl | rfl := hc <;> simp [sampleOf, conversionOf]
theorem calibrated_idleWith (env : EnvQueue) : Calibrated (idleWith env) := by
  refine ⟨?_, ?_, ?_⟩ <;> simp only [idleWith, State.resetWith, params] <;> decide
theorem witness_AdcRawRun : (idleWith (weighed [sampleOf 0x800100])).seq = .idle ∧ (sampleOf 0x800100).bits.length = 24 ∧
    (idleWith (weighed [sampleOf 0x800100])).env.adc = (sampleOf 0x800100).levels ++ [true] := ⟨rfl, by decide +kernel, by decide +kernel⟩
/-- The hypotheses of `AdcAvgRun`, `WghMassRun` and `WghTareRun` together. -/
theorem witness_AveragingRuns : (idleWith (weighed twoSamples)).seq = .idle ∧ 0 < twoSamples.length ∧ twoSamples.length < 256 ∧
    WholeSamples twoSamples ∧ (idleWith (weighed twoSamples)).env.adc = levelsOf twoSamples ++ [true] ∧
    Calibrated (idleWith (weighed twoSamples)) ∧ isFinite (massOf (idleWith (weighed twoSamples)) twoSamples) = true :=
  ⟨rfl, by decide, by decide, whole_twoSamples, rfl, calibrated_idleWith _, by decide +kernel⟩
/-- A hundred samples of the calibration run. -/
def hundred : List Conversion := (List.replicate 100 0x80A410).map sampleOf
theorem witness_WghCalRun : (idleWith (weighed hundred)).seq = .idle ∧ hundred.length = 100 ∧ WholeSamples hundred ∧
    (idleWith (weighed hundred)).env.adc = levelsOf hundred ++ [true] ∧ isZero 0x42C80000#32 = false ∧ isFinite 0x42C80000#32 = true ∧
    isFinite (idleWith (weighed hundred)).wghOffset = true ∧
    isFinite (fdiv (fsub (meanOf hundred) (idleWith (weighed hundred)).wghOffset) 0x42C80000#32) = true :=
  ⟨rfl, by simp only [hundred, List.length_map, List.length_replicate], whole_sampleOf _, weighed_adc _, by decide, by decide, by decide,
    by decide +kernel⟩
/-- The line never goes ready in the second of two samples (`WGH.MASS 2`), in the last of the largest average, in a raw sample, in a
calibration. -/
theorem witness_AdcHangs : let s := idleWith ⟨[], levelsOf [sampleOf 0x80A410] ++ [true, true], []⟩
    s.seq = .idle ∧ usesAdc (.wghMass 2) = true ∧ (Instr.wghMass 2).wf = true ∧ ChecksPass s (.wghMass 2) ∧
    [sampleOf 0x80A410].length < sampleCount (.wghMass 2) ∧ WholeSamples [sampleOf 0x80A410] ∧ 0 < 2 ∧
    s.env.adc = levelsOf [sampleOf 0x80A410] ++ List.replicate 2 true ++ [] ∧
    254 < sampleCount (.adcAvg 255) ∧ (Instr.adcAvg 255).wf = true ∧ 0 < sampleCount .adcRaw ∧ 1 < sampleCount (.wghTare 2) ∧
    99 < sampleCount (.wghCal 0x42C80000) ∧ ChecksPass s (.wghCal 0x42C80000) :=
  ⟨rfl, rfl, rfl, calibrated_idleWith _, by decide, whole_sampleOf [0x80A410], by decide, rfl, by decide, rfl, by decide, by decide, by decide,
    by decide, by decide, by decide⟩
theorem witness_ZeroSamplesFault : (idleWith ⟨[], [], []⟩).seq = .idle := rfl
/-- The clauses of `FloatFaults` that need no run: -0 and an infinity as reference, a NaN and an infinity as target, an offset that is not
finite, a scale of -0. -/
theorem witness_FloatFaults_checks : (idleWith ⟨[], [], []⟩).seq = .idle ∧ (idleWith ⟨[], [], []⟩).lcdInited = true ∧
    isZero 0x80000000#32 = true ∧ isFinite 0x7F800000#32 = false ∧ isFinite 0x7FC00000#32 = false ∧ isZero 0x00000001#32 = false ∧
    isFinite 0x00000001#32 = true ∧ isFinite ({ idleWith ⟨[], [], []⟩ with wghOffset := 0xFF800000 } : State).wghOffset = false ∧
    ¬ Calibrated { idleWith ⟨[], [], []⟩ with wghScale := 0x80000000 } := by
  refine ⟨rfl, rfl, by decide, by decide, by decide, by decide, by decide, by decide, fun h => ?_⟩
  exact absurd h.1 (by decide)
/-- The clauses of `FloatFaults` about `WGH.MASS` and `WGH.CAL` after their samples: a mass and a scale that overflow, with the smallest scale and reference. -/
theorem witness_FloatFaults_overflow :
    (isFinite (massOf { idleWith (weighed twoSamples) with wghScale := 0x00000001 } twoSamples) = false ∧
      Calibrated { idleWith (weighed twoSamples) with wghScale := 0x00000001 }) ∧
    (isFinite (fdiv (fsub (meanOf hundred) (idleWith (weighed hundred)).wghOffset) 0x00000001#32) = false ∧
      isFinite (idleWith (weighed hundred)).wghOffset = true) := by
  refine ⟨⟨by decide +kernel, by decide, by decide, by decide⟩, by decide +kernel, by decide⟩

/-- The messages of `params`, answered. -/
def waiting : List LcdWrite := [write 0x01, write 0x57]
theorem shows_waiting : ShowsMessage params params.msgWait waiting := by
  refine ⟨rfl, fun w hw => ?_⟩
  simp only [waiting, List.mem_cons, List.not_mem_nil, or_false] at hw
  obtain rfl | rfl := hw <;> exact answers_write _
theorem shows_insuff : ShowsMessage params params.msgInsuff [write 0x49] := by
  refine ⟨rfl, fun w hw => ?_⟩
  obtain rfl := List.mem_singleton.mp hw
  exact answers_write _
theorem shows_done : ShowsMessage params params.msgDone [write 0x44] := by
  refine ⟨rfl, fun w hw => ?_⟩
  obtain rfl := List.mem_singleton.mp hw
  exact answers_write _
/-- The state of a run of `DSP.RUN` whose second message is `w` and whose conversions are of the samples `vs`. -/
def dispensing (w : LcdWrite) (vs : List Nat) : State :=
  idleWith ⟨readsOf (waiting ++ [w]) ++ [0xF], levelsOf (vs.map sampleOf) ++ [true], []⟩
/-- A sample of 10 against `MIN_SUPPLY` 50: it aborts, and so does one of 235 against a target of 250. -/
theorem witness_DspAbortRun :
    (dispensing (write 0x49) [0x801068]).seq = .idle ∧ (dispensing (write 0x49) [0x801068]).lcdInited = true ∧
    AtRest (dispensing (write 0x49) [0x801068]) ∧ params.wf = true ∧ isFinite 0x41F00000#32 = true ∧
    Calibrated (dispensing (write 0x49) [0x801068]) ∧ ShowsMessage params params.msgWait waiting ∧
    ShowsMessage params params.msgInsuff [write 0x49] ∧
    (dispensing (write 0x49) [0x801068]).env.lcd = readsOf (waiting ++ [write 0x49]) ++ [0xF] ∧
    ([0x801068].map sampleOf).length = params.nAvail ∧ WholeSamples ([0x801068].map sampleOf) ∧
    (dispensing (write 0x49) [0x801068]).env.adc = levelsOf ([0x801068].map sampleOf) ++ [true] ∧
    isFinite (massOf (dispensing (write 0x49) [0x801068]) ([0x801068].map sampleOf)) = true ∧
    flt (massOf (dispensing (write 0x49) [0x801068]) ([0x801068].map sampleOf)) params.minSupply = true ∧
    flt (massOf (dispensing (write 0x49) [0x81818C]) ([0x81818C].map sampleOf)) 0x437A0000#32 = true :=
  ⟨rfl, rfl, ⟨rfl, rfl, rfl, rfl, rfl, rfl⟩, by decide, by decide, calibrated_idleWith _, shows_waiting, shows_insuff, rfl, rfl,
    whole_sampleOf _, rfl, by decide +kernel, by decide +kernel, by decide +kernel⟩
/-- From 250, the reading 235 has not released 30 and the reading 220 has (R184, vector V-W3). -/
theorem witness_DspGoodRun :
    let s := dispensing (write 0x44) [0x819A28, 0x81818C, 0x8168F0]
    let base := [0x819A28].map sampleOf
    s.seq = .idle ∧ s.lcdInited = true ∧ AtRest s ∧ s.params.wf = true ∧ isFinite 0x41F00000#32 = true ∧ Calibrated s ∧
    ShowsMessage s.params s.params.msgWait waiting ∧ ShowsMessage s.params s.params.msgDone [write 0x44] ∧
    s.env.lcd = readsOf (waiting ++ [write 0x44]) ++ [0xF] ∧ base.length = s.params.nAvail ∧
    WholeSamples (base ++ [sampleOf 0x81818C] ++ [sampleOf 0x8168F0]) ∧
    s.env.adc = levelsOf (base ++ [sampleOf 0x81818C] ++ [sampleOf 0x8168F0]) ++ [true] ∧ isFinite (massOf s base) = true ∧
    (∀ l ∈ [sampleOf 0x81818C] ++ [sampleOf 0x8168F0], isFinite (massOf s [l]) = true) ∧
    flt (massOf s base) s.params.minSupply = false ∧ flt (massOf s base) 0x41F00000#32 = false ∧
    (∀ l ∈ [sampleOf 0x81818C], fge (fsub (massOf s base) (massOf s [l])) 0x41F00000#32 = false) ∧
    fge (fsub (massOf s base) (massOf s [sampleOf 0x8168F0])) 0x41F00000#32 = true :=
  ⟨rfl, rfl, ⟨rfl, rfl, rfl, rfl, rfl, rfl⟩, by decide, by decide, calibrated_idleWith _, shows_waiting, shows_done, rfl, rfl,
    whole_sampleOf [0x819A28, 0x81818C, 0x8168F0], rfl, by decide +kernel, by decide +kernel, by decide +kernel, by decide +kernel,
    by decide +kernel, by decide +kernel⟩
/-- A block with the scale `x` whose display answers the waiting message and then `l`, and whose ADC answers with the sample `v` and then `a`. -/
def opening (x : FLOAT) (v : Nat) (l : List Nibble) (a : List Bool) : State :=
  { idleWith ⟨readsOf waiting ++ l, levelsOf [sampleOf v] ++ a, []⟩ with wghScale := x }
theorem starts_opening (x : FLOAT) (v : Nat) (l : List Nibble) (a : List Bool) : DspStarts (opening x v l a) 0x41F00000 :=
  ⟨rfl, rfl, ⟨rfl, rfl, rfl, rfl, rfl, rfl⟩, (by decide : params.wf = true), by decide⟩
theorem opens_opening {x : FLOAT} (h : isZero x = false ∧ isFinite x = true) (v : Nat) (l : List Nibble) (a : List Bool) :
    DspOpens (opening x v l a) 0x41F00000 waiting [sampleOf v] l a :=
  ⟨starts_opening x v l a, shows_waiting, rfl, ⟨h.1, h.2, (by decide : isFinite 0x4B000000#32 = true)⟩, rfl, whole_sampleOf [v], rfl⟩
/-- The clauses of `FloatFaults` about `DSP.RUN`: a scale of -0; the smallest scale, with which a base reading overflows; the scale 2^-110, with
which the base reading is 2^110, the loop goes on over the same reading, and the reading 2^132 overflows. -/
theorem witness_FloatFaults_dispensing :
    (let s := opening 0x80000000 0x80A410 [] [];
      DspStarts s 0x41F00000 ∧ ¬ Calibrated s ∧ ShowsMessage s.params s.params.msgWait waiting ∧ s.env.lcd = readsOf waiting ++ []) ∧
    (let s := opening 0x00000001 0x80A410 [] [];
      DspOpens s 0x41F00000 waiting [sampleOf 0x80A410] [] [] ∧ ¬ FiniteMass s [sampleOf 0x80A410]) ∧
    (let s := opening 0x08800000 0x800001 [] (levelsOf ([sampleOf 0x800001] ++ [sampleOf 0xC00000]) ++ []);
      DspOpens s 0x41F00000 waiting [sampleOf 0x800001] [] (levelsOf ([sampleOf 0x800001] ++ [sampleOf 0xC00000]) ++ []) ∧
      FiniteMass s [sampleOf 0x800001] ∧ GatePasses s 0x41F00000 [sampleOf 0x800001] ∧
      FeedsOver s 0x41F00000 [sampleOf 0x800001] [sampleOf 0x800001] ∧
      WholeSamples ([sampleOf 0x800001] ++ [sampleOf 0xC00000]) ∧ ¬ FiniteMass s [sampleOf 0xC00000]) := by
  refine ⟨⟨starts_opening .., fun h => absurd h.1 (by decide), shows_waiting, rfl⟩, ⟨opens_opening (by decide) .., ?_⟩,
    opens_opening (by decide) .., ?_, ?_, ?_, whole_sampleOf [0x800001, 0xC00000], ?_⟩
  · unfold FiniteMass; decide +kernel
  · unfold FiniteMass; decide +kernel
  · unfold GatePasses; decide +kernel
  · unfold FeedsOver FiniteMass; decide +kernel
  · unfold FiniteMass; decide +kernel
/-- The clauses of `DspHangs`: the second element of the waiting message; the only one of each ending, after the runs of `DspAbortRun` and
`DspGoodRun`; the base reading; the loop after the reading 235. -/
theorem witness_DspHangs :
    (let s := { opening 0x43D20000 0x819A28 [] [] with env := ⟨readsOf [write 0x01] ++ [0x8, 0xF], [true], []⟩ };
      DspStarts s 0x41F00000 ∧ ShowsMessage s.params [.instr 0x01] [write 0x01] ∧ StaysBusy s.params [0x8, 0xF] ∧
      s.params.msgWait = [.instr 0x01] ++ .char 0x57 :: [] ∧ s.env.lcd = readsOf [write 0x01] ++ [0x8, 0xF] ++ []) ∧
    (let s := opening 0x43D20000 0x801068 (readsOf [] ++ [0x8, 0xF] ++ []) [];
      DspOpens s 0x41F00000 waiting [sampleOf 0x801068] (readsOf [] ++ [0x8, 0xF] ++ []) [] ∧ FiniteMass s [sampleOf 0x801068] ∧
      ¬ GatePasses s 0x41F00000 [sampleOf 0x801068] ∧ ShowsMessage s.params [] [] ∧ s.params.msgInsuff = [] ++ .char 0x49 :: []) ∧
    (let a := levelsOf ([sampleOf 0x81818C] ++ [sampleOf 0x8168F0]) ++ [];
      let s := opening 0x43D20000 0x819A28 (readsOf [] ++ [0x8, 0xF] ++ []) a;
      DspOpens s 0x41F00000 waiting [sampleOf 0x819A28] (readsOf [] ++ [0x8, 0xF] ++ []) a ∧ FiniteMass s [sampleOf 0x819A28] ∧
      GatePasses s 0x41F00000 [sampleOf 0x819A28] ∧ FeedsOver s 0x41F00000 [sampleOf 0x819A28] [sampleOf 0x81818C] ∧
      WholeSamples ([sampleOf 0x81818C] ++ [sampleOf 0x8168F0]) ∧ FiniteMass s [sampleOf 0x8168F0] ∧
      fge (fsub (massOf s [sampleOf 0x819A28]) (massOf s [sampleOf 0x8168F0])) 0x41F00000 = true ∧
      s.params.msgDone = [] ++ .char 0x44 :: []) ∧
    (let s := { opening 0x43D20000 0x819A28 [] [] with env := ⟨readsOf waiting ++ [], levelsOf [] ++ List.replicate 1 true ++ [], []⟩ };
      DspStarts s 0x41F00000 ∧ ShowsMessage s.params s.params.msgWait waiting ∧ s.env.lcd = readsOf waiting ++ [] ∧ Calibrated s ∧
      ([] : List Conversion).length < s.params.nAvail ∧ WholeSamples [] ∧ s.env.adc = levelsOf [] ++ List.replicate 1 true ++ []) ∧
    (let a := levelsOf [sampleOf 0x81818C] ++ List.replicate 1 true ++ [];
      let s := opening 0x43D20000 0x819A28 [] a;
      DspOpens s 0x41F00000 waiting [sampleOf 0x819A28] [] a ∧ FiniteMass s [sampleOf 0x819A28] ∧
      GatePasses s 0x41F00000 [sampleOf 0x819A28] ∧ FeedsOver s 0x41F00000 [sampleOf 0x819A28] [sampleOf 0x81818C] ∧
      WholeSamples [sampleOf 0x81818C]) := by
  have first : ShowsMessage params [.instr 0x01] [write 0x01] := by
    refine ⟨rfl, fun w hw => ?_⟩
    obtain rfl := List.mem_singleton.mp hw
    exact answers_write _
  have none : ShowsMessage params [] [] := ⟨rfl, by simp⟩
  have start (env : EnvQueue) : DspStarts { opening 0x43D20000 0x819A28 [] [] with env := env } 0x41F00000 :=
    ⟨rfl, rfl, ⟨rfl, rfl, rfl, rfl, rfl, rfl⟩, (by decide : params.wf = true), by decide⟩
  refine ⟨⟨start _, first, busy_twice, rfl, rfl⟩, ⟨opens_opening (by decide) .., ?_, ?_, none, rfl⟩,
    ⟨opens_opening (by decide) .., ?_, ?_, ?_, whole_sampleOf [0x81818C, 0x8168F0], ?_, ?_, rfl⟩,
    ⟨start _, shows_waiting, rfl, calibrated_idleWith _, by decide, whole_sampleOf [], rfl⟩,
    opens_opening (by decide) .., ?_, ?_, ?_, whole_sampleOf [0x81818C]⟩
  all_goals (try unfold FeedsOver); (try unfold FiniteMass); (try unfold GatePasses); decide +kernel
/-- The loop of that run, before the reading 235. -/
def looping : State :=
  { feeding with dspTarget := 0x41F00000, dspBase := 0x437A0000, env := weighed [sampleOf 0x81818C] }
theorem witness_DspLoopRunsOn : looping.seq = .busy (.dspRun 0x41F00000) [] .dspMass ∧ looping.motorLevel = .feeding ∧
    looping.dspTarget = 0x41F00000 ∧ Calibrated looping ∧ WholeSamples [sampleOf 0x81818C] ∧
    looping.env.adc = levelsOf [sampleOf 0x81818C] ++ [true] ∧ (∀ l ∈ [sampleOf 0x81818C], isFinite (massOf looping [l]) = true) ∧
    ∀ l ∈ [sampleOf 0x81818C], fge (fsub looping.dspBase (massOf looping [l])) 0x41F00000#32 = false :=
  ⟨rfl, rfl, rfl, ⟨by decide, by decide, by decide⟩, whole_sampleOf [0x81818C], rfl, by decide +kernel, by decide +kernel⟩

theorem witness_LcdReturns :
    (busyAt (.lcdWri 1) [] (.lcdDone .single) ⟨[], [], []⟩).seq = .busy (.lcdWri 1) [] (.lcdDone .single) ∧
    (busyAt (.lcdWrc 1) [] (.lcdDone .single) ⟨[], [], []⟩).seq = .busy (.lcdWrc 1) [] (.lcdDone .single) ∧
    (busyAt (.lcdWrs 0xFFFF) [] .strRead ⟨[], [], []⟩).seq = .busy (.lcdWrs 0xFFFF) [] .strRead ∧
    (busyAt (.lcdWrs 0xFFFF) [] .strRead ⟨[], [], []⟩).loc.c = 0x00 ∧
    (busyAt .lcdInit [] (.lcdDone (.init [])) ⟨[], [], []⟩).seq = .busy .lcdInit [] (.lcdDone (.init [])) := ⟨rfl, rfl, rfl, rfl, rfl⟩
/-- The engine's action complete, in any two-wire operation. -/
def completed (i : Instr) : State := { busyAt i [] .twiUntil ⟨[], [], []⟩ with loc := ⟨false, false, false, true, 0⟩ }
theorem witness_TwiReturns (i : Instr) : (completed i).loc.tc = true ∧ (completed i).seq = .busy i [] .twiUntil := ⟨rfl, rfl⟩
/-- The last pulse of sample number `k + 1` of an operation. -/
def lastPulse (i : Instr) (k : BitVec 8) : State := { busyAt i [] (.adcPulse .only) ⟨[], [], []⟩ with adcCnt := 23, avgI := k }
/-- Each clause, at the largest count. -/
theorem witness_AdcWghReturns (i : Instr) : (lastPulse i 254).adcCnt = 23 ∧ (lastPulse i 254).params.adcExtraPulses = 0 ∧
    (lastPulse i 254).seq = .busy i [] (.adcPulse .only) ∧ (lastPulse i 254).avgI.toNat + 1 = 255 ∧ (lastPulse i 99).avgI = 99 :=
  ⟨rfl, rfl, rfl, rfl, rfl⟩
/-- The finite results that `AdcWghReturns` asks of `WGH.MASS 1` and of `WGH.CAL 100.0`. -/
theorem witness_AdcWghReturns_finite :
    isFinite (fdiv (fsub (fdiv (fadd 0#32 (u2f (rawSample (shiftIn 0#24 true)).toNat)) (u2f 1)) 0x4B000000#32) 0x43D20000#32) = true ∧
    isFinite (fdiv (fsub (fdiv (fadd 0#32 (u2f (rawSample (shiftIn 0#24 true)).toNat)) (u2f 100)) 0x4B000000#32) 0x42C80000#32) = true := by
  decide +kernel
theorem witness_DspReturns :
    (busyAt (.dspRun 0) [.ret .ok (.next .main)] .finished ⟨[], [], []⟩).seq = .busy (.dspRun 0) [.ret .ok (.next .main)] .finished ∧
    (busyAt (.dspRun 0) [.ret .insufficient (.next .weight)] .finished ⟨[], [], []⟩).seq =
      .busy (.dspRun 0) [.ret .insufficient (.next .weight)] .finished := ⟨rfl, rfl⟩
/-- The largest raw sample, which is the largest number `SamplesConvertExactly` speaks of. -/
theorem witness_SamplesConvertExactly : 16777215 < 2 ^ 24 ∧ u2f 16777215 = 0x4B7FFFFF#32 := ⟨by decide, by decide +kernel⟩
/-- 1 and 2^-24: their sum is a tie; 1 - 2^-25 is one too; 1/3 is none. The largest finite value and half its last place sum to the midpoint, which
is infinite; one less than that half does not reach it. -/
theorem witness_RoundsToNearestEven : isFinite 0x3F800000#32 = true ∧ isFinite 0x33800000#32 = true ∧
    fadd 0x3F800000#32 0x33800000#32 = 0x3F800000#32 ∧ fsub 0x3F800000#32 0x33000000#32 = 0x3F800000#32 ∧ isZero 0x40400000#32 = false ∧
    fdiv 0x3F800000#32 0x40400000#32 = 0x3EAAAAAB#32 ∧
    units 0x7F7FFFFF#32 + units 0x73000000#32 = (2 ^ 25 - 1) * 2 ^ 252 ∧ fadd 0x7F7FFFFF#32 0x73000000#32 = 0x7F800000#32 ∧
    fadd 0x7F7FFFFF#32 0x72FFFFFF#32 = 0x7F7FFFFF#32 := by decide +kernel
/-- Two finite values of either sign, a NaN, the two zeros. -/
theorem witness_ComparisonsOrderValues : isFinite 0xBF800000#32 = true ∧ isFinite 0x3F800000#32 = true ∧ isNaN 0x7FC00000#32 = true ∧
    isZero 0x00000000#32 = true ∧ isZero 0x80000000#32 = true := by decide

end Sys2Proof.Tests
end

namespace Sys2Proof.Machine

/-! ### Steps: one event each, and what no primitive touches -/

/-- `t` has the string memory, the parameters and the calibration of `s`: what no primitive writes (R7, R36, R51). -/
structure SameStore (s t : State) : Prop where
  strmem : t.strmem = s.strmem
  params : t.params = s.params
  wghOffset : t.wghOffset = s.wghOffset
  wghScale : t.wghScale = s.wghScale

/-- A primitive moves pins, local variables, the two-wire engine and the response, never memory, parameters or calibration. -/
theorem doPrim_sameStore (op : Instr) (p : Prim) (s : State) : SameStore s (doPrim op p s) := by
  cases p with
  | pinWrite p v => rw [doPrim, pinWrite_spec]; exact ⟨rfl, rfl, rfl, rfl⟩
  | readBusy => obtain ⟨_, _, _, h⟩ := readBusy_spec s; rw [doPrim, h]; exact ⟨rfl, rfl, rfl, rfl⟩
  | readReady => obtain ⟨_, _, _, h⟩ := readReady_spec s; rw [doPrim, h]; exact ⟨rfl, rfl, rfl, rfl⟩
  | readBit => obtain ⟨_, _, _, h⟩ := readBit_spec s; rw [doPrim, h]; exact ⟨rfl, rfl, rfl, rfl⟩
  | twiPoll => obtain ⟨_, _, _, h⟩ := pollTwi_spec s; rw [doPrim, h]; exact ⟨rfl, rfl, rfl, rfl⟩
  | _ => exact ⟨rfl, rfl, rfl, rfl⟩

theorem silent_strmem {s s' : State} (h : Silent s s') : s'.strmem = s.strmem := by rw [h]
theorem silent_params {s s' : State} (h : Silent s s') : s'.params = s.params := by rw [h]
theorem silent_hist {s s' : State} (h : Silent s s') : s'.hist = s.hist := by rw [h]

/-- Settles O13: acceptance appends `Cmd`; any other step of the operation runs one primitive, after silent statements at most. -/
theorem oneEventPerStep : Obligations.OneEventPerStep := by
  intro i s t hs h
  rcases exec_cases h with ⟨-, -, rfl⟩ | ⟨p, rest, place, -, rfl⟩ | ⟨place, s', p, rest, place', -, hr, rfl⟩ |
    ⟨j, todo, place, hj, hne, -⟩
  · exact ⟨_, accept_hist s i⟩
  · exact doPrim_hist i p _
  · obtain ⟨e, he⟩ := doPrim_hist i p { s' with seq := .busy i rest place' }
    exact ⟨e, by rw [he, silent_hist ((resume_silent i place s).silent hr)]⟩
  · simp [State.running, hj, hne] at hs

/-- One step of an operation keeps string memory and the parameters. -/
theorem exec_strmem_params {i : Instr} {s t : State} (h : exec i s = .next t) : t.strmem = s.strmem ∧ t.params = s.params := by
  rcases exec_cases h with ⟨-, -, rfl⟩ | ⟨p, rest, place, -, rfl⟩ | ⟨place, s', p, rest, place', -, hr, rfl⟩ | ⟨-, -, -, -, -, rfl⟩
  · exact ⟨rfl, rfl⟩
  · have hp := doPrim_sameStore i p { s with seq := .busy i rest place }
    exact ⟨hp.strmem, hp.params⟩
  · have hp := doPrim_sameStore i p { s' with seq := .busy i rest place' }
    have hq := (resume_silent i place s).silent hr
    have hm := silent_strmem hq
    have hc := silent_params hq
    exact ⟨hp.strmem.trans hm, hp.params.trans hc⟩
  · exact ⟨rfl, rfl⟩

/-- No step of a powered block writes string memory (R51). -/
theorem step_strmem {s t : State} (hp : s.powerCycle = false) (h : step s = .next t) : t.strmem = s.strmem := by
  rcases step_cases h with ⟨hp', -⟩ | ⟨-, -, -, rfl⟩ | ⟨-, -, -, i, -, -, rfl⟩ | ⟨-, i, todo, place, -, hx⟩
  · simp [hp] at hp'
  · rfl
  · rfl
  · exact (exec_strmem_params hx).1

/-- The step to the next string byte wraps at 2^16 (R51). -/
theorem nextStringAddr_toNat (a : StrAddr) : (nextStringAddr a).toNat = (a.toNat + 1) % 65536 := BitVec.toNat_add a 1#16

/-- A byte the host writes into the memory of an idle block is read back, every other byte reads as before (R225). -/
theorem hostWriteString_strByte {s : State} (hm : Memory.wf s.strmem = true) (hs : s.seq = .idle) (a b : StrAddr) (v : Byte) :
    (s.hostWriteString a v).strByte b = if b = a then v else s.strByte b := by
  have hidle : s.isBusy = false := by simp [State.isBusy, hs]
  simp only [State.hostWriteString, hidle, State.strByte, Bool.false_eq_true, if_false]
  simpa only [BitVec.toNat_inj] using memory_read_write (a := a.toNat) (b := b.toNat) (v := v) hm

/-- Settles O16: the four facts about string memory, each a lemma of its own. -/
theorem stringMemory : Obligations.StringMemory :=
  ⟨fun _ _ => step_strmem, fun _ s => ⟨by rw [doPrim, readString_loc], readString_hist s⟩, nextStringAddr_toNat,
    fun _ a b v hm hs => hostWriteString_strByte hm hs a b v⟩

/-- Settles O18: a restart keeps the parameters by its definition, acceptance and the steps of an operation by the lemmas on them. -/
theorem paramsConstant : Obligations.ParamsConstant := by
  intro s t h
  rcases step_cases h with ⟨-, rfl⟩ | ⟨-, -, -, rfl⟩ | ⟨-, -, -, i, -, -, rfl⟩ | ⟨-, i, todo, place, -, hx⟩
  · rfl
  · rfl
  · rfl
  · exact (exec_strmem_params hx).2

/-! ### The last steps -/

/-- Settles O51: at each of the four places the pseudocode returns, and the response is all the step writes besides `lcd_inited`. -/
theorem lcdReturns : Obligations.LcdReturns := by
  intro s
  refine ⟨fun code u hs => ?_, fun byte u hs => ?_, fun addr hs hc => ?_, fun hs => ?_⟩
  · exact ⟨_, exec_returning hs rfl, rfl⟩
  · exact ⟨_, exec_returning hs rfl, rfl⟩
  · exact ⟨_, exec_returning hs (if_pos hc), rfl⟩
  · exact ⟨_, exec_returning hs rfl, rfl⟩

/-- Settles O52: with the last poll answered 1, `until tc = 1` is over and the pseudocode returns. -/
theorem twiReturns : Obligations.TwiReturns := by
  intro s htc
  refine ⟨fun hs => ?_, fun hs => ?_, fun b hs => ?_, fun hs => ?_, fun hs => ?_⟩
  · exact ⟨_, exec_returning hs (if_pos htc), rfl⟩
  · exact ⟨_, exec_returning hs (if_pos htc), rfl⟩
  · exact ⟨_, exec_returning hs (if_pos htc), rfl⟩
  · exact ⟨_, exec_returning hs (if_pos htc), rfl⟩
  · exact ⟨_, exec_returning hs (if_pos htc), rfl⟩

end Sys2Proof.Machine

namespace Sys2Proof.Machine

/-! ### Who writes the calibration (R36, R165, R166) -/

/-- `t` has the calibration of `s`. -/
def SameCalibration (s t : State) : Prop := t.wghOffset = s.wghOffset ∧ t.wghScale = s.wghScale

theorem sameCalibration_refl (s : State) : SameCalibration s s := ⟨rfl, rfl⟩

/-- The state in which an advance goes on, with the primitive it calls next, meets `Q`; a fault goes on with nothing. -/
def Advance.Goes (Q : State → Prim → Prop) : Advance → Prop
  | .go t p _ _ => Q t p
  | .fault _ => True

theorem goes_ite {Q : State → Prim → Prop} {c : Prop} [Decidable c] {a b : Advance} (ha : a.Goes Q) (hb : b.Goes Q) :
    (if c then a else b).Goes Q := by split <;> assumption

theorem goes_returning {Q : State → Prim → Prop} {t : State} {o : RspOutcome} {v : RetVal} (h : Q t (.ret o v)) :
    (returning t o v).Goes Q := h

section Blocks

/-! A condition that every state with the calibration of `s` meets is met wherever a helper procedure goes on, once the caller's
continuation meets it. -/

variable {s : State} {Q : State → Prim → Prop}

theorem goes_massFinish {t : State} (h : SameCalibration s t) (a : FLOAT) {done : FLOAT → State → Advance}
    (hd : ∀ a t, SameCalibration s t → (done a t).Goes Q) : (massFinish done a t).Goes Q := goes_ite (hd _ _ h) trivial

variable (hQ : ∀ t p, SameCalibration s t → Q t p)
include hQ

theorem goes_until (u : LcdUse) : (lcdUntil u s).Goes Q :=
  goes_ite (hQ _ _ ⟨rfl, rfl⟩) (hQ _ _ ⟨rfl, rfl⟩)

theorem goes_message {t : State} (h : SameCalibration s t) (m : Msg) (elems : List MsgElem)
    {done : State → Advance} (hd : (done t).Goes Q) : (showMessage m elems done t).Goes Q := by
  match elems with
  | [] => exact hd
  | .instr _ :: _ => exact hQ _ _ h
  | .char _ :: _ => exact hQ _ _ h

theorem goes_averageStart {t : State} (h : SameCalibration s t) (n : Nat) (q : Reading) :
    (averageStart n q t).Goes Q := goes_ite trivial (hQ _ _ h)

theorem goes_massStart {t : State} (h : SameCalibration s t) (n : Nat) (q : Reading) :
    (massStart n q t).Goes Q := goes_ite trivial (goes_ite trivial (goes_averageStart hQ h n q))

theorem goes_averageAfterSample {t : State} (h : SameCalibration s t) (n : Nat) (q : Reading)
    {done : FLOAT → State → Advance} (hd : ∀ a t, SameCalibration s t → (done a t).Goes Q) : (averageAfterSample n q done t).Goes Q :=
  goes_ite (hQ _ _ h) (hd _ _ h)

theorem goes_resumeSample {done : Reading → State → Advance} (hd : ∀ q t, SameCalibration s t → (done q t).Goes Q) (place : Place) :
    (resumeSample done place s).Goes Q := by
  cases place with
  | adcUntil q => exact goes_ite (hQ _ _ ⟨rfl, rfl⟩) (hQ _ _ ⟨rfl, rfl⟩)
  | adcPulse q =>
    refine goes_ite (hQ _ _ ⟨rfl, rfl⟩) ?_
    split
    · exact hd q _ ⟨rfl, rfl⟩
    · exact hQ _ _ ⟨rfl, rfl⟩
  | adcExtra q => exact hd q _ ⟨rfl, rfl⟩
  | _ => trivial

/-- The pseudocode of a display operation, from any place. -/
theorem goes_resumeLcd {i : Instr} (hi : usesDisplay i = true) (hd : isDispense i = false)
    (place : Place) : (resumeOf i place s).Goes Q := by
  have hs := sameCalibration_refl s
  cases i <;> simp only [usesDisplay, isDispense, Bool.false_eq_true, reduceCtorEq] at hi hd
  case lcdInit =>
    simp only [resumeOf, resumeLcdInit]
    split
    · exact hQ _ _ hs
    · exact goes_until hQ _
    · unfold lcdInitSteps
      split <;> exact hQ _ _ hs
    · trivial
  case lcdWri code | lcdWrc byte =>
    cases place with
    | start => exact hQ _ _ hs
    | lcdUntil u => exact goes_until hQ u
    | lcdDone u => exact hQ _ _ hs
    | _ => trivial
  case lcdWrs addr =>
    cases place with
    | start => exact hQ _ _ hs
    | strRead => exact goes_ite (hQ _ _ hs) (hQ _ _ hs)
    | lcdUntil u => exact goes_until hQ u
    | lcdDone u => exact hQ _ _ hs
    | _ => trivial

/-- The pseudocode of a two-wire operation, from any place. -/
theorem goes_resumeTwi {i : Instr} (hi : usesTwi i = true) (place : Place) :
    (resumeOf i place s).Goes Q := by
  have hs := sameCalibration_refl s
  cases i <;> simp only [usesTwi, Bool.false_eq_true] at hi
  all_goals
    cases place with
    | start => exact hQ _ _ hs
    | twiUntil => exact goes_ite (hQ _ _ hs) (hQ _ _ hs)
    | _ => trivial

/-- The pseudocode of `DSP.RUN`, from any place. -/
theorem goes_resumeDspRun (target : FLOAT) (place : Place) :
    (resumeDspRun target place s).Goes Q := by
  have hs := sameCalibration_refl s
  have message (m : Msg) (t : State) (h : SameCalibration s t) : (dspAfterMessage m t).Goes Q := by
    cases m with
    | wait => exact goes_massStart hQ h ..
    | insuff => exact hQ _ _ h
    | done => exact hQ _ _ h
  have gate (a : FLOAT) (t : State) (h : SameCalibration s t) : (dspGate a t).Goes Q :=
    goes_ite (goes_message hQ (t := { t with dspBase := a }) h _ _ (message .insuff _ h)) (hQ _ _ h)
  have test (a : FLOAT) (t : State) (h : SameCalibration s t) : (dspTest a t).Goes Q := goes_ite (hQ _ _ h) (hQ _ _ h)
  have sample (q : Reading) (t : State) (h : SameCalibration s t) : (dspAfterSample q t).Goes Q := by
    cases q with
    | only => trivial
    | base => exact goes_averageAfterSample hQ h _ _ fun a t h => goes_massFinish h a gate
    | loop => exact goes_averageAfterSample hQ h _ _ fun a t h => goes_massFinish h a test
  unfold resumeDspRun
  split
  · exact goes_ite trivial (goes_message hQ (t := { s with dspTarget := target }) hs _ _ (message .wait _ hs))
  · exact goes_until hQ _
  · exact goes_message hQ hs _ _ (message _ s hs)
  · exact goes_massStart hQ hs 1 .loop
  · exact goes_resumeSample hQ sample place

end Blocks

/-- Operation `i` goes on from `s` in `t` with `p`: the offset is as before unless `WGH.TARE` returns, the scale unless `WGH.CAL`
returns. -/
structure CalibrationAtReturn (i : Instr) (s t : State) (p : Prim) : Prop where
  offset : t.wghOffset ≠ s.wghOffset → (∃ n, i = .wghTare n) ∧ p.isRet = true
  scale : t.wghScale ≠ s.wghScale → (∃ ref, i = .wghCal ref) ∧ p.isRet = true

theorem SameCalibration.atReturn {s t : State} (h : SameCalibration s t) (i : Instr) (p : Prim) : CalibrationAtReturn i s t p :=
  ⟨fun hne => absurd h.1 hne, fun hne => absurd h.2 hne⟩

/-- The pseudocode of an operation writes the calibration just before the `return` of `WGH.TARE` and of `WGH.CAL` only. -/
theorem resume_calibration (i : Instr) (place : Place) (s : State) : (resumeOf i place s).Goes (CalibrationAtReturn i s) := by
  have hQ (t : State) (p : Prim) (h : SameCalibration s t) : CalibrationAtReturn i s t p := h.atReturn i p
  have hs := sameCalibration_refl s
  cases i with
  | lcdInit | lcdWri | lcdWrc | lcdWrs => exact goes_resumeLcd hQ rfl rfl place
  | twiStart | twiStop | twiWrb | twiRda | twiRdn => exact goes_resumeTwi hQ rfl place
  | dspRun target => exact goes_resumeDspRun hQ target place
  | adcRaw =>
    simp only [resumeOf, resumeAdcRaw]
    split
    · exact hQ _ _ hs
    · exact goes_resumeSample hQ (fun _ _ h => goes_returning (hQ _ _ h)) place
  | adcAvg n =>
    simp only [resumeOf, resumeAdcAvg]
    split
    · exact goes_averageStart hQ hs ..
    · exact goes_resumeSample hQ (fun q _ h => goes_averageAfterSample hQ h n q fun _ _ h => goes_returning (hQ _ _ h)) place
  | wghMass n =>
    simp only [resumeOf, resumeWghMass]
    split
    · exact goes_massStart hQ hs ..
    · exact goes_resumeSample hQ (fun q _ h => goes_averageAfterSample hQ h n q fun a _ h =>
        goes_massFinish h a fun _ _ h => goes_returning (hQ _ _ h)) place
  | wghTare n =>
    have tare (a : FLOAT) (t : State) (h : SameCalibration s t) :
        (returning { t with wghOffset := a } .ok .none).Goes (CalibrationAtReturn (.wghTare n) s) :=
      ⟨fun _ => ⟨⟨n, rfl⟩, rfl⟩, fun hne => absurd h.2 hne⟩
    simp only [resumeOf, resumeWghTare]
    split
    · exact goes_averageStart hQ hs ..
    · exact goes_resumeSample hQ (fun q _ h => goes_averageAfterSample hQ h n q tare) place
  | wghCal ref =>
    have calibrate (a : FLOAT) (t : State) (h : SameCalibration s t) :
        (calibrateFinish ref a t).Goes (CalibrationAtReturn (.wghCal ref) s) :=
      goes_ite ⟨fun hne => absurd h.1 hne, fun _ => ⟨⟨ref, rfl⟩, rfl⟩⟩ trivial
    simp only [resumeOf, resumeWghCal]
    split
    · exact goes_ite trivial (goes_ite trivial (goes_averageStart hQ hs ..))
    · exact goes_resumeSample hQ (fun q _ h => goes_averageAfterSample hQ h _ q calibrate) place

/-- A `return` leaves the block idle (R16). -/
theorem doPrim_seq_of_isRet {op : Instr} {p : Prim} (h : p.isRet = true) (s : State) : (doPrim op p s).seq = .idle := by
  cases p <;> simp only [Prim.isRet, Bool.false_eq_true] at h
  rfl

/-- One step of an operation: it is that of a `return` of `WGH.TARE` if the offset changes, of `WGH.CAL` if the scale changes. -/
theorem exec_calibration {i : Instr} {s t : State} (h : exec i s = .next t) :
    (t.wghOffset ≠ s.wghOffset → (∃ n, i = .wghTare n) ∧ t.seq = .idle) ∧
    (t.wghScale ≠ s.wghScale → (∃ ref, i = .wghCal ref) ∧ t.seq = .idle) := by
  rcases exec_cases h with ⟨-, -, rfl⟩ | ⟨p, rest, place, -, rfl⟩ | ⟨place, s', p, rest, place', -, hr, rfl⟩ | ⟨-, -, -, -, -, rfl⟩
  · exact ⟨fun hne => absurd rfl hne, fun hne => absurd rfl hne⟩
  · have hp := doPrim_sameStore i p { s with seq := .busy i rest place }
    exact ⟨fun hne => absurd hp.wghOffset hne, fun hne => absurd hp.wghScale hne⟩
  · have hc : CalibrationAtReturn i s s' p := by have := resume_calibration i place s; rwa [hr] at this
    have hp := doPrim_sameStore i p { s' with seq := .busy i rest place' }
    rw [hp.wghOffset, hp.wghScale]
    exact ⟨fun hne => ⟨(hc.offset hne).1, doPrim_seq_of_isRet (hc.offset hne).2 _⟩,
      fun hne => ⟨(hc.scale hne).1, doPrim_seq_of_isRet (hc.scale hne).2 _⟩⟩
  · exact ⟨fun hne => absurd rfl hne, fun hne => absurd rfl hne⟩

/-- Settles O19: only the steps of a running operation can change the calibration, and of these only the two returns do. -/
theorem calibrationWriters : Obligations.CalibrationWriters := by
  intro s t hp h
  rcases step_cases h with ⟨hp', -⟩ | ⟨-, -, -, rfl⟩ | ⟨-, -, -, i, -, -, rfl⟩ | ⟨-, i, todo, place, hs, hx⟩
  · simp [hp] at hp'
  · exact ⟨fun hne => absurd rfl hne, fun hne => absurd rfl hne⟩
  · exact ⟨fun hne => absurd rfl hne, fun hne => absurd rfl hne⟩
  · have hrun : s.running = some i := by rw [State.running, hs]
    simp only [hrun, Option.some.injEq]
    exact exec_calibration hx

end Sys2Proof.Machine

namespace Sys2Proof.Machine

/-! ### The fields of a `FLOAT` as one number -/

/-- Exponent and fraction field together, `f[30:0]`: what is left of the bits without the sign. -/
def fieldBits (f : FLOAT) : Nat := (f.extractLsb' 0 31).toNat

/-- The magnitude, in units of 2^-149, that exponent and fraction field `p` stand for. -/
def unitsOfBits (p : Nat) : Nat := if p / 2 ^ 23 = 0 then p % 2 ^ 23 else (2 ^ 23 + p % 2 ^ 23) * 2 ^ (p / 2 ^ 23 - 1)

/-- A magnitude with a sign. -/
def signedBy (neg : Bool) (n : Nat) : Int := if neg then -(n : Int) else n

theorem fieldBits_eq_mod (f : FLOAT) : fieldBits f = f.toNat % 2 ^ 31 := by simp [fieldBits]

theorem floatExponent_eq (f : FLOAT) : floatExponent f = fieldBits f / 2 ^ 23 := by
  simp only [floatExponent, fieldBits_eq_mod, BitVec.extractLsb'_toNat, Nat.shiftRight_eq_div_pow]
  omega

theorem floatFraction_eq (f : FLOAT) : floatFraction f = fieldBits f % 2 ^ 23 := by
  simp only [floatFraction, fieldBits_eq_mod, BitVec.extractLsb'_toNat, Nat.shiftRight_zero]
  omega

theorem magnitude_eq (f : FLOAT) : magnitude f = unitsOfBits (fieldBits f) := by
  rw [magnitude, floatExponent_eq, floatFraction_eq, unitsOfBits]

theorem units_eq (f : FLOAT) : units f = signedBy (floatSign f) (magnitude f) := rfl

theorem floatOrder_eq (f : FLOAT) : floatOrder f = signedBy (floatSign f) (fieldBits f) := rfl

/-- The fields of a finite value are below those of infinity, `0x7F800000`. -/
theorem isFinite_iff (f : FLOAT) : isFinite f = true ↔ fieldBits f < 255 * 2 ^ 23 := by
  have h : fieldBits f < 2 ^ 31 := (f.extractLsb' 0 31).isLt
  rw [isFinite, floatExponent_eq, bne_iff_ne]
  omega

theorem isZero_iff (f : FLOAT) : isZero f = true ↔ fieldBits f = 0 := by
  rw [isZero, floatExponent_eq, floatFraction_eq, Bool.and_eq_true, beq_iff_eq, beq_iff_eq]
  omega

theorem isNaN_of_finite {f : FLOAT} (h : isFinite f = true) : isNaN f = false := by
  rw [isFinite, bne_iff_ne] at h
  simp [isNaN, h]

theorem isInfinite_of_finite {f : FLOAT} (h : isFinite f = true) : isInfinite f = false := by
  rw [isFinite, bne_iff_ne] at h
  simp [isInfinite, h]

theorem unitsOfBits_fields (e : Nat) {r : Nat} (hr : r < 2 ^ 23) :
    unitsOfBits (e * 2 ^ 23 + r) = if e = 0 then r else (2 ^ 23 + r) * 2 ^ (e - 1) := by
  have he : (e * 2 ^ 23 + r) / 2 ^ 23 = e := by omega
  have hf : (e * 2 ^ 23 + r) % 2 ^ 23 = r := by omega
  rw [unitsOfBits, he, hf]

/-- The exponent field of the next bits is the same unless the fraction is full; then the next binade begins. -/
theorem unitsOfBits_strictMono : StrictMono unitsOfBits := by
  refine strictMono_nat_of_lt_succ fun p => ?_
  obtain ⟨e, r, hr, rfl⟩ : ∃ e r, r < 2 ^ 23 ∧ p = e * 2 ^ 23 + r := ⟨p / 2 ^ 23, p % 2 ^ 23, by omega, by omega⟩
  rw [unitsOfBits_fields e hr]
  by_cases hfull : r + 1 = 2 ^ 23
  · rw [show e * 2 ^ 23 + r + 1 = (e + 1) * 2 ^ 23 + 0 by omega, unitsOfBits_fields (e + 1) (by decide)]
    cases e with
    | zero => simpa using hr
    | succ e =>
      have hpos : 0 < 2 ^ e := by positivity
      simp only [Nat.add_eq_zero_iff, one_ne_zero, and_false, if_false, Nat.add_sub_cancel, pow_succ]
      nlinarith
  · rw [Nat.add_assoc, unitsOfBits_fields e (r := r + 1) (by omega)]
    split
    · omega
    · exact Nat.mul_lt_mul_of_pos_right (by omega) (by positivity)

/-! ### Comparisons -/

/-- A strictly rising map of magnitudes that keeps 0 keeps the order of signed magnitudes; the two zeros stay equal. -/
theorem signedBy_lt_iff {u : Nat → Nat} (hu : StrictMono u) (h0 : u 0 = 0) (s s' : Bool) (p q : Nat) :
    signedBy s (u p) < signedBy s' (u q) ↔ signedBy s p < signedBy s' q := by
  have hp : 0 < u p ↔ 0 < p := by rw [← h0, hu.lt_iff_lt, h0]
  have hq : 0 < u q ↔ 0 < q := by rw [← h0, hu.lt_iff_lt, h0]
  have hpq := hu.lt_iff_lt (a := p) (b := q)
  have hqp := hu.lt_iff_lt (a := q) (b := p)
  cases s <;> cases s' <;> simp only [signedBy, if_true, if_false, Bool.false_eq_true] <;> omega

/-- Finite values are ordered as their bits are. -/
theorem units_lt_iff (a b : FLOAT) : units a < units b ↔ floatOrder a < floatOrder b := by
  rw [units_eq, units_eq, magnitude_eq, magnitude_eq, signedBy_lt_iff unitsOfBits_strictMono rfl, floatOrder_eq, floatOrder_eq]

theorem flt_eq {a b : FLOAT} (ha : isNaN a = false) (hb : isNaN b = false) : flt a b = decide (floatOrder a < floatOrder b) := by
  simp [flt, ha, hb]

theorem fge_eq {a b : FLOAT} (ha : isNaN a = false) (hb : isNaN b = false) : fge a b = decide (floatOrder b ≤ floatOrder a) := by
  simp [fge, ha, hb]

theorem flt_fge_of_nan {a b : FLOAT} (h : isNaN a = true ∨ isNaN b = true) : flt a b = false ∧ fge a b = false := by
  rcases h with h | h <;> simp [flt, fge, h]

theorem isFinite_of_isZero {f : FLOAT} (h : isZero f = true) : isFinite f = true := by
  rw [isZero_iff] at h; rw [isFinite_iff, h]; decide

theorem units_of_isZero {f : FLOAT} (h : isZero f = true) : units f = 0 := by
  rw [isZero_iff] at h; rw [units_eq, magnitude_eq, h]; cases floatSign f <;> rfl

theorem flt_of_finite {a b : FLOAT} (ha : isFinite a = true) (hb : isFinite b = true) : flt a b = true ↔ units a < units b := by
  rw [flt_eq (isNaN_of_finite ha) (isNaN_of_finite hb), decide_eq_true_iff, units_lt_iff]

theorem fge_of_finite {a b : FLOAT} (ha : isFinite a = true) (hb : isFinite b = true) : fge a b = true ↔ units b ≤ units a := by
  rw [fge_eq (isNaN_of_finite ha) (isNaN_of_finite hb), decide_eq_true_iff, ← not_lt, ← not_lt, units_lt_iff]

/-- The bits of a finite value lie strictly between those of the two infinities. -/
theorem floatOrder_finite {a : FLOAT} (ha : isFinite a = true) :
    floatOrder (floatInfinity true) < floatOrder a ∧ floatOrder a < floatOrder (floatInfinity false) := by
  have hlo : floatOrder (floatInfinity true) = -(255 * 2 ^ 23) := by decide
  have hhi : floatOrder (floatInfinity false) = 255 * 2 ^ 23 := by decide
  rw [isFinite_iff] at ha
  rw [hlo, hhi, floatOrder_eq, signedBy]
  split <;> omega

/-- Settles O58: `floatOrder` orders finite values as `units` does, and has the infinities at its two ends. -/
theorem comparisonsOrderValues : Obligations.ComparisonsOrderValues := by
  refine ⟨fun a b ha hb => ⟨flt_of_finite ha hb, fge_of_finite ha hb⟩, fun a b => flt_fge_of_nan, fun a b ha hb => ?_, fun a ha => ?_⟩
  · have hab : units a = units b := by rw [units_of_isZero ha, units_of_isZero hb]
    have fa := isFinite_of_isZero ha
    have fb := isFinite_of_isZero hb
    exact ⟨by rw [← Bool.not_eq_true, flt_of_finite fa fb]; exact hab.not_lt, (fge_of_finite fa fb).2 hab.ge⟩
  · obtain ⟨hlo, hhi⟩ := floatOrder_finite ha
    have hn := isNaN_of_finite ha
    have hinf (neg : Bool) : isNaN (floatInfinity neg) = false := by cases neg <;> decide
    simp only [flt_eq hn (hinf _), flt_eq (hinf _) hn, fge_eq hn (hinf _), fge_eq (hinf _) hn, decide_eq_true_eq, decide_eq_false_iff_not]
    omega

end Sys2Proof.Machine

namespace Sys2Proof.Machine

/-! ### Rounding once -/

/-- The quotient is left as it is or raised by one, whichever is nearer; a tie goes to the even one. -/
theorem divNearestEven_cases (n d : Nat) :
    (divNearestEven n d = n / d ∧ 2 * (n % d) ≤ d ∧ (2 * (n % d) = d → n / d % 2 = 0)) ∨
    (divNearestEven n d = n / d + 1 ∧ d ≤ 2 * (n % d) ∧ (2 * (n % d) = d → n / d % 2 = 1)) := by
  unfold divNearestEven
  split <;> omega

/-- Among all integers `divNearestEven` is nearest to `n / d`, and even where another one is as near. -/
theorem divNearestEven_nearest {n d : Nat} (hd : 0 < d) (j : Int) :
    |(divNearestEven n d : Int) * d - n| ≤ |j * d - n| ∧
    (j ≠ divNearestEven n d → |(divNearestEven n d : Int) * d - n| = |j * d - n| → divNearestEven n d % 2 = 0) := by
  have hn : (n : Int) = (n / d : Nat) * d + (n % d : Nat) := by exact_mod_cast (Nat.div_add_mod' n d).symm
  have hr : n % d < d := Nat.mod_lt n hd
  have hcases := divNearestEven_cases n d
  rw [hn]
  generalize divNearestEven n d = m at *
  generalize n / d = q at *
  generalize n % d = r at *
  obtain ⟨t, rfl⟩ : ∃ t : Int, j = q + t := ⟨j - q, by ring⟩
  have hj : (q + t) * (d : Int) - (q * d + r) = t * d - r := by ring
  have hneg : t ≤ -1 → t * d ≤ -d := fun h => by nlinarith
  have hzero : t = 0 → t * d = 0 := fun h => by rw [h, zero_mul]
  have hone : t = 1 → t * d = d := fun h => by rw [h, one_mul]
  have htwo : 2 ≤ t → 2 * d ≤ t * d := fun h => by nlinarith
  rw [hj]
  rcases hcases with ⟨rfl, hle, htie⟩ | ⟨rfl, hle, htie⟩
  · have hdist : (m : Int) * d - (m * d + r) = -r := by ring
    rw [hdist, Int.abs_eq_natAbs, Int.abs_eq_natAbs]
    omega
  · have hdist : ((q + 1 : Nat) : Int) * d - (q * d + r) = d - r := by push_cast; ring
    rw [hdist, Int.abs_eq_natAbs, Int.abs_eq_natAbs]
    omega

/-- Where the rounded quotient leaves an odd bound: from the tie on, which goes to the even number above. -/
theorem divNearestEven_le_iff {n d b : Nat} (hd : 0 < d) (hb : b % 2 = 1) : divNearestEven n d ≤ b ↔ 2 * n < (2 * b + 1) * d := by
  have hn := Nat.div_add_mod' n d
  have hr : n % d < d := Nat.mod_lt n hd
  have hcases := divNearestEven_cases n d
  have hbd : (2 * b + 1) * d = 2 * (b * d) + d := by ring
  rcases lt_trichotomy (n / d) b with hq | hq | hq
  · have := Nat.mul_le_mul_right d (Nat.succ_le_of_lt hq)
    rw [Nat.succ_mul] at this
    omega
  · rw [hq] at hn hcases
    omega
  · have := Nat.mul_le_mul_right d (Nat.succ_le_of_lt hq)
    rw [Nat.succ_mul] at this
    omega

theorem divNearestEven_of_dvd {n d : Nat} (h : d ∣ n) : divNearestEven n d = n / d := by
  have h0 := Nat.mod_eq_zero_of_dvd h
  rcases divNearestEven_cases n d with ⟨hm, -, -⟩ | ⟨hm, hle, htie⟩
  · exact hm
  · rw [h0] at hle htie
    obtain rfl : d = 0 := by omega
    simp [Nat.div_zero] at htie

theorem divNearestEven_mul_right {n d c : Nat} (hc : 0 < c) : divNearestEven (n * c) (d * c) = divNearestEven n d := by
  have hgt : 2 * (n % d * c) > d * c ↔ 2 * (n % d) > d := by rw [← mul_assoc]; exact Nat.mul_lt_mul_right hc
  have heq : 2 * (n % d * c) = d * c ↔ 2 * (n % d) = d := by rw [← mul_assoc]; exact Nat.mul_left_inj hc.ne'
  simp only [divNearestEven, Nat.mul_mod_mul_right, Nat.mul_div_mul_right n d hc, hgt, heq]

/-- The quotient coarsened by `k` fits 24 bits. -/
theorem coarsening_le_iff (q k : Nat) : coarsening q ≤ k ↔ q < 2 ^ (24 + k) := by
  rcases Nat.eq_zero_or_pos q with rfl | hq
  · simp [coarsening]
  · have hlog := Nat.log2_lt (k := 24 + k) hq.ne'
    rw [← hlog, coarsening]
    omega

theorem coarsening_div_le_iff {n d : Nat} (hd : 0 < d) (k : Nat) : coarsening (n / d) ≤ k ↔ n < 2 ^ (24 + k) * d := by
  rw [coarsening_le_iff, Nat.div_lt_iff_lt_mul hd]

/-- The coarsened quotient that `roundFraction` puts into the fields, rounded to an integer. -/
def significand (n d : Nat) : Nat := divNearestEven n (d * 2 ^ coarsening (n / d))

theorem packMagnitude_eq (n d : Nat) : packMagnitude n d = min (coarsening (n / d) * 2 ^ 23 + significand n d) (255 * 2 ^ 23) := rfl

/-- Rounding can reach 2^24, the first number of the next binade. -/
theorem significand_le {n d : Nat} (hd : 0 < d) : significand n d ≤ 2 ^ 24 := by
  have hlt := (coarsening_div_le_iff hd _).1 (le_refl (coarsening (n / d)))
  have hq : n / (d * 2 ^ coarsening (n / d)) < 2 ^ 24 := by
    rw [Nat.div_lt_iff_lt_mul (by positivity)]
    calc n < 2 ^ (24 + coarsening (n / d)) * d := hlt
      _ = 2 ^ 24 * (d * 2 ^ coarsening (n / d)) := by ring
  rcases divNearestEven_cases n (d * 2 ^ coarsening (n / d)) with ⟨hm, -, -⟩ | ⟨hm, -, -⟩ <;> rw [significand, hm] <;> omega

/-- A coarsened quotient has its leading bit: `n / d` is at least the first number of its binade. -/
theorem binade_le {n d : Nat} (hd : 0 < d) (hk : coarsening (n / d) ≠ 0) : 2 ^ (23 + coarsening (n / d)) * d ≤ n := by
  obtain ⟨k, hk⟩ := Nat.exists_eq_succ_of_ne_zero hk
  have hnot := (coarsening_div_le_iff (n := n) hd k).not.1 (by omega)
  rw [hk, show 23 + k.succ = 24 + k by omega]
  omega

theorem le_significand {n d : Nat} (hd : 0 < d) (hk : coarsening (n / d) ≠ 0) : 2 ^ 23 ≤ significand n d := by
  have hq : 2 ^ 23 ≤ n / (d * 2 ^ coarsening (n / d)) := by
    rw [Nat.le_div_iff_mul_le (by positivity)]
    calc 2 ^ 23 * (d * 2 ^ coarsening (n / d)) = 2 ^ (23 + coarsening (n / d)) * d := by ring
      _ ≤ n := binade_le hd hk
  rcases divNearestEven_cases n (d * 2 ^ coarsening (n / d)) with ⟨hm, -, -⟩ | ⟨hm, -, -⟩ <;> rw [significand, hm] <;> omega

/-- The fields `k * 2^23 + m` stand for `m` coarsened by `k`, for a subnormal `m` too and for the one that carries into the exponent. -/
theorem unitsOfBits_scaled {k m : Nat} (hk : k = 0 ∨ 2 ^ 23 ≤ m) (hm : m ≤ 2 ^ 24) : unitsOfBits (k * 2 ^ 23 + m) = m * 2 ^ k := by
  rcases lt_or_ge m (2 ^ 23) with hsub | hnorm
  · obtain rfl : k = 0 := by omega
    rw [unitsOfBits_fields 0 hsub]; simp
  · rcases lt_or_ge m (2 ^ 24) with hlt | hge
    · rw [show k * 2 ^ 23 + m = (k + 1) * 2 ^ 23 + (m - 2 ^ 23) by omega, unitsOfBits_fields (k + 1) (by omega), if_neg (by omega),
        Nat.add_sub_cancel, Nat.add_sub_cancel' hnorm]
    · obtain rfl : m = 2 ^ 24 := by omega
      rw [show k * 2 ^ 23 + 2 ^ 24 = (k + 2) * 2 ^ 23 + 0 by omega, unitsOfBits_fields (k + 2) (by decide), if_neg (by omega)]
      simp only [Nat.add_zero, show k + 2 - 1 = k + 1 by omega]
      ring

/-! ### The rounded value -/

theorem packMagnitude_le (n d : Nat) : packMagnitude n d ≤ 255 * 2 ^ 23 := min_le_right _ _

theorem fieldBits_roundFraction (neg : Bool) (n d : Nat) : fieldBits (roundFraction neg n d) = packMagnitude n d := by
  have hle := packMagnitude_le n d
  rw [fieldBits_eq_mod, roundFraction, BitVec.toNat_ofNat]
  split <;> omega

theorem floatSign_roundFraction (neg : Bool) (n d : Nat) : floatSign (roundFraction neg n d) = neg := by
  have hle := packMagnitude_le n d
  rw [floatSign, roundFraction, BitVec.getLsbD_ofNat, Nat.testBit_eq_decide_div_mod_eq]
  cases neg <;> simp <;> omega

theorem isFinite_roundFraction_iff (neg : Bool) (n d : Nat) :
    isFinite (roundFraction neg n d) = true ↔ coarsening (n / d) * 2 ^ 23 + significand n d < 255 * 2 ^ 23 := by
  rw [isFinite_iff, fieldBits_roundFraction, packMagnitude_eq]
  omega

theorem fieldBits_of_finite {neg : Bool} {n d : Nat} (h : isFinite (roundFraction neg n d) = true) :
    fieldBits (roundFraction neg n d) = coarsening (n / d) * 2 ^ 23 + significand n d := by
  rw [isFinite_roundFraction_iff] at h
  rw [fieldBits_roundFraction, packMagnitude_eq]
  omega

theorem units_roundFraction {neg : Bool} {n d : Nat} (hd : 0 < d) (h : isFinite (roundFraction neg n d) = true) :
    units (roundFraction neg n d) = signedBy neg (significand n d * 2 ^ coarsening (n / d)) := by
  have hk : coarsening (n / d) = 0 ∨ 2 ^ 23 ≤ significand n d := or_iff_not_imp_left.2 (le_significand hd)
  rw [units_eq, floatSign_roundFraction, magnitude_eq, fieldBits_of_finite h, unitsOfBits_scaled hk (significand_le hd)]

/-- The last bit of a finite result is that of its significand. -/
theorem getLsbD_zero_roundFraction {neg : Bool} {n d : Nat} (h : isFinite (roundFraction neg n d) = true)
    (heven : significand n d % 2 = 0) : (roundFraction neg n d).getLsbD 0 = false := by
  have hp := fieldBits_of_finite h
  rw [fieldBits_eq_mod] at hp
  rw [← BitVec.testBit_toNat, Nat.testBit_zero, decide_eq_false_iff_not]
  omega

/-- The result is finite exactly below the midpoint between the largest finite value and the next power of two: in the binade of that
value the quotient rounds to 2^24 from the tie on, since the largest significand is odd. -/
theorem isFinite_roundFraction {neg : Bool} {n d : Nat} (hd : 0 < d) :
    isFinite (roundFraction neg n d) = true ↔ n < (2 ^ 25 - 1) * 2 ^ 252 * d := by
  have hm := significand_le (n := n) hd
  have hlow := coarsening_div_le_iff (n := n) hd 252
  have htop := coarsening_div_le_iff (n := n) hd 253
  rw [isFinite_roundFraction_iff]
  rcases lt_trichotomy (coarsening (n / d)) 253 with hk | hk | hk
  · have hn := hlow.1 (by omega)
    omega
  · have hsig : significand n d = divNearestEven n (d * 2 ^ 253) := by rw [significand, hk]
    have hbound : (2 * (2 ^ 24 - 1) + 1) * (d * 2 ^ 253) = 2 * ((2 ^ 25 - 1) * 2 ^ 252 * d) := by ring
    have hle := divNearestEven_le_iff (n := n) (d := d * 2 ^ 253) (b := 2 ^ 24 - 1) (by positivity) (by decide)
    rw [hbound, ← hsig] at hle
    rw [hk]
    omega
  · have hs := le_significand hd (n := n) (by omega)
    have hn := htop.not.1 (by omega)
    omega

/-! ### What "rounded to nearest, ties to even" says -/

/-- `r` is `num / den` units rounded once: finite exactly below the overflow midpoint, and then nearest among the finite values, with a
last bit of 0 where another value is as near (R9, log 14). -/
structure RoundsTo (r : FLOAT) (num den : Int) : Prop where
  finite_iff : isFinite r = true ↔ |num| < (2 ^ 25 - 1) * 2 ^ 252 * |den|
  nearest : isFinite r = true → ∀ f : FLOAT, isFinite f = true →
    |units r * den - num| ≤ |units f * den - num| ∧
    (units f ≠ units r → |units r * den - num| = |units f * den - num| → r.getLsbD 0 = false)

/-- Every magnitude is a multiple of `2^k` or lies below the binade that is coarsened by `k`. -/
theorem unitsOfBits_onGrid (p k : Nat) : 2 ^ k ∣ unitsOfBits p ∨ unitsOfBits p < 2 ^ (23 + k) := by
  obtain ⟨e, r, hr, rfl⟩ : ∃ e r, r < 2 ^ 23 ∧ p = e * 2 ^ 23 + r := ⟨p / 2 ^ 23, p % 2 ^ 23, by omega, by omega⟩
  rw [unitsOfBits_fields e hr]
  split
  · exact .inr (hr.trans_le (Nat.pow_le_pow_right (by decide) (by omega)))
  · rcases le_or_gt k (e - 1) with hk | hk
    · exact .inl (Dvd.dvd.mul_left (pow_dvd_pow 2 hk) _)
    · right
      calc (2 ^ 23 + r) * 2 ^ (e - 1) < 2 ^ 24 * 2 ^ (e - 1) := Nat.mul_lt_mul_of_pos_right (by omega) (by positivity)
        _ = 2 ^ (24 + (e - 1)) := by rw [← pow_add]
        _ ≤ 2 ^ (23 + k) := Nat.pow_le_pow_right (by decide) (by omega)

/-- The rounded value is nearest to `n / d` among all integers that a `FLOAT` can be: on the grid of its binade by the rounding, and below
that binade nothing is as near, since the binade begins between. -/
theorem significand_nearest {n d : Nat} (hd : 0 < d) {u : Int}
    (hu : 2 ^ coarsening (n / d) ∣ u.natAbs ∨ u.natAbs < 2 ^ (23 + coarsening (n / d))) :
    |((significand n d * 2 ^ coarsening (n / d) : Nat) : Int) * d - n| ≤ |u * d - n| ∧
    (u ≠ (significand n d * 2 ^ coarsening (n / d) : Nat) →
      |((significand n d * 2 ^ coarsening (n / d) : Nat) : Int) * d - n| = |u * d - n| → significand n d % 2 = 0) := by
  have hbinade := binade_le (n := n) hd
  have hnear := divNearestEven_nearest (n := n) (d := d * 2 ^ coarsening (n / d)) (by positivity)
  rw [← significand] at hnear
  generalize significand n d = m at *
  generalize coarsening (n / d) = k at *
  have hscale (j : Int) : j * ((d * 2 ^ k : Nat) : Int) - n = j * 2 ^ k * d - n := by push_cast; ring
  simp only [hscale] at hnear
  push_cast
  by_cases hdvd : 2 ^ k ∣ u.natAbs
  · obtain ⟨j, rfl⟩ : ∃ j : Int, u = j * 2 ^ k := by
      obtain ⟨j, hj⟩ := Int.natCast_dvd.2 hdvd
      exact ⟨j, by rw [hj]; push_cast; ring⟩
    obtain ⟨hle, htie⟩ := hnear j
    exact ⟨hle, fun hne => htie fun hj => hne (by rw [hj])⟩
  · have hk : k ≠ 0 := by rintro rfl; simp at hdvd
    have hlt : u < 2 ^ (23 + k) := by
      have := hu.resolve_left hdvd
      zify at this
      exact lt_of_le_of_lt (le_abs_self u) this
    have hstart : (2 : Int) ^ (23 + k) * d ≤ n := by exact_mod_cast hbinade hk
    have hbelow : u * d < 2 ^ (23 + k) * d := mul_lt_mul_of_pos_right hlt (by exact_mod_cast hd)
    have hfar : |(2 : Int) ^ 23 * 2 ^ k * d - n| < |u * d - n| := by
      rw [← pow_add, abs_of_nonpos (by omega), abs_of_nonpos (by omega)]
      omega
    have hless := (hnear (2 ^ 23)).1.trans_lt hfar
    exact ⟨hless.le, fun _ heq => absurd heq hless.ne⟩

/-- The distance from a negative number is that of the opposite value from the positive one. -/
theorem abs_sub_signedBy (neg : Bool) (u d : Int) (n : Nat) :
    |u * d - signedBy neg n| = |(if neg then -u else u) * d - n| := by
  cases neg
  · simp [signedBy]
  · rw [← abs_neg]; simp only [signedBy, if_true]; ring_nf

/-- `roundFraction` rounds to nearest, ties to even. -/
theorem roundsTo_roundFraction (neg : Bool) {n d : Nat} (hd : 0 < d) : RoundsTo (roundFraction neg n d) (signedBy neg n) d := by
  constructor
  · have habs : |signedBy neg n| = n := by cases neg <;> simp [signedBy]
    rw [isFinite_roundFraction hd, habs, Nat.abs_cast]
    have hmid : ((2 ^ 25 - 1 : Nat) : Int) = 2 ^ 25 - 1 := by decide
    rw [← hmid]
    norm_cast
  · intro hfin f hf
    have hgrid : 2 ^ coarsening (n / d) ∣ (units f).natAbs ∨ (units f).natAbs < 2 ^ (23 + coarsening (n / d)) := by
      have habs : (units f).natAbs = unitsOfBits (fieldBits f) := by
        rw [units_eq, magnitude_eq, signedBy]; split <;> simp
      rw [habs]; exact unitsOfBits_onGrid _ _
    have hu := significand_nearest hd (u := if neg then -units f else units f) (by split <;> simpa using hgrid)
    have hr : (if neg then -units (roundFraction neg n d) else units (roundFraction neg n d)) =
        (significand n d * 2 ^ coarsening (n / d) : Nat) := by
      rw [units_roundFraction hd hfin]; cases neg <;> simp [signedBy]
    rw [abs_sub_signedBy, abs_sub_signedBy, hr]
    refine ⟨hu.1, fun hne heq => getLsbD_zero_roundFraction hfin (hu.2 ?_ heq)⟩
    rw [← hr]
    split <;> simpa using hne

/-! ### The operations -/

/-- Numerator and denominator may both change sign. -/
theorem RoundsTo.neg {r : FLOAT} {num den : Int} (h : RoundsTo r num den) : RoundsTo r (-num) (-den) := by
  have hdist (u : Int) : |u * -den - -num| = |u * den - num| := by rw [← abs_neg]; ring_nf
  constructor
  · rw [abs_neg, abs_neg]; exact h.finite_iff
  · simp only [hdist]; exact h.nearest

/-- Zero is exact. -/
theorem roundsTo_floatZero (neg : Bool) : RoundsTo (floatZero neg) 0 1 := by
  have hz : isZero (floatZero neg) = true := by cases neg <;> decide
  constructor
  · simp [isFinite_of_isZero hz]
  · intro _ f _
    rw [units_of_isZero hz]
    refine ⟨by simp, fun hne heq => absurd ?_ hne⟩
    simpa using heq.symm

theorem fadd_of_finite {a b : FLOAT} (ha : isFinite a = true) (hb : isFinite b = true) :
    fadd a b = if units a + units b = 0 then floatZero (floatSign a && floatSign b)
      else roundFraction (decide (units a + units b < 0)) (units a + units b).natAbs 1 := by
  simp [fadd, isNaN_of_finite ha, isNaN_of_finite hb, isInfinite_of_finite ha, isInfinite_of_finite hb]

theorem roundsTo_fadd {a b : FLOAT} (ha : isFinite a = true) (hb : isFinite b = true) : RoundsTo (fadd a b) (units a + units b) 1 := by
  rw [fadd_of_finite ha hb]
  split
  · rename_i h0
    rw [h0]; exact roundsTo_floatZero _
  · have hs : signedBy (decide (units a + units b < 0)) (units a + units b).natAbs = units a + units b := by
      simp only [signedBy, decide_eq_true_eq]; split <;> omega
    have := roundsTo_roundFraction (decide (units a + units b < 0)) (n := (units a + units b).natAbs) one_pos
    rwa [hs] at this

theorem fieldBits_fneg (f : FLOAT) : fieldBits (fneg f) = fieldBits f := by
  have h : (fneg f).extractLsb' 0 31 = f.extractLsb' 0 31 := by
    rw [fneg, BitVec.extractLsb'_xor]; simp
  rw [fieldBits, h, fieldBits]

theorem floatSign_fneg (f : FLOAT) : floatSign (fneg f) = !floatSign f := by simp [floatSign, fneg]

theorem isFinite_fneg (f : FLOAT) : isFinite (fneg f) = isFinite f := by
  rw [Bool.eq_iff_iff, isFinite_iff, isFinite_iff, fieldBits_fneg]

theorem units_fneg (f : FLOAT) : units (fneg f) = -units f := by
  rw [units_eq, units_eq, magnitude_eq, magnitude_eq, fieldBits_fneg, floatSign_fneg]
  cases floatSign f <;> simp [signedBy]

theorem roundsTo_fsub {a b : FLOAT} (ha : isFinite a = true) (hb : isFinite b = true) : RoundsTo (fsub a b) (units a - units b) 1 := by
  have h := roundsTo_fadd ha (b := fneg b) (by rw [isFinite_fneg, hb])
  rwa [units_fneg, ← sub_eq_add_neg] at h

theorem fdiv_of_finite {a b : FLOAT} (ha : isFinite a = true) (hb : isFinite b = true) (h0 : isZero b = false) :
    fdiv a b = roundFraction (floatSign a != floatSign b) (magnitude a * 2 ^ 149) (magnitude b) := by
  simp [fdiv, isNaN_of_finite ha, isNaN_of_finite hb, isInfinite_of_finite ha, isInfinite_of_finite hb, h0]

theorem magnitude_pos {f : FLOAT} (h : isZero f = false) : 0 < magnitude f := by
  rw [← Bool.not_eq_true, isZero_iff] at h
  rw [magnitude_eq]
  exact (Nat.zero_le _).trans_lt (unitsOfBits_strictMono (Nat.pos_of_ne_zero h))

theorem roundsTo_fdiv {a b : FLOAT} (ha : isFinite a = true) (hb : isFinite b = true) (h0 : isZero b = false) :
    RoundsTo (fdiv a b) (units a * 2 ^ 149) (units b) := by
  have h := roundsTo_roundFraction (floatSign a != floatSign b) (n := magnitude a * 2 ^ 149) (magnitude_pos h0)
  rw [fdiv_of_finite ha hb h0]
  cases hsb : floatSign b with
  | false =>
    have hua : units a * 2 ^ 149 = signedBy (floatSign a != false) (magnitude a * 2 ^ 149) := by
      rw [units_eq]; cases floatSign a <;> simp [signedBy]
    have hub : units b = magnitude b := by rw [units_eq, hsb]; rfl
    rw [hua, hub]
    rwa [hsb] at h
  | true =>
    have hua : units a * 2 ^ 149 = -signedBy (floatSign a != true) (magnitude a * 2 ^ 149) := by
      rw [units_eq]; cases floatSign a <;> simp [signedBy]
    have hub : units b = -(magnitude b : Int) := by rw [units_eq, hsb]; rfl
    rw [hua, hub]
    rw [hsb] at h
    exact h.neg

/-- Settles O57: each operation hands its exact result to one rounding. -/
theorem roundsToNearestEven : Obligations.RoundsToNearestEven := by
  intro a b ha hb
  refine ⟨?_, ?_, fun h0 => ?_⟩
  · have h := roundsTo_fadd ha hb
    have hfin := h.finite_iff
    have hnear := h.nearest
    simp only [mul_one, abs_one] at hfin hnear
    exact ⟨hfin, hnear⟩
  · have h := roundsTo_fsub ha hb
    have hfin := h.finite_iff
    have hnear := h.nearest
    simp only [mul_one, abs_one] at hfin hnear
    exact ⟨hfin, hnear⟩
  · have h := roundsTo_fdiv ha hb h0
    have hfin := h.finite_iff
    rw [abs_mul, abs_of_pos (show (0 : Int) < 2 ^ 149 by positivity)] at hfin
    exact ⟨hfin, h.nearest⟩

/-! ### Conversion of samples -/

/-- A quotient that is a multiple of the grid it is rounded to is exact. -/
theorem u2f_exact {k : Nat} (hk : k < 2 ^ 24) : isFinite (u2f k) = true ∧ units (u2f k) = k * 2 ^ 149 := by
  have hfin : isFinite (u2f k) = true := by rw [u2f, isFinite_roundFraction one_pos]; omega
  have hle : coarsening (k * 2 ^ 149 / 1) ≤ 149 := by
    rw [coarsening_div_le_iff one_pos, mul_one, pow_add]
    exact Nat.mul_lt_mul_of_pos_right hk (by positivity)
  have hdvd : 2 ^ coarsening (k * 2 ^ 149 / 1) ∣ k * 2 ^ 149 := Dvd.dvd.mul_left (pow_dvd_pow 2 hle) k
  have hsig : significand (k * 2 ^ 149) 1 * 2 ^ coarsening (k * 2 ^ 149 / 1) = k * 2 ^ 149 := by
    rw [significand, one_mul, divNearestEven_of_dvd hdvd, Nat.div_mul_cancel hdvd]
  refine ⟨hfin, ?_⟩
  rw [u2f, units_roundFraction one_pos hfin, hsig, signedBy]
  push_cast; rfl

/-- A fraction rounds to the same value when it is expanded. -/
theorem roundFraction_expand (neg : Bool) (n d : Nat) {c : Nat} (hc : 0 < c) : roundFraction neg (n * c) (d * c) = roundFraction neg n d := by
  have hdiv : n * c / (d * c) = n / d := Nat.mul_div_mul_right n d hc
  have hsig : significand (n * c) (d * c) = significand n d := by
    rw [significand, significand, hdiv, Nat.mul_right_comm, divNearestEven_mul_right hc]
  rw [roundFraction, roundFraction, packMagnitude_eq, packMagnitude_eq, hdiv, hsig]

theorem magnitude_u2f {k : Nat} (hk : k < 2 ^ 24) : magnitude (u2f k) = k * 2 ^ 149 := by
  have h := (u2f_exact hk).2
  rw [units_eq, u2f, floatSign_roundFraction, ← u2f, signedBy, if_neg Bool.false_ne_true] at h
  exact_mod_cast h

theorem floatSign_u2f (k : Nat) : floatSign (u2f k) = false := floatSign_roundFraction ..

/-- The first sample is added to 0 without rounding. -/
theorem fadd_zero_u2f {k : Nat} (hk : k < 2 ^ 24) : fadd (u2f 0) (u2f k) = u2f k := by
  have h0 := u2f_exact (k := 0) (by decide)
  have h1 := u2f_exact hk
  rw [fadd_of_finite h0.1 h1.1, h0.2, h1.2, floatSign_u2f]
  split
  · obtain rfl : k = 0 := by omega
    decide
  · have hneg : ¬ ((0 : Nat) * 2 ^ 149 + k * 2 ^ 149 : Int) < 0 := by omega
    have habs : ((0 : Nat) * 2 ^ 149 + k * 2 ^ 149 : Int).natAbs = k * 2 ^ 149 := by omega
    rw [decide_eq_false hneg, habs, u2f]

/-- Division by one sample changes nothing. -/
theorem fdiv_u2f_one {k : Nat} (hk : k < 2 ^ 24) : fdiv (u2f k) (u2f 1) = u2f k := by
  have h1 := u2f_exact (k := 1) (by decide)
  have hz : isZero (u2f 1) = false := by
    rw [← Bool.not_eq_true]
    intro hz
    have h0 := units_of_isZero hz
    rw [h1.2] at h0
    simp at h0
  rw [fdiv_of_finite (u2f_exact hk).1 h1.1 hz, floatSign_u2f, floatSign_u2f, magnitude_u2f hk, magnitude_u2f (by decide)]
  exact roundFraction_expand false (k * 2 ^ 149) 1 (by positivity)

/-- The sum of one sample starts at 0, the mean divides by 1 (R149). -/
theorem meanOf_singleton (c : Conversion) : meanOf [c] = fdiv (fadd (u2f 0) (u2f c.raw.toNat)) (u2f 1) := by
  rw [meanOf, sumOf, List.foldl_cons, List.foldl_nil, List.length_singleton]

/-- Settles O56: a sample is below 2^24, so it converts exactly, and neither the sum with 0 nor the division by 1 rounds. -/
theorem samplesConvertExactly : Obligations.SamplesConvertExactly := by
  refine ⟨fun k => u2f_exact, fun c => ?_⟩
  have hc : c.raw.toNat < 2 ^ 24 := BitVec.isLt c.raw
  rw [meanOf_singleton, fadd_zero_u2f hc, fdiv_u2f_one hc]

end Sys2Proof.Machine

namespace Sys2Proof.Machine

/-! ### What no primitive writes -/

/-- `t` has the power input, the data registers but `twi_dr`, and the bookkeeping bits of `s`: a primitive writes none of them, they are
written by silent statements (R25, R28, R32). -/
structure SameRegisters (s t : State) : Prop where
  powerCycle : t.powerCycle = s.powerCycle
  lcdByte : t.lcdByte = s.lcdByte
  strPtr : t.strPtr = s.strPtr
  adcShift : t.adcShift = s.adcShift
  adcCnt : t.adcCnt = s.adcCnt
  avgSum : t.avgSum = s.avgSum
  avgI : t.avgI = s.avgI
  dspTarget : t.dspTarget = s.dspTarget
  dspBase : t.dspBase = s.dspBase
  dspCur : t.dspCur = s.dspCur
  lcdInited : t.lcdInited = s.lcdInited
  twiOwned : t.twiOwned = s.twiOwned

theorem doPrim_sameRegisters (op : Instr) (p : Prim) (s : State) : SameRegisters s (doPrim op p s) := by
  cases p with
  | pinWrite p v => rw [doPrim, pinWrite_spec]; constructor <;> rfl
  | readBusy => obtain ⟨_, _, _, h⟩ := readBusy_spec s; rw [doPrim, h]; constructor <;> rfl
  | readReady => obtain ⟨_, _, _, h⟩ := readReady_spec s; rw [doPrim, h]; constructor <;> rfl
  | readBit => obtain ⟨_, _, _, h⟩ := readBit_spec s; rw [doPrim, h]; constructor <;> rfl
  | twiPoll => obtain ⟨_, _, _, h⟩ := pollTwi_spec s; rw [doPrim, h]; constructor <;> rfl
  | _ => constructor <;> rfl

/-- What a primitive makes of the lines, as `Lines.after` says it (R11 to R16). -/
theorem doPrim_lines (op : Instr) (p : Prim) (s : State) : (doPrim op p s).lines = s.lines.after p := by
  cases p with
  | pinWrite p v => rw [doPrim, pinWrite_spec]; cases p <;> rfl
  | readBusy => obtain ⟨_, _, _, h⟩ := readBusy_spec s; rw [doPrim, h]; rfl
  | readReady => obtain ⟨_, _, _, h⟩ := readReady_spec s; rw [doPrim, h]; rfl
  | readBit => obtain ⟨_, _, _, h⟩ := readBit_spec s; rw [doPrim, h]; rfl
  | twiPoll => obtain ⟨_, _, _, h⟩ := pollTwi_spec s; rw [doPrim, h]; rfl
  | _ => rfl

/-- A primitive speaks to the two-wire engine. -/
def Prim.isTwi : Prim → Bool
  | .twiReq _ _ => true
  | .twiPoll => true
  | _ => false

/-- `t` has the two-wire engine and its data register as `s` has them (R29, R30). -/
structure SameEngine (s t : State) : Prop where
  twiReq : t.twiReq = s.twiReq
  twiTc : t.twiTc = s.twiTc
  twiDr : t.twiDr = s.twiDr

theorem doPrim_sameEngine {op : Instr} {p : Prim} (h : p.isTwi = false) (s : State) : SameEngine s (doPrim op p s) := by
  cases p with
  | pinWrite p v => rw [doPrim, pinWrite_spec]; exact ⟨rfl, rfl, rfl⟩
  | readBusy => obtain ⟨_, _, _, h⟩ := readBusy_spec s; rw [doPrim, h]; exact ⟨rfl, rfl, rfl⟩
  | readReady => obtain ⟨_, _, _, h⟩ := readReady_spec s; rw [doPrim, h]; exact ⟨rfl, rfl, rfl⟩
  | readBit => obtain ⟨_, _, _, h⟩ := readBit_spec s; rw [doPrim, h]; exact ⟨rfl, rfl, rfl⟩
  | twiReq kind b => simp [Prim.isTwi] at h
  | twiPoll => simp [Prim.isTwi] at h
  | _ => exact ⟨rfl, rfl, rfl⟩

theorem silent_sameEngine {s t : State} (h : Silent s t) : SameEngine s t := by
  rw [h]; exact ⟨rfl, rfl, rfl⟩

theorem silent_lines {s t : State} (h : Silent s t) : t.lines = s.lines := by rw [h]; rfl

theorem silent_powerCycle {s t : State} (h : Silent s t) : t.powerCycle = s.powerCycle := by rw [h]

end Sys2Proof.Machine

namespace Sys2Proof.Machine

/-! ### A sound position, clause by clause -/

theorem sound_idle {s : State} (hs : s.seq = .idle) : Sound s ↔ s.lines = restLines ∧ s.twiReq = .none := by
  simp only [Sound, hs, AtRest, State.lines, restLines, Lines.mk.injEq]
  tauto

theorem sound_busy {s : State} {i : Instr} {todo : List Prim} {place : Place} (hs : s.seq = .busy i todo place) :
    Sound s ↔ placeFits i place = true ∧ todoFits i todo place = true ∧ todo.foldl Lines.after s.lines = linesAt place ∧
      contentionFree s.lines todo = true ∧ TwiSound i s todo place := by
  simp only [Sound, hs]

theorem twiSound_iff {i : Instr} {s : State} {todo : List Prim} {place : Place} (h : place ≠ .twiUntil) :
    TwiSound i s todo place ↔ s.twiReq = .none := by
  cases place with
  | twiUntil => exact absurd rfl h
  | _ => rfl

/-- The next primitive of a piece: one of the two late returns of `DSP.RUN`, the poll of a two-wire wait, or one that fits. -/
theorem todoFits_cons {i : Instr} {p : Prim} {rest : List Prim} {place : Place} (h : todoFits i (p :: rest) place = true) :
    ((∃ o v, p = .ret o v) ∧ rest = [] ∧ place = .finished) ∨ (p = .twiPoll ∧ rest = [] ∧ place = .twiUntil) ∨
      (primFits i p = true ∧ todoFits i rest place = true ∧ place ≠ .twiUntil) := by
  cases place with
  | finished =>
    simp only [todoFits, Bool.or_eq_true, beq_iff_eq, List.cons.injEq] at h
    obtain ⟨rfl, rfl⟩ | ⟨rfl, rfl⟩ := h <;> exact .inl ⟨⟨_, _, rfl⟩, rfl, rfl⟩
  | twiUntil =>
    simp only [todoFits, Bool.or_eq_true, beq_iff_eq, List.cons.injEq, reduceCtorEq, false_or] at h
    exact .inr (.inl ⟨h.1, h.2, rfl⟩)
  | _ =>
    simp only [todoFits, List.all_cons, Bool.and_eq_true] at h
    exact .inr (.inr ⟨h.1, h.2, by simp⟩)

/-- What stands in the rest of a piece is no call of the two-wire engine and no `return`. -/
theorem isTwi_of_primFits {i : Instr} {p : Prim} (h : primFits i p = true) : p.isTwi = false := by
  cases p with
  | twiReq | twiPoll => cases h
  | _ => rfl

theorem isRet_of_primFits {i : Instr} {p : Prim} (h : primFits i p = true) : p.isRet = false := by
  cases p with
  | ret => cases h
  | _ => rfl

/-- After a primitive that is no `return`: the block is sound if the place and the rest of the piece are. -/
theorem sound_of_leads {i : Instr} {p : Prim} {rest : List Prim} {place : Place} {s : State} (hp : p.isRet = false)
    (fits : placeFits i place = true) (todo : todoFits i rest place = true)
    (lines : rest.foldl Lines.after (s.lines.after p) = linesAt place) (free : contentionFree (s.lines.after p) rest = true)
    (twi : TwiSound i (doPrim i p { s with seq := .busy i rest place }) rest place) :
    Sound (doPrim i p { s with seq := .busy i rest place }) := by
  have hl : (doPrim i p { s with seq := .busy i rest place }).lines = s.lines.after p := doPrim_lines ..
  rw [sound_busy (doPrim_seq hp _), hl]
  exact ⟨fits, todo, lines, free, twi⟩

/-- A `return` with the lines at rest and no bus action pending leaves the block sound. -/
theorem sound_of_return {i : Instr} {o : RspOutcome} {v : RetVal} {s : State} (hl : s.lines = restLines) (ht : s.twiReq = .none) :
    Sound (doPrim i (.ret o v) s) := (sound_idle rfl).2 ⟨hl, ht⟩

/-- The engine after a poll that ends the piece before `until tc = 1`: complete with the flag 1, or pending with the flag 0 (R123). -/
theorem twiSound_poll {i : Instr} {s : State} (hr : s.twiReq = actionOf i) (hc : s.twiTc = false) :
    TwiSound i (doPrim i .twiPoll s) [] .twiUntil := by
  obtain ⟨ans, env, d, h⟩ := pollTwi_spec s
  rw [doPrim, h]
  cases ha : ans.tc with
  | true => exact .inl ⟨rfl, rfl, rfl, rfl⟩
  | false => exact .inr ⟨fun _ => rfl, hr, hc⟩

/-! ### The pseudocode of the two-wire operations -/

theorem resumeOf_twiStart {i : Instr} (h : usesTwi i = true) (s : State) :
    resumeOf i .start s = twiAction (actionOf i) (payloadOf i) s := by
  cases i with
  | twiStart | twiStop | twiWrb | twiRda | twiRdn => rfl
  | _ => cases h

/-- At `until tc = 1` a two-wire operation returns, or polls again (R124). -/
theorem resumeOf_twiUntil {i : Instr} (h : usesTwi i = true) (s : State) :
    ∃ s' v, resumeOf i .twiUntil s = if s.loc.tc then returning s' .ok v else .go s .twiPoll [] .twiUntil := by
  cases i with
  | twiStart | twiStop | twiWrb | twiRda | twiRdn => exact ⟨_, _, rfl⟩
  | _ => cases h

theorem place_of_usesTwi {i : Instr} {place : Place} (h : usesTwi i = true) (hp : placeFits i place = true) :
    place = .start ∨ place = .twiUntil := by
  cases i with
  | twiStart | twiStop | twiWrb | twiRda | twiRdn =>
    cases place with
    | start => exact .inl rfl
    | twiUntil => exact .inr rfl
    | lcdUntil u | lcdDone u => cases u <;> cases hp
    | _ => cases hp
  | _ => cases h

theorem place_ne_twiUntil {i : Instr} {place : Place} (h : usesTwi i = false) (hp : placeFits i place = true) : place ≠ .twiUntil := by
  rintro rfl
  exact absurd hp (by simp [placeFits, h])

theorem isTwi_of_firstFits {i : Instr} {p : Prim} {rest : List Prim} {place : Place} (h : usesTwi i = false)
    (hp : firstFits i p rest place = true) : p.isTwi = false := by
  cases p with
  | twiReq | twiPoll => simp [firstFits, h] at hp
  | _ => rfl

theorem isRet_of_firstFits {i : Instr} {p : Prim} {rest : List Prim} {place : Place} (hp : firstFits i p rest place = true) :
    p.isRet = false := by
  cases p with
  | ret => cases hp
  | _ => rfl

/-! ### Every step keeps the position sound -/

theorem sound_accept {s : State} (i : Instr) (hs : s.seq = .idle) (h : Sound s) : Sound (s.accept i) := by
  obtain ⟨hl, ht⟩ := (sound_idle hs).1 h
  have hl' : (s.accept i).lines = restLines := hl
  rw [sound_busy (accept_seq s i), hl']
  exact ⟨rfl, rfl, rfl, rfl, ht⟩

/-- The next primitive of a straight-line piece. -/
theorem sound_todo {i : Instr} {p : Prim} {rest : List Prim} {place : Place} {s : State} (hs : s.seq = .busy i (p :: rest) place)
    (h : Sound s) : Sound (doPrim i p { s with seq := .busy i rest place }) := by
  obtain ⟨hf, ht, hl, hc, hw⟩ := (sound_busy hs).1 h
  obtain ⟨⟨o, v, rfl⟩, rfl, rfl⟩ | ⟨rfl, rfl, rfl⟩ | ⟨hp, hr, hne⟩ := todoFits_cons ht
  · exact sound_of_return hl hw
  · have hc' := (Bool.and_eq_true_iff.1 hc).2
    obtain ⟨he, -⟩ | ⟨-, hq, htc⟩ := hw
    · cases he
    · exact sound_of_leads rfl hf rfl hl hc' (twiSound_poll hq htc)
  · have hc' := (Bool.and_eq_true_iff.1 hc).2
    refine sound_of_leads (isRet_of_primFits hp) hf hr hl hc' ((twiSound_iff hne).2 ?_)
    rw [(doPrim_sameEngine (isTwi_of_primFits hp) _).twiReq]
    exact (twiSound_iff hne).1 hw

/-- From a place of a two-wire operation. -/
theorem sound_place_twi {i : Instr} {place place' : Place} {s s' : State} {p : Prim} {rest : List Prim} (hi : usesTwi i = true)
    (hs : s.seq = .busy i [] place) (h : Sound s) (hr : resumeOf i place s = .go s' p rest place') :
    Sound (doPrim i p { s' with seq := .busy i rest place' }) := by
  obtain ⟨hf, -, hl, -, hw⟩ := (sound_busy hs).1 h
  have hsil := (resume_silent i place s).silent hr
  obtain rfl | rfl := place_of_usesTwi hi hf
  · rw [resumeOf_twiStart hi, twiAction] at hr
    cases hr
    have hl : s.lines = restLines := hl
    exact sound_of_leads rfl hi rfl (by rw [hl]; rfl) (by rw [hl]; rfl) (.inr ⟨by simp, rfl, rfl⟩)
  · have hl : s.lines = restLines := hl
    obtain ⟨u, v, hu⟩ := resumeOf_twiUntil hi s
    rw [hu] at hr
    obtain ⟨-, htc, hq, -⟩ | ⟨htc, hq, hflag⟩ := hw
    · rw [if_pos htc, returning] at hr
      cases hr
      exact sound_of_return ((silent_lines hsil).trans hl) ((silent_sameEngine hsil).twiReq.trans hq)
    · rw [if_neg (by simp [htc rfl])] at hr
      cases hr
      exact sound_of_leads rfl hi rfl (by rw [hl]; rfl) (by rw [hl]; rfl) (twiSound_poll hq hflag)

/-- From a place of any other operation: the engine stays at rest, the rest is `resume_fits`. -/
theorem sound_place {i : Instr} {place place' : Place} {s s' : State} {p : Prim} {rest : List Prim} (hi : usesTwi i = false)
    (hs : s.seq = .busy i [] place) (h : Sound s) (hr : resumeOf i place s = .go s' p rest place') :
    Sound (doPrim i p { s' with seq := .busy i rest place' }) := by
  obtain ⟨hf, ht, hl, -, hw⟩ := (sound_busy hs).1 h
  have hsil := (resume_silent i place s).silent hr
  have hlines : s'.lines = linesAt place := (silent_lines hsil).trans hl
  have hreq : s'.twiReq = .none := by
    rw [(silent_sameEngine hsil).twiReq]
    exact (twiSound_iff (place_ne_twiUntil hi hf)).1 hw
  have hne : place ≠ .finished := by rintro rfl; cases ht
  obtain ⟨⟨o, v, rfl⟩, hrest⟩ | hlead := (resume_fits hf hne s).goes hr
  · exact sound_of_return (hlines.trans hrest) hreq
  · rw [← hlines] at hlead
    refine sound_of_leads (isRet_of_firstFits hlead.first) hlead.fits hlead.todo hlead.lines hlead.free ?_
    rw [twiSound_iff (place_ne_twiUntil hi hlead.fits), (doPrim_sameEngine (isTwi_of_firstFits hi hlead.first) _).twiReq]
    exact hreq

theorem sound_resetWith (p : Params) : Sound (State.resetWith p) := (sound_idle rfl).2 ⟨rfl, rfl⟩

/-- Settles O23: the lines and the engine of the reset state are at rest, and the parameters are no part of them. -/
theorem soundAtReset : Obligations.SoundAtReset := ⟨sound_resetWith Config.params, sound_resetWith⟩

/-- One step of a running operation keeps the position sound. -/
theorem sound_exec {i : Instr} {s t : State} {todo : List Prim} {place : Place} (hs : s.seq = .busy i todo place) (h : Sound s)
    (hx : exec i s = .next t) : Sound t := by
  obtain ⟨hidle, -⟩ | ⟨p, rest, place', hs', rfl⟩ | ⟨place', s', p, rest, place'', hs', hr, rfl⟩ | ⟨-, -, -, -, -, rfl⟩ := exec_cases hx
  · rw [hs] at hidle; cases hidle
  · exact sound_todo hs' h
  · cases hi : usesTwi i with
    | true => exact sound_place_twi hi hs' h hr
    | false => exact sound_place hi hs' h hr
  · exact h

/-- Settles O22, over the cases of a step: restart, nothing, acceptance, a step of the running operation. -/
theorem soundKept : Obligations.SoundKept := by
  intro s t h hstep
  obtain ⟨-, rfl⟩ | ⟨-, -, -, rfl⟩ | ⟨-, hs, -, i, -, -, rfl⟩ | ⟨-, i, todo, place, hs, hx⟩ := step_cases hstep
  · exact (sound_idle rfl).2 ⟨rfl, rfl⟩
  · exact h
  · exact sound_accept i hs h
  · exact sound_exec hs h hx

end Sys2Proof.Machine

namespace Sys2Proof.Machine

/-! ### What the silent statements of an operation write -/

/-- The operations that average samples (R149). -/
def Averages (i : Instr) : Prop := usesAdc i = true ∧ i ≠ .adcRaw

/-- The operation is a `DSP.RUN`. -/
def Dispenses (i : Instr) : Prop := ∃ target, i = .dspRun target

/-- Writes of data registers that operation `i` makes on its way from `place` to its next primitive: they make `t` of `s` (R25). -/
inductive Wrote (i : Instr) (place : Place) (s : State) : State → Prop
  | nothing : Wrote i place s s
  | lcdByte {t : State} (v : Byte) : usesDisplay i = true → Wrote i place s t → Wrote i place s { t with lcdByte := v }
  | strPtr {t : State} (a : StrAddr) : (∃ addr, i = .lcdWrs addr) → Wrote i place s t → Wrote i place s { t with strPtr := a }
  | clearSample {t : State} : usesAdc i = true → Wrote i place s t → Wrote i place s { t with adcShift := 0, adcCnt := 0 }
  | takeBit (q : Reading) : usesAdc i = true → place = .adcPulse q → Wrote i place s s.takeBit
  | clearAverage {t : State} : Averages i → Wrote i place s t → Wrote i place s { t with avgSum := u2f 0, avgI := 0 }
  | takeSample {t : State} : Averages i → Wrote i place s t → Wrote i place s t.takeSample
  | dspTarget {t : State} (f : FLOAT) : Dispenses i → Wrote i place s t → Wrote i place s { t with dspTarget := f }
  | dspBase {t : State} (f : FLOAT) : Dispenses i → Wrote i place s t → Wrote i place s { t with dspBase := f }
  | dspCur {t : State} (f : FLOAT) : Dispenses i → Wrote i place s t → Wrote i place s { t with dspCur := f }

/-- The primitives, `TwiPoll` apart, that the pseudocode of an operation calls. -/
def callFits (i : Instr) : Prim → Bool
  | .readReady => usesAdc i
  | .motor _ => isDispense i
  | .twiReq _ b => usesTwi i && b == payloadOf i
  | .memRead => true
  | .ret _ _ => true
  | p => primFits i p

/-- The place stands after a data pulse. -/
def Place.isPulse : Place → Bool
  | .adcPulse _ => true
  | _ => false

/-- From `place`, operation `i` goes on in state `t` with a primitive and the place after its piece. Bookkeeping and calibration are written
only before a `return` (R28, R32, R36). -/
inductive Onward (i : Instr) (place : Place) (s : State) : State → Prim → Place → Prop
  | call {t : State} {p : Prim} {place' : Place} :
      Wrote i place s t → callFits i p = true → place'.isPulse = false → Onward i place s t p place'
  | pulse {t : State} (q : Reading) :
      Wrote i place s t → usesAdc i = true → t.adcCnt < 24 → Onward i place s t (.pinWrite .adcSck true) (.adcPulse q)
  | poll : usesTwi i = true → place = .twiUntil → s.loc.tc = false → Onward i place s s .twiPoll .twiUntil
  | inited : i = .lcdInit → Onward i place s { s with lcdInited := true } (.ret .ok .none) .finished
  | owned : i = .twiStart → Onward i place s { s with twiOwned := true } (.ret .ok .none) .finished
  | released : i = .twiStop → Onward i place s { s with twiOwned := false } (.ret .ok .none) .finished
  | tared {t : State} (a : FLOAT) : Wrote i place s t → Onward i place s { t with wghOffset := a } (.ret .ok .none) .finished
  | scaled {t : State} (a : FLOAT) : Wrote i place s t → Onward i place s { t with wghScale := a } (.ret .ok .none) .finished

/-- Where an advance goes on, if it does, meets `P`. -/
def Advance.Meets (P : State → Prim → Place → Prop) : Advance → Prop
  | .go t p _ place => P t p place
  | .fault _ => True

theorem meets_ite {P : State → Prim → Place → Prop} {c : Prop} [Decidable c] {a b : Advance} (ha : a.Meets P) (hb : b.Meets P) :
    (if c then a else b).Meets P := by split <;> assumption

section Blocks

/-! The helper procedures, each from a state that allowed writes have led to. -/

variable {i : Instr} {place : Place} {s t : State}

theorem onward_transfer (hi : usesDisplay i = true) (h : Wrote i place s t) (rs : Bool) (v : Byte) (u : LcdUse) :
    (lcdTransfer rs v u t).Meets (Onward i place s) := .call (.lcdByte v hi h) hi rfl

theorem onward_lcdUntil (hi : usesDisplay i = true) (u : LcdUse) : (lcdUntil u s).Meets (Onward i place s) :=
  meets_ite (.call .nothing rfl rfl) (.call .nothing hi rfl)

theorem onward_returning (h : Wrote i place s t) (o : RspOutcome) (v : RetVal) : (returning t o v).Meets (Onward i place s) :=
  .call h rfl rfl

theorem onward_readSample (hi : usesAdc i = true) (h : Wrote i place s t) (q : Reading) :
    (adcReadSample q t).Meets (Onward i place s) := .call h hi rfl

theorem onward_averageStart (hi : Averages i) (h : Wrote i place s t) (n : Nat) (q : Reading) :
    (averageStart n q t).Meets (Onward i place s) :=
  meets_ite trivial (onward_readSample hi.1 (.clearAverage hi h) q)

theorem onward_massStart (hi : Averages i) (h : Wrote i place s t) (n : Nat) (q : Reading) :
    (massStart n q t).Meets (Onward i place s) :=
  meets_ite trivial (meets_ite trivial (onward_averageStart hi h n q))

theorem onward_averageAfterSample (hi : Averages i) (h : Wrote i place s t) (n : Nat) (q : Reading) {done : FLOAT → State → Advance}
    (hd : ∀ a t, Wrote i place s t → (done a t).Meets (Onward i place s)) :
    (averageAfterSample n q done t).Meets (Onward i place s) :=
  meets_ite (onward_readSample hi.1 (.takeSample hi h) q) (hd _ _ (.takeSample hi h))

theorem onward_massFinish (h : Wrote i place s t) (a : FLOAT) {done : FLOAT → State → Advance}
    (hd : ∀ a t, Wrote i place s t → (done a t).Meets (Onward i place s)) : (massFinish done a t).Meets (Onward i place s) :=
  meets_ite (hd _ _ h) trivial

theorem onward_adcUntil (hi : usesAdc i = true) (q : Reading) : (adcUntil q s).Meets (Onward i place s) :=
  meets_ite (.pulse q (.clearSample hi .nothing) hi (show (0 : BitVec 5) < 24 by decide)) (onward_readSample hi .nothing q)

theorem onward_afterPulse (hi : usesAdc i = true) {q : Reading} (hp : place = .adcPulse q) {done : State → Advance}
    (hd : ∀ t, Wrote i place s t → (done t).Meets (Onward i place s)) : (adcAfterPulse q done s).Meets (Onward i place s) := by
  have hbit : Wrote i place s s.takeBit := .takeBit q hi hp
  unfold adcAfterPulse
  split
  · next hc => exact .pulse q hbit hi hc
  · split
    · exact hd _ hbit
    · exact .call hbit hi rfl

theorem onward_resumeSample (hi : usesAdc i = true) {done : Reading → State → Advance}
    (hd : ∀ q t, Wrote i place s t → (done q t).Meets (Onward i place s)) :
    (resumeSample done place s).Meets (Onward i place s) := by
  cases place with
  | adcUntil q => exact onward_adcUntil hi q
  | adcPulse q => exact onward_afterPulse hi rfl (hd q)
  | adcExtra q => exact hd q s .nothing
  | _ => trivial

theorem onward_message (hi : usesDisplay i = true) (h : Wrote i place s t) (m : Msg) (elems : List MsgElem) {done : State → Advance}
    (hd : (done t).Meets (Onward i place s)) : (showMessage m elems done t).Meets (Onward i place s) := by
  match elems with
  | [] => exact hd
  | .instr _ :: _ => exact onward_transfer hi h ..
  | .char _ :: _ => exact onward_transfer hi h ..

end Blocks

/-- `until tc = 1` of a two-wire operation, once its return is known. -/
theorem onward_twiUntil {i : Instr} {s : State} {done : State → Advance} (hi : usesTwi i = true)
    (hd : (done s).Meets (Onward i .twiUntil s)) : (twiUntil done s).Meets (Onward i .twiUntil s) := by
  unfold twiUntil
  split
  · exact hd
  · next htc => exact .poll hi rfl (by simpa using htc)

/-! ### The four units -/

theorem resumeLcdInit_onward (place : Place) (s : State) : (resumeLcdInit place s).Meets (Onward .lcdInit place s) := by
  cases place with
  | start => exact .call .nothing rfl rfl
  | lcdUntil u => exact onward_lcdUntil rfl u
  | lcdDone u =>
    cases u with
    | init steps =>
      match steps with
      | [] => exact .inited rfl
      | .wait _ :: _ => exact .call .nothing rfl rfl
      | .nibble _ :: _ => exact .call .nothing rfl rfl
      | .instr _ :: _ => exact onward_transfer rfl .nothing ..
    | _ => trivial
  | _ => trivial

theorem resumeLcdWrs_onward (addr : StrAddr) (place : Place) (s : State) :
    (resumeLcdWrs addr place s).Meets (Onward (.lcdWrs addr) place s) := by
  cases place with
  | start => exact .call (.strPtr addr ⟨addr, rfl⟩ .nothing) rfl rfl
  | strRead => exact meets_ite (onward_returning .nothing ..) (onward_transfer rfl .nothing ..)
  | lcdUntil u => exact onward_lcdUntil rfl u
  | lcdDone u => exact .call (.strPtr _ ⟨addr, rfl⟩ .nothing) rfl rfl
  | _ => trivial

theorem resumeDspRun_onward (target : FLOAT) (place : Place) (s : State) :
    (resumeDspRun target place s).Meets (Onward (.dspRun target) place s) := by
  have hi : Dispenses (.dspRun target) := ⟨target, rfl⟩
  have ha : Averages (.dspRun target) := ⟨rfl, by simp⟩
  have message (m : Msg) (t : State) (h : Wrote (.dspRun target) place s t) :
      (dspAfterMessage m t).Meets (Onward (.dspRun target) place s) := by
    cases m with
    | wait => exact onward_massStart ha h ..
    | insuff | done => exact .call h rfl rfl
  have gate (a : FLOAT) (t : State) (h : Wrote (.dspRun target) place s t) : (dspGate a t).Meets (Onward (.dspRun target) place s) :=
    meets_ite (onward_message rfl (.dspBase a hi h) _ _ (message .insuff _ (.dspBase a hi h))) (.call (.dspBase a hi h) rfl rfl)
  have test (a : FLOAT) (t : State) (h : Wrote (.dspRun target) place s t) : (dspTest a t).Meets (Onward (.dspRun target) place s) :=
    meets_ite (.call (.dspCur a hi h) rfl rfl) (.call (.dspCur a hi h) rfl rfl)
  have sample (q : Reading) (t : State) (h : Wrote (.dspRun target) place s t) :
      (dspAfterSample q t).Meets (Onward (.dspRun target) place s) := by
    cases q with
    | only => trivial
    | base => exact onward_averageAfterSample ha h _ _ fun a _ h => onward_massFinish h a gate
    | loop => exact onward_averageAfterSample ha h _ _ fun a _ h => onward_massFinish h a test
  unfold resumeDspRun
  split
  · exact meets_ite trivial (onward_message rfl (.dspTarget _ hi .nothing) _ _ (message .wait _ (.dspTarget _ hi .nothing)))
  · exact onward_lcdUntil rfl _
  · exact onward_message rfl .nothing _ _ (message _ s .nothing)
  · exact onward_massStart ha .nothing ..
  · exact onward_resumeSample rfl sample

/-- From every place, every operation writes only what is its own, and calls only primitives that are its own. -/
theorem resume_onward (i : Instr) (place : Place) (s : State) : (resumeOf i place s).Meets (Onward i place s) := by
  cases i with
  | lcdInit => exact resumeLcdInit_onward place s
  | lcdWri | lcdWrc =>
    cases place with
    | start => exact onward_transfer rfl .nothing ..
    | lcdUntil u => exact onward_lcdUntil rfl u
    | lcdDone u => exact onward_returning .nothing ..
    | _ => trivial
  | lcdWrs addr => exact resumeLcdWrs_onward addr place s
  | twiStart =>
    cases place with
    | start => exact .call .nothing rfl rfl
    | twiUntil => dsimp only [resumeOf, resumeTwiStart]; exact onward_twiUntil rfl (.owned rfl)
    | _ => trivial
  | twiStop =>
    cases place with
    | start => exact .call .nothing rfl rfl
    | twiUntil => dsimp only [resumeOf, resumeTwiStop]; exact onward_twiUntil rfl (.released rfl)
    | _ => trivial
  | twiWrb b =>
    cases place with
    | start => exact .call .nothing (by simp [callFits, usesTwi, payloadOf]) rfl
    | twiUntil => dsimp only [resumeOf, resumeTwiWrb]; exact onward_twiUntil rfl (onward_returning .nothing ..)
    | _ => trivial
  | twiRda | twiRdn =>
    cases place with
    | start => exact .call .nothing rfl rfl
    | twiUntil => dsimp only [resumeOf, resumeTwiRda, resumeTwiRdn]; exact onward_twiUntil rfl (onward_returning .nothing ..)
    | _ => trivial
  | adcRaw =>
    simp only [resumeOf, resumeAdcRaw]
    split
    · exact onward_readSample rfl .nothing _
    · exact onward_resumeSample rfl fun _ _ h => onward_returning h ..
  | adcAvg n =>
    have hi : Averages (.adcAvg n) := ⟨rfl, by simp⟩
    simp only [resumeOf, resumeAdcAvg]
    split
    · exact onward_averageStart hi .nothing ..
    · exact onward_resumeSample rfl fun q _ h => onward_averageAfterSample hi h n q fun _ _ h => onward_returning h ..
  | wghMass n =>
    have hi : Averages (.wghMass n) := ⟨rfl, by simp⟩
    simp only [resumeOf, resumeWghMass]
    split
    · exact onward_massStart hi .nothing ..
    · exact onward_resumeSample rfl fun q _ h => onward_averageAfterSample hi h n q fun a _ h =>
        onward_massFinish h a fun _ _ h => onward_returning h ..
  | wghTare n =>
    have hi : Averages (.wghTare n) := ⟨rfl, by simp⟩
    simp only [resumeOf, resumeWghTare]
    split
    · exact onward_averageStart hi .nothing ..
    · exact onward_resumeSample rfl fun q _ h => onward_averageAfterSample hi h n q fun a _ h => .tared a h
  | wghCal ref =>
    have hi : Averages (.wghCal ref) := ⟨rfl, by simp⟩
    simp only [resumeOf, resumeWghCal]
    split
    · exact meets_ite trivial (meets_ite trivial (onward_averageStart hi .nothing ..))
    · exact onward_resumeSample rfl fun q _ h => onward_averageAfterSample hi h _ q fun _ _ h => meets_ite (.scaled _ h) trivial
  | dspRun target => exact resumeDspRun_onward target place s

theorem onward_of_go {i : Instr} {place place' : Place} {s t : State} {p : Prim} {rest : List Prim}
    (hr : resumeOf i place s = .go t p rest place') : Onward i place s t p place' := by
  have h := resume_onward i place s
  rwa [hr] at h

end Sys2Proof.Machine

namespace Sys2Proof.Machine

/-! ### The pulse counter (R25, R145) -/

/-- The bound of the pulse counter on the way to a place and there. -/
def Place.countBound : Place → Nat
  | .adcPulse _ => 23
  | _ => 24

theorem countBound_le (place : Place) : place.countBound ≤ 24 := by
  cases place with
  | adcPulse q => exact Nat.le_succ 23
  | _ => exact le_refl 24

theorem countBound_of_not_pulse {place : Place} (h : place.isPulse = false) : place.countBound = 24 := by
  cases place with
  | adcPulse q => cases h
  | _ => rfl

theorem counted_idle {s : State} (hs : s.seq = .idle) : Counted s ↔ s.adcCnt.toNat ≤ 24 := by
  simp only [Counted, hs]

theorem counted_busy {s : State} {i : Instr} {todo : List Prim} {place : Place} (hs : s.seq = .busy i todo place) :
    Counted s ↔ s.adcCnt.toNat ≤ place.countBound := by
  cases place <;> simp only [Counted, hs, Place.countBound]

theorem counted_le {s : State} (h : Counted s) : s.adcCnt.toNat ≤ 24 := by
  cases hs : s.seq with
  | idle => exact (counted_idle hs).1 h
  | busy i todo place => exact ((counted_busy hs).1 h).trans (countBound_le place)

/-- On the way from a place the counter is cleared, or counts the pulse that has just ended. -/
theorem wrote_adcCnt {i : Instr} {place : Place} {s t : State} (hs : s.adcCnt.toNat ≤ place.countBound) (h : Wrote i place s t) :
    t.adcCnt.toNat ≤ 24 := by
  induction h with
  | nothing => exact hs.trans (countBound_le place)
  | clearSample _ _ _ => exact Nat.zero_le 24
  | takeBit q _ hp =>
    subst hp
    have hs : s.adcCnt.toNat ≤ 23 := hs
    rw [takeBit_adcCnt, BitVec.toNat_add]
    exact (Nat.mod_le _ _).trans (Nat.succ_le_succ hs)
  | lcdByte _ _ _ ih | strPtr _ _ _ ih | clearAverage _ _ ih | takeSample _ _ ih | dspTarget _ _ _ ih | dspBase _ _ _ ih
  | dspCur _ _ _ ih => exact ih

theorem onward_adcCnt {i : Instr} {place place' : Place} {s t : State} {p : Prim} (hs : s.adcCnt.toNat ≤ place.countBound)
    (h : Onward i place s t p place') : t.adcCnt.toNat ≤ place'.countBound := by
  cases h with
  | call hw _ hp => rw [countBound_of_not_pulse hp]; exact wrote_adcCnt hs hw
  | pulse q _ _ hc => exact Nat.le_of_lt_succ (BitVec.lt_def.1 hc)
  | poll | inited | owned | released => exact hs.trans (countBound_le place)
  | tared _ hw | scaled _ hw => have hle := wrote_adcCnt hs hw; exact hle

theorem counted_doPrim {i : Instr} {p : Prim} {rest : List Prim} {place : Place} {s : State} (h : s.adcCnt.toNat ≤ place.countBound) :
    Counted (doPrim i p { s with seq := .busy i rest place }) := by
  have hcnt : (doPrim i p { s with seq := .busy i rest place }).adcCnt = s.adcCnt := (doPrim_sameRegisters ..).adcCnt
  cases hp : p.isRet with
  | true => rw [counted_idle (doPrim_seq_of_isRet hp _), hcnt]; exact h.trans (countBound_le place)
  | false => rw [counted_busy (doPrim_seq hp _), hcnt]; exact h

theorem counted_accept {s : State} (i : Instr) (h : Counted s) : Counted (s.accept i) := by
  rw [counted_busy (accept_seq s i), accept_adcCnt]
  exact counted_le h

theorem counted_exec {i : Instr} {s t : State} (h : Counted s) (hx : exec i s = .next t) : Counted t := by
  obtain ⟨-, -, rfl⟩ | ⟨p, rest, place, hs, rfl⟩ | ⟨place, s', p, rest, place', hs, hr, rfl⟩ | ⟨-, -, -, -, -, rfl⟩ := exec_cases hx
  · exact counted_accept i h
  · exact counted_doPrim ((counted_busy hs).1 h)
  · exact counted_doPrim (onward_adcCnt ((counted_busy hs).1 h) (onward_of_go hr))
  · exact h

theorem counted_step {s t : State} (h : Counted s) (hstep : step s = .next t) : Counted t := by
  obtain ⟨-, rfl⟩ | ⟨-, -, -, rfl⟩ | ⟨-, -, -, i, -, -, rfl⟩ | ⟨-, i, -, -, -, hx⟩ := step_cases hstep
  · exact Nat.zero_le 24
  · exact h
  · exact counted_accept i h
  · exact counted_exec h hx

/-- What the host does, and what the environment answers, moves neither the counter nor the sequencer. -/
theorem counted_reachable {s : State} (h : Reachable s) : Counted s := by
  induction h with
  | reset p => exact Nat.zero_le 24
  | step _ hstep ih => exact counted_step ih hstep
  | present w _ ih => unfold State.hostPresent; split <;> exact ih
  | writeString a v _ ih => unfold State.hostWriteString; split <;> exact ih
  | powerCycle _ ih => exact ih
  | answers env _ ih => exact ih

/-- Settles O28: the step lemma, reset, and the induction over reachable states. -/
theorem sampleCounterBounded : Obligations.SampleCounterBounded :=
  ⟨fun _ _ => counted_step, fun _ => Nat.zero_le 24, fun _ h => ⟨counted_reachable h, counted_le (counted_reachable h)⟩⟩

end Sys2Proof.Machine

namespace Sys2Proof.Machine

/-! ### Who writes the registers (R25, R28, R32) -/

/-- Between `s` and `t` operation `i` has written no data register but its own. -/
structure OwnRegisters (i : Instr) (s t : State) : Prop where
  lcdByte : t.lcdByte ≠ s.lcdByte → usesDisplay i = true
  strPtr : t.strPtr ≠ s.strPtr → ∃ addr, i = .lcdWrs addr
  sample : t.adcShift ≠ s.adcShift ∨ t.adcCnt ≠ s.adcCnt → usesAdc i = true
  average : t.avgSum ≠ s.avgSum ∨ t.avgI ≠ s.avgI → Averages i
  dispense : t.dspTarget ≠ s.dspTarget ∨ t.dspBase ≠ s.dspBase ∨ t.dspCur ≠ s.dspCur → Dispenses i

theorem ownRegisters_refl (i : Instr) (s : State) : OwnRegisters i s s := by
  constructor <;> simp

theorem wrote_ownRegisters {i : Instr} {place : Place} {s t : State} (h : Wrote i place s t) : OwnRegisters i s t := by
  induction h with
  | nothing => exact ownRegisters_refl i s
  | lcdByte _ hi _ ih => exact { ih with lcdByte := fun _ => hi }
  | strPtr _ hi _ ih => exact { ih with strPtr := fun _ => hi }
  | clearSample hi _ ih => exact { ih with sample := fun _ => hi }
  | takeBit q hi _ => exact { ownRegisters_refl i s with sample := fun _ => hi }
  | clearAverage hi _ ih | takeSample hi _ ih => exact { ih with average := fun _ => hi }
  | dspTarget _ hi _ ih | dspBase _ hi _ ih | dspCur _ hi _ ih => exact { ih with dispense := fun _ => hi }

theorem onward_ownRegisters {i : Instr} {place place' : Place} {s t : State} {p : Prim} (h : Onward i place s t p place') :
    OwnRegisters i s t := by
  cases h with
  | call hw | pulse _ hw => exact wrote_ownRegisters hw
  | poll => exact ownRegisters_refl i s
  | inited | owned | released => exact { ownRegisters_refl i s with }
  | tared _ hw | scaled _ hw => exact { wrote_ownRegisters hw with }

/-- `lcd_inited` is set before the `return` of `LCD.INIT`; `twi_owned` is set before that of `TWI.START` and cleared before that of
`TWI.STOP`. -/
structure OwnBookkeeping (i : Instr) (s t : State) (p : Prim) : Prop where
  inited : t.lcdInited ≠ s.lcdInited → i = .lcdInit ∧ t.lcdInited = true ∧ p.isRet = true
  owned : t.twiOwned ≠ s.twiOwned → p.isRet = true ∧ (i = .twiStart ∧ t.twiOwned = true ∨ i = .twiStop ∧ t.twiOwned = false)

theorem ownBookkeeping_of_eq {i : Instr} {s t : State} {p : Prim} (h : t.lcdInited = s.lcdInited ∧ t.twiOwned = s.twiOwned) :
    OwnBookkeeping i s t p := ⟨fun hne => absurd h.1 hne, fun hne => absurd h.2 hne⟩

theorem wrote_bookkeeping {i : Instr} {place : Place} {s t : State} (h : Wrote i place s t) :
    t.lcdInited = s.lcdInited ∧ t.twiOwned = s.twiOwned := by
  induction h with
  | nothing | takeBit => exact ⟨rfl, rfl⟩
  | lcdByte _ _ _ ih | strPtr _ _ _ ih | clearSample _ _ ih | clearAverage _ _ ih | takeSample _ _ ih | dspTarget _ _ _ ih
  | dspBase _ _ _ ih | dspCur _ _ _ ih => exact ih

theorem onward_ownBookkeeping {i : Instr} {place place' : Place} {s t : State} {p : Prim} (h : Onward i place s t p place') :
    OwnBookkeeping i s t p := by
  cases h with
  | call hw | pulse _ hw => exact ownBookkeeping_of_eq (wrote_bookkeeping hw)
  | tared _ hw | scaled _ hw => have heq := wrote_bookkeeping hw; exact ownBookkeeping_of_eq heq
  | poll => exact ownBookkeeping_of_eq ⟨rfl, rfl⟩
  | inited hi => exact ⟨fun _ => ⟨hi, rfl, rfl⟩, fun hne => absurd rfl hne⟩
  | owned hi => exact ⟨fun hne => absurd rfl hne, fun _ => ⟨rfl, .inl ⟨hi, rfl⟩⟩⟩
  | released hi => exact ⟨fun hne => absurd rfl hne, fun _ => ⟨rfl, .inr ⟨hi, rfl⟩⟩⟩

/-! ### One step of a running operation -/

theorem callFits_of_primFits {i : Instr} {p : Prim} (h : primFits i p = true) : callFits i p = true := by
  cases p with
  | readReady | motor | twiReq | memRead | ret => cases h
  | _ => exact h

/-- `p` is a primitive that operation `i` calls; a poll comes while its own bus action is pending (R123). -/
def OwnCall (i : Instr) (s : State) (p : Prim) : Prop :=
  callFits i p = true ∨ p = .twiPoll ∧ usesTwi i = true ∧ s.twiReq = actionOf i

/-- `t` has the display's lines, latch and direction of `s`. -/
structure SameBus (s t : State) : Prop where
  dir : t.lcdDDir = s.lcdDDir
  latch : t.lcdDOut = s.lcdDOut
  rs : t.lcdRs = s.lcdRs
  rw : t.lcdRw = s.lcdRw
  e : t.lcdE = s.lcdE

theorem silent_sameBus {s t : State} (h : Silent s t) : SameBus s t := by
  rw [h]; exact ⟨rfl, rfl, rfl, rfl, rfl⟩

/-- A step of operation `i` from `s`: its silent statements lead to `u` and write no register but its own, then it calls `p`, a primitive
of its own. -/
structure Calls (i : Instr) (s u : State) (p : Prim) : Prop where
  lines : u.lines = s.lines
  bus : SameBus s u
  engine : SameEngine s u
  registers : OwnRegisters i s u
  bookkeeping : OwnBookkeeping i s u p
  own : OwnCall i u p

theorem calls_of_silent {i : Instr} {s u : State} {p : Prim} (h : Silent s u) (hr : OwnRegisters i s u) (hb : OwnBookkeeping i s u p)
    (ho : OwnCall i u p) (q : Seq) : Calls i s { u with seq := q } p :=
  have hl := silent_lines h
  ⟨hl, { silent_sameBus h with }, { silent_sameEngine h with }, { hr with }, { hb with }, ho⟩

/-- With nothing written before it. -/
theorem calls_now {i : Instr} {s : State} {p : Prim} (h : OwnCall i s p) (q : Seq) : Calls i s { s with seq := q } p :=
  calls_of_silent (silent_refl s) (ownRegisters_refl i s) (ownBookkeeping_of_eq ⟨rfl, rfl⟩) h q

theorem ownCall_todo {i : Instr} {p : Prim} {rest : List Prim} {place : Place} {s : State} (h : Sound s)
    (hs : s.seq = .busy i (p :: rest) place) : OwnCall i s p := by
  obtain ⟨hf, ht, -, -, hw⟩ := (sound_busy hs).1 h
  obtain ⟨⟨o, v, rfl⟩, -, -⟩ | ⟨rfl, rfl, rfl⟩ | ⟨hp, -, -⟩ := todoFits_cons ht
  · exact .inl rfl
  · obtain ⟨he, -⟩ | ⟨-, hq, -⟩ := hw
    · cases he
    · exact .inr ⟨rfl, hf, hq⟩
  · exact .inl (callFits_of_primFits hp)

theorem ownCall_onward {i : Instr} {place place' : Place} {s u : State} {p : Prim} (h : Sound s) (hs : s.seq = .busy i [] place)
    (ho : Onward i place s u p place') : OwnCall i u p := by
  obtain ⟨-, -, -, -, hw⟩ := (sound_busy hs).1 h
  cases ho with
  | call _ hp => exact .inl hp
  | pulse _ _ hi => exact .inl hi
  | inited | owned | released | tared | scaled => exact .inl rfl
  | poll hi hp htc =>
    subst hp
    obtain ⟨-, htc', -⟩ | ⟨-, hq, -⟩ := hw
    · rw [htc] at htc'; cases htc'
    · exact .inr ⟨rfl, hi, hq⟩

/-- Everything one step of a running operation can do to a sound state. -/
theorem exec_calls {i : Instr} {s t : State} {todo : List Prim} {place : Place} (h : Sound s) (hs : s.seq = .busy i todo place)
    (hx : exec i s = .next t) : ∃ u p, Calls i s u p ∧ t = doPrim i p u := by
  obtain ⟨hidle, -⟩ | ⟨p, rest, place', hs', rfl⟩ | ⟨place', u, p, rest, place'', hs', hr, rfl⟩ | ⟨j, _, _, hs', hne, -⟩ := exec_cases hx
  · rw [hs] at hidle; cases hidle
  · exact ⟨_, p, calls_now (ownCall_todo h hs') _, rfl⟩
  · have ho := onward_of_go hr
    have hsil := (resume_silent i place' s).silent hr
    exact ⟨_, p, calls_of_silent hsil (onward_ownRegisters ho) (onward_ownBookkeeping ho) (ownCall_onward h hs' ho) _, rfl⟩
  · rw [hs] at hs'; cases hs'; exact absurd rfl hne

theorem running_busy {s : State} {i : Instr} {todo : List Prim} {place : Place} (hs : s.seq = .busy i todo place) :
    s.running = some i := by rw [State.running, hs]

/-! ### Who drives the two-wire engine -/

theorem OwnCall.usesTwi {i : Instr} {s : State} {p : Prim} (h : OwnCall i s p) (hp : p.isTwi = true) : usesTwi i = true := by
  obtain h | ⟨-, hi, -⟩ := h
  · cases p with
    | twiReq kind b => exact (Bool.and_eq_true_iff.1 h).1
    | twiPoll => cases h
    | _ => cases hp
  · exact hi

/-- The operations that hand a byte over, and the receiving ones (R122, R123). -/
theorem payloadOf_some {i : Instr} {b : Byte} (h : payloadOf i = some b) : i = .twiWrb b := by
  cases i with
  | twiWrb c => exact congrArg _ (Option.some.inj h)
  | _ => cases h

theorem actionOf_receives {i : Instr} (h : (actionOf i).receives = true) : i = .twiRda ∨ i = .twiRdn := by
  cases i with
  | twiRda => exact .inl rfl
  | twiRdn => exact .inr rfl
  | _ => cases h

/-- `twi_dr` takes the byte of a `TX` when it is handed over and the byte of a receive when it completes (R30). -/
theorem OwnCall.twiDr {i : Instr} {p : Prim} {s : State} (h : OwnCall i s p)
    (hne : (doPrim i p s).twiDr ≠ s.twiDr) : (∃ b, i = .twiWrb b) ∨ i = .twiRda ∨ i = .twiRdn := by
  cases hp : p.isTwi with
  | false => exact absurd (doPrim_sameEngine hp s).twiDr hne
  | true =>
    obtain h | ⟨rfl, -, hq⟩ := h
    · cases p with
      | twiReq kind b =>
        have hb : b = payloadOf i := eq_of_beq (Bool.and_eq_true_iff.1 h).2
        cases b with
        | none => exact absurd rfl hne
        | some b => exact .inl ⟨b, payloadOf_some hb.symm⟩
      | twiPoll => cases h
      | _ => cases hp
    · obtain ⟨ans, env, d, he⟩ := pollTwi_spec s
      cases hr : (actionOf i).receives with
      | true => exact .inr (actionOf_receives hr)
      | false => exact absurd (by rw [doPrim, he, hq, hr]; simp) hne

/-- Settles O20: acceptance writes no data register; a step of a running operation writes its own in silent statements, and `twi_dr` in
its primitive. -/
theorem registerOwners : Obligations.RegisterOwners := by
  intro s t h hpow hstep
  obtain ⟨hpow', -⟩ | ⟨-, -, -, rfl⟩ | ⟨-, -, -, i, -, -, rfl⟩ | ⟨-, i, todo, place, hs, hx⟩ := step_cases hstep
  · rw [hpow] at hpow'; cases hpow'
  · simp
  · simp
  · obtain ⟨u, p, hc, rfl⟩ := exec_calls h hs hx
    have hsame := doPrim_sameRegisters i p u
    rw [running_busy hs, hsame.lcdByte, hsame.strPtr, hsame.adcShift, hsame.adcCnt, hsame.avgSum, hsame.avgI, hsame.dspTarget,
      hsame.dspBase, hsame.dspCur, ← hc.engine.twiDr]
    simp only [Option.some.injEq]
    exact ⟨fun hne => ⟨i, rfl, hc.registers.lcdByte hne⟩, hc.registers.strPtr, hc.own.twiDr,
      fun hne => ⟨i, rfl, hc.registers.sample hne⟩, fun hne => ⟨i, rfl, hc.registers.average hne⟩, hc.registers.dispense⟩

/-! ### Who drives the pins (R26, R27, R34, R38) -/

/-- A primitive drives the display's lines, latch or direction. -/
def Prim.drivesBus : Prim → Bool
  | .pinDir _ => true
  | .pinWrite .adcSck _ => false
  | .pinWrite _ _ => true
  | .busWrite _ => true
  | _ => false

theorem doPrim_sameBus {op : Instr} {p : Prim} (h : p.drivesBus = false) (s : State) : SameBus s (doPrim op p s) := by
  cases p with
  | pinWrite p v =>
    cases p with
    | adcSck => exact ⟨rfl, rfl, rfl, rfl, rfl⟩
    | _ => cases h
  | readBusy => obtain ⟨_, _, _, h⟩ := readBusy_spec s; rw [doPrim, h]; exact ⟨rfl, rfl, rfl, rfl, rfl⟩
  | readReady => obtain ⟨_, _, _, h⟩ := readReady_spec s; rw [doPrim, h]; exact ⟨rfl, rfl, rfl, rfl, rfl⟩
  | readBit => obtain ⟨_, _, _, h⟩ := readBit_spec s; rw [doPrim, h]; exact ⟨rfl, rfl, rfl, rfl, rfl⟩
  | twiPoll => obtain ⟨_, _, _, h⟩ := pollTwi_spec s; rw [doPrim, h]; exact ⟨rfl, rfl, rfl, rfl, rfl⟩
  | pinDir | busWrite => cases h
  | _ => exact ⟨rfl, rfl, rfl, rfl, rfl⟩

theorem OwnCall.fits {i : Instr} {s : State} {p : Prim} (h : OwnCall i s p) (hp : p ≠ .twiPoll) : callFits i p = true :=
  h.resolve_right fun hpoll => hp hpoll.1

theorem OwnCall.usesDisplay {i : Instr} {s : State} {p : Prim} (h : OwnCall i s p) (hp : p.drivesBus = true) : usesDisplay i = true := by
  have h := h.fits (by rintro rfl; cases hp)
  cases p with
  | pinWrite p v =>
    cases p with
    | adcSck => cases hp
    | _ => exact h
  | pinDir | busWrite => exact h
  | _ => cases hp

theorem after_motor {l : Lines} {p : Prim} (h : (l.after p).motor ≠ l.motor) : ∃ level, p = .motor level := by
  cases p with
  | motor level => exact ⟨level, rfl⟩
  | pinWrite p v => cases p <;> exact absurd rfl h
  | _ => exact absurd rfl h

theorem after_sck {l : Lines} {p : Prim} (h : (l.after p).sck ≠ l.sck) : ∃ v, p = .pinWrite .adcSck v := by
  cases p with
  | pinWrite p v =>
    cases p with
    | adcSck => exact ⟨v, rfl⟩
    | _ => exact absurd rfl h
  | _ => exact absurd rfl h

theorem dispenses_of_isDispense {i : Instr} (h : isDispense i = true) : Dispenses i := by
  cases i with
  | dspRun target => exact ⟨target, rfl⟩
  | _ => cases h

/-- Settles O21: acceptance moves no pin and no bookkeeping bit; a step of a running operation sets bookkeeping before its `return`, and
drives pins and engine in a primitive of its own. -/
theorem controlStateWriters : Obligations.ControlStateWriters := by
  intro s t h hpow hstep
  obtain ⟨hpow', -⟩ | ⟨-, -, -, rfl⟩ | ⟨-, -, -, i, -, -, rfl⟩ | ⟨-, i, todo, place, hs, hx⟩ := step_cases hstep
  · rw [hpow] at hpow'; cases hpow'
  · simp
  · simp
  · obtain ⟨u, p, hc, rfl⟩ := exec_calls h hs hx
    have hsame := doPrim_sameRegisters i p u
    have hlines : (doPrim i p u).lines = s.lines.after p := by rw [doPrim_lines, hc.lines]
    rw [running_busy hs, hsame.lcdInited, hsame.twiOwned]
    simp only [Option.some.injEq]
    refine ⟨fun hne => ?_, fun hne => ?_, fun hne => ?_, fun hne => ⟨i, rfl, ?_⟩, fun hne => ⟨i, rfl, ?_⟩, fun hne => ⟨i, rfl, ?_⟩⟩
    · obtain ⟨hi, hset, hret⟩ := hc.bookkeeping.inited hne
      exact ⟨hi, hset, doPrim_seq_of_isRet hret u⟩
    · obtain ⟨hret, hi⟩ := hc.bookkeeping.owned hne
      exact ⟨doPrim_seq_of_isRet hret u, hi⟩
    · have hmotor : (s.lines.after p).motor ≠ s.lines.motor := by rw [← hlines]; exact hne
      obtain ⟨level, rfl⟩ := after_motor hmotor
      exact dispenses_of_isDispense (hc.own.fits (by simp))
    · refine hc.own.usesDisplay (Bool.not_eq_false _ |>.mp fun hp => ?_)
      have hkeep := doPrim_sameBus (op := i) hp u
      rw [hkeep.dir, hkeep.latch, hkeep.rs, hkeep.rw, hkeep.e, hc.bus.dir, hc.bus.latch, hc.bus.rs, hc.bus.rw, hc.bus.e] at hne
      simp at hne
    · have hsck : (s.lines.after p).sck ≠ s.lines.sck := by rw [← hlines]; exact hne
      obtain ⟨v, rfl⟩ := after_sck hsck
      exact hc.own.fits (by simp)
    · refine hc.own.usesTwi (Bool.not_eq_false _ |>.mp fun hp => ?_)
      have hkeep := doPrim_sameEngine (op := i) hp u
      rw [hkeep.twiReq, hkeep.twiTc, hc.engine.twiReq, hc.engine.twiTc] at hne
      simp at hne

end Sys2Proof.Machine

namespace Sys2Proof.Machine

/-! ### Where the motor feeds (R38, R188) -/

/-- No piece turns the motor: `SetMotorRate` is always called first from a place. -/
theorem foldl_motor_of_todoFits {i : Instr} {todo : List Prim} {place : Place} (h : todoFits i todo place = true) (l : Lines) :
    (todo.foldl Lines.after l).motor = l.motor := by
  induction todo generalizing l with
  | nil => rfl
  | cons p rest ih =>
    obtain ⟨⟨o, v, rfl⟩, rfl, -⟩ | ⟨rfl, rfl, -⟩ | ⟨hp, hr, -⟩ := todoFits_cons h
    · rfl
    · rfl
    · have hkeep : (l.after p).motor = l.motor := by
        by_contra hne
        obtain ⟨level, rfl⟩ := after_motor hne
        cases hp
      rw [List.foldl_cons, ih hr, hkeep]

/-- The places with the motor at `FEEDING` are those of the dispensing loop. -/
theorem isDispense_of_feeding {i : Instr} {place : Place} (hp : placeFits i place = true) (h : (linesAt place).motor = .feeding) :
    isDispense i = true := by
  cases place with
  | dspMass => exact hp
  | adcUntil q | adcPulse q | adcExtra q =>
    cases q with
    | loop => exact eq_of_beq (Bool.and_eq_true_iff.1 hp).2
    | _ => cases h
  | _ => cases h

/-- Settles O26: the motor level of a sound state is that of the place its piece leads to. -/
theorem motorFeedsOnlyInRun : Obligations.MotorFeedsOnlyInRun := by
  intro s h hm
  cases hs : s.seq with
  | idle =>
    have hrest : s.lines.motor = .idle := congrArg Lines.motor ((sound_idle hs).1 h).1
    rw [State.lines, hm] at hrest
    cases hrest
  | busy i todo place =>
    obtain ⟨hf, ht, hl, -, -⟩ := (sound_busy hs).1 h
    have hplace : (linesAt place).motor = .feeding := by
      rw [← hl, foldl_motor_of_todoFits ht]; exact hm
    obtain ⟨target, rfl⟩ := dispenses_of_isDispense (isDispense_of_feeding hf hplace)
    exact ⟨target, running_busy hs⟩

/-! ### The machine's steps and the operation's (R21, R23) -/

/-- A step of an operation, its acceptance included, keeps the power input; it returns, or the operation is running after it. -/
theorem exec_running {i : Instr} {s t : State} (hs : s.seq = .idle ∨ s.running = some i) (hx : exec i s = .next t) :
    t.powerCycle = s.powerCycle ∧ (t.seq = .idle ∨ t.running = some i) := by
  have position (p : Prim) (u : State) (rest : List Prim) (place : Place) :
      (doPrim i p { u with seq := .busy i rest place }).seq = .idle ∨
        (doPrim i p { u with seq := .busy i rest place }).running = some i := by
    cases hp : p.isRet with
    | true => exact .inl (doPrim_seq_of_isRet hp _)
    | false => exact .inr (running_busy (doPrim_seq hp _))
  obtain ⟨-, -, rfl⟩ | ⟨p, rest, place, -, rfl⟩ | ⟨place, u, p, rest, place', -, hr, rfl⟩ | ⟨j, _, _, hj, hne, -⟩ := exec_cases hx
  · exact ⟨rfl, .inr rfl⟩
  · exact ⟨(doPrim_sameRegisters ..).powerCycle, position p s rest place⟩
  · have hu := silent_powerCycle ((resume_silent i place s).silent hr)
    exact ⟨(doPrim_sameRegisters ..).powerCycle.trans hu, position p u rest place'⟩
  · simp [State.running, hj, hne] at hs

theorem step_running {i : Instr} {s : State} (hp : s.powerCycle = false) (hs : s.running = some i) : step s = exec i s := by
  cases hq : s.seq with
  | idle => rw [State.running, hq] at hs; cases hs
  | busy j todo place =>
    rw [running_busy hq] at hs
    cases hs
    exact step_busy hp hq

theorem step_decoded {i : Instr} {s : State} (hp : s.powerCycle = false) (hs : s.seq = .idle) (hv : s.cmdValid = true)
    (hd : decode s.cmdWord = .ok i) : step s = exec i s := by
  simp [step, hp, hs, hv, State.presented, hd]

/-- The operation has not returned before the last of its first `k` steps. -/
def RunsWhole (i : Instr) (k : Nat) (s : State) : Prop := ∀ j u, 0 < j → j < k → runOp i j s = .next u → u.seq ≠ .idle

theorem runsWhole_tail {i : Instr} {k : Nat} {s t : State} (h : RunsWhole i (k + 1) s) (hx : exec i s = .next t) : RunsWhole i k t :=
  fun j u _ hj hu => h (j + 1) u (Nat.succ_pos j) (Nat.succ_lt_succ hj) (by rw [runOp, hx]; exact hu)

theorem core_run_succ {s u : State} (h : step s = .next u) (k : Nat) : Sys2Proof.core.run (k + 1) s = Sys2Proof.core.run k u := by
  have hcore : Sys2Proof.core.step s = .next u := h
  simp only [Host.Core.run, hcore]

/-- Where the machine's step is the operation's, so are the steps after it, until the operation returns. -/
theorem run_of_runOp {i : Instr} {k : Nat} {s t : State} (hp : s.powerCycle = false) (hs : s.seq = .idle ∨ s.running = some i)
    (hstep : step s = exec i s) (hrun : runOp i k s = .next t) (hwhole : RunsWhole i k s) : Sys2Proof.core.run k s = .next t := by
  induction k generalizing s with
  | zero => exact hrun
  | succ k ih =>
    rw [runOp] at hrun
    cases hx : exec i s with
    | fault f => rw [hx] at hrun; cases hrun
    | refused r => rw [hx] at hrun; cases hrun
    | next u =>
      rw [hx] at hrun
      rw [core_run_succ (hstep.trans hx)]
      obtain ⟨hpu, hu⟩ := exec_running hs hx
      cases k with
      | zero => exact hrun
      | succ k =>
        have hbusy : u.running = some i := hu.resolve_left (hwhole 1 u Nat.one_pos (by omega) (by rw [runOp, hx]; rfl))
        exact ih (hpu.trans hp) (.inr hbusy) (step_running (hpu.trans hp) hbusy) hrun (runsWhole_tail hwhole hx)

/-- Settles O7: the first step accepts the decoded command, the rest is `run_of_runOp`. -/
theorem machineRunsOperation : Obligations.MachineRunsOperation := by
  intro i k s t hp hs hv hd hrun hwhole
  exact run_of_runOp hp (.inl hs) (step_decoded hp hs hv hd) hrun hwhole

/-- Settles O6: the three branches of `step` of a powered block. -/
theorem stepRunsDecoded : Obligations.StepRunsDecoded := by
  intro s hp
  refine ⟨fun i hs hv hd => step_decoded hp hs hv hd, fun i todo place hs => step_busy hp hs, fun hs hv => ?_⟩
  simp [step, hp, hs, hv]

/-- Settles O10: the host's acts test `seq`, and `exec` runs only the operation that is running. -/
theorem hostWaitsWhileBusy : Obligations.HostWaitsWhileBusy := by
  intro s i todo place hs
  have hbusy : s.isBusy = true := by simp [State.isBusy, hs]
  refine ⟨fun w => if_pos hbusy, fun a v => if_pos hbusy, fun j hne => ?_⟩
  rw [exec_eq, runOperation, hs]
  exact if_neg hne.symm

/-- Settles O14: the restart writes every one of these values (R49). -/
theorem restartAtAnyStep : Obligations.RestartAtAnyStep := by
  intro s hp
  refine ⟨s.restart, step_powerCycle hp, ?_⟩
  simp [State.restart, State.resetWith, State.twiLinesReleased]

/-- Settles O15: each value is written out in `State.resetWith`. -/
theorem resetValues : Obligations.ResetValues :=
  ⟨rfl, rfl, rfl, rfl, rfl, rfl, rfl, rfl, rfl, rfl, rfl, rfl, rfl, rfl, rfl, rfl, rfl⟩

/-! ### The last step of `DSP.RUN` (R189) -/

/-- Settles O54: the `return` is all that is left of the piece. -/
theorem dspReturns : Obligations.DspReturns := by
  intro s target
  exact ⟨fun hs => ⟨_, exec_todo hs, rfl⟩, fun hs => ⟨_, exec_todo hs, rfl⟩⟩

end Sys2Proof.Machine

namespace Sys2Proof.Machine

/-! ### The command port of a busy block (R23) -/

/-- `s` with anything on the command port. -/
def State.withPort (s : State) (v : Bool) (w : CmdWord) : State := { s with cmdValid := v, cmdWord := w }

/-- The advance with the port of the state it goes on in replaced. -/
def Advance.withPort (v : Bool) (w : CmdWord) : Advance → Advance
  | .go s p rest place => .go (s.withPort v w) p rest place
  | .fault f => .fault f

/-- The outcome of a step with the port of the next state replaced. -/
def portOf (v : Bool) (w : CmdWord) : Result → Result
  | .next t => .next (t.withPort v w)
  | .fault f => .fault f
  | .refused r => .refused r

section Port

variable {v : Bool} {w : CmdWord}

/-! #### Primitives -/

theorem drawLcd_withPort (s : State) : (s.withPort v w).drawLcd = (s.drawLcd.1, s.drawLcd.2.withPort v w) := by
  simp only [State.drawLcd, State.withPort]
  split <;> rfl

theorem drawAdc_withPort (s : State) : (s.withPort v w).drawAdc = (s.drawAdc.1, s.drawAdc.2.withPort v w) := by
  simp only [State.drawAdc, State.withPort]
  split <;> rfl

theorem drawTwi_withPort (s : State) : (s.withPort v w).drawTwi = (s.drawTwi.1, s.drawTwi.2.withPort v w) := by
  simp only [State.drawTwi, State.withPort]
  split <;> rfl

theorem pollTwi_withPort (s : State) : (s.withPort v w).pollTwi = s.pollTwi.withPort v w := by
  simp only [State.pollTwi, drawTwi_withPort]
  cases htc : s.drawTwi.1.tc with
  | false => rfl
  | true => cases hr : s.drawTwi.2.twiReq.receives <;> simp [State.withPort, hr] <;> rfl

theorem doPrim_withPort (i : Instr) (p : Prim) (s : State) : doPrim i p (s.withPort v w) = (doPrim i p s).withPort v w := by
  cases p with
  | pinWrite p _ => cases p <;> rfl
  | readBusy => simp only [doPrim, State.readBusy, drawLcd_withPort]; rfl
  | readReady => simp only [doPrim, State.readReady, drawAdc_withPort]; rfl
  | readBit => simp only [doPrim, State.readBit, drawAdc_withPort]; rfl
  | twiPoll => exact pollTwi_withPort s
  | _ => rfl

/-! #### Helper procedures -/

theorem ite_withPort {c : Prop} [Decidable c] {a b a' b' : Advance} (ha : a' = a.withPort v w) (hb : b' = b.withPort v w) :
    (if c then a' else b') = (if c then a else b).withPort v w := by split <;> assumption

theorem lcdUntil_withPort (u : LcdUse) (s : State) : lcdUntil u (s.withPort v w) = (lcdUntil u s).withPort v w :=
  ite_withPort rfl rfl

theorem showMessage_withPort (m : Msg) (elems : List MsgElem) {done : State → Advance}
    (hd : ∀ s, done (s.withPort v w) = (done s).withPort v w) (s : State) :
    showMessage m elems done (s.withPort v w) = (showMessage m elems done s).withPort v w := by
  match elems with
  | [] => exact hd s
  | .instr _ :: _ => rfl
  | .char _ :: _ => rfl

theorem averageStart_withPort (n : Nat) (q : Reading) (s : State) :
    averageStart n q (s.withPort v w) = (averageStart n q s).withPort v w := ite_withPort rfl rfl

theorem massStart_withPort (n : Nat) (q : Reading) (s : State) :
    massStart n q (s.withPort v w) = (massStart n q s).withPort v w :=
  ite_withPort rfl (ite_withPort rfl (averageStart_withPort n q s))

theorem averageAfterSample_withPort (n : Nat) (q : Reading) {done : FLOAT → State → Advance}
    (hd : ∀ a s, done a (s.withPort v w) = (done a s).withPort v w) (s : State) :
    averageAfterSample n q done (s.withPort v w) = (averageAfterSample n q done s).withPort v w :=
  ite_withPort rfl (hd _ s.takeSample)

theorem massFinish_withPort {done : FLOAT → State → Advance} (hd : ∀ a s, done a (s.withPort v w) = (done a s).withPort v w)
    (a : FLOAT) (s : State) : massFinish done a (s.withPort v w) = (massFinish done a s).withPort v w :=
  ite_withPort (hd _ s) rfl

theorem adcAfterPulse_withPort (q : Reading) {done : State → Advance} (hd : ∀ s, done (s.withPort v w) = (done s).withPort v w)
    (s : State) : adcAfterPulse q done (s.withPort v w) = (adcAfterPulse q done s).withPort v w := by
  refine ite_withPort rfl ?_
  have hp : (s.withPort v w).params = s.params := rfl
  rw [hp]
  split
  · exact hd s.takeBit
  · rfl

theorem resumeSample_withPort {done : Reading → State → Advance}
    (hd : ∀ q s, done q (s.withPort v w) = (done q s).withPort v w) (place : Place) (s : State) :
    resumeSample done place (s.withPort v w) = (resumeSample done place s).withPort v w := by
  cases place with
  | adcUntil q => exact ite_withPort rfl rfl
  | adcPulse q => exact adcAfterPulse_withPort q (hd q) s
  | adcExtra q => exact hd q s
  | _ => rfl

/-! #### Operations -/

theorem resumeLcdInit_withPort (place : Place) (s : State) :
    resumeLcdInit place (s.withPort v w) = (resumeLcdInit place s).withPort v w := by
  cases place with
  | lcdUntil u => exact lcdUntil_withPort u s
  | lcdDone u =>
    cases u with
    | init steps =>
      match steps with
      | [] => rfl
      | .wait _ :: _ => rfl
      | .nibble _ :: _ => rfl
      | .instr _ :: _ => rfl
    | _ => rfl
  | _ => rfl

theorem resumeDspRun_withPort (target : FLOAT) (place : Place) (s : State) :
    resumeDspRun target place (s.withPort v w) = (resumeDspRun target place s).withPort v w := by
  have message (m : Msg) (s : State) : dspAfterMessage m (s.withPort v w) = (dspAfterMessage m s).withPort v w := by
    cases m with
    | wait => exact massStart_withPort _ .base s
    | insuff | done => rfl
  have gate (a : FLOAT) (s : State) : dspGate a (s.withPort v w) = (dspGate a s).withPort v w :=
    ite_withPort (showMessage_withPort .insuff _ (message .insuff) { s with dspBase := a }) rfl
  have test (a : FLOAT) (s : State) : dspTest a (s.withPort v w) = (dspTest a s).withPort v w := ite_withPort rfl rfl
  have sample (q : Reading) (s : State) : dspAfterSample q (s.withPort v w) = (dspAfterSample q s).withPort v w := by
    cases q with
    | only => rfl
    | base => exact averageAfterSample_withPort _ .base (massFinish_withPort gate) s
    | loop => exact averageAfterSample_withPort 1 .loop (massFinish_withPort test) s
  unfold resumeDspRun
  split
  · exact ite_withPort rfl (showMessage_withPort .wait _ (message .wait) { s with dspTarget := target })
  · exact lcdUntil_withPort _ s
  · exact showMessage_withPort _ _ (message _) s
  · exact massStart_withPort 1 .loop s
  · exact resumeSample_withPort sample place s

theorem resumeOf_withPort (i : Instr) (place : Place) (s : State) :
    resumeOf i place (s.withPort v w) = (resumeOf i place s).withPort v w := by
  cases i with
  | lcdInit => exact resumeLcdInit_withPort place s
  | lcdWri | lcdWrc =>
    cases place with
    | lcdUntil u => exact lcdUntil_withPort u s
    | _ => rfl
  | lcdWrs addr =>
    cases place with
    | lcdUntil u => exact lcdUntil_withPort u s
    | strRead => exact ite_withPort rfl rfl
    | _ => rfl
  | twiStart | twiStop | twiWrb | twiRda | twiRdn =>
    cases place with
    | twiUntil => exact ite_withPort rfl rfl
    | _ => rfl
  | adcRaw =>
    simp only [resumeOf, resumeAdcRaw]
    split
    · rfl
    · exact resumeSample_withPort (fun _ _ => rfl) place s
  | adcAvg n =>
    simp only [resumeOf, resumeAdcAvg]
    split
    · exact averageStart_withPort n .only s
    · exact resumeSample_withPort (fun q => averageAfterSample_withPort n q fun _ _ => rfl) place s
  | wghMass n =>
    simp only [resumeOf, resumeWghMass]
    split
    · exact massStart_withPort n .only s
    · exact resumeSample_withPort (fun q => averageAfterSample_withPort n q (massFinish_withPort fun _ _ => rfl)) place s
  | wghTare n =>
    simp only [resumeOf, resumeWghTare]
    split
    · exact averageStart_withPort n .only s
    · exact resumeSample_withPort (fun q => averageAfterSample_withPort n q fun _ _ => rfl) place s
  | wghCal ref =>
    have calibrate (a : FLOAT) (s : State) : calibrateFinish ref a (s.withPort v w) = (calibrateFinish ref a s).withPort v w :=
      ite_withPort rfl rfl
    simp only [resumeOf, resumeWghCal]
    split
    · exact ite_withPort rfl (ite_withPort rfl (averageStart_withPort _ .only s))
    · exact resumeSample_withPort (fun q => averageAfterSample_withPort _ q calibrate) place s
  | dspRun target => exact resumeDspRun_withPort target place s

theorem run_withPort (i : Instr) (a : Advance) : (a.withPort v w).run i = portOf v w (a.run i) := by
  cases a with
  | go s p rest place => exact congrArg Host.Outcome.next (doPrim_withPort i p { s with seq := .busy i rest place })
  | fault f => rfl

/-- A busy block's step under any port. -/
theorem exec_withPort {i : Instr} {s : State} {todo : List Prim} {place : Place} (hs : s.seq = .busy i todo place) :
    exec i (s.withPort v w) = portOf v w (exec i s) := by
  have hs' : (s.withPort v w).seq = .busy i todo place := hs
  cases todo with
  | cons p rest =>
    rw [exec_todo hs, exec_todo hs']
    exact congrArg Host.Outcome.next (doPrim_withPort i p { s with seq := .busy i rest place })
  | nil => rw [exec_place hs, exec_place hs', resumeOf_withPort, run_withPort]

end Port

/-- Settles O9: the running operation's pseudocode and its primitives do not look at the port. -/
theorem busyIgnoresCommandPort : Obligations.BusyIgnoresCommandPort := by
  intro s v w hp hs
  have hstep : step (s.withPort v w) = portOf v w (step s) := by
    cases hq : s.seq with
    | idle => exact absurd hq hs
    | busy i todo place =>
      have hport : step (s.withPort v w) = exec i (s.withPort v w) := step_busy hp hq
      rw [hport, step_busy hp hq, exec_withPort hq]
  refine hstep.trans ?_
  cases step s <;> rfl

end Sys2Proof.Machine

namespace Sys2Proof.Machine

/-! ### A command word and its operation (R71 to R76) -/

/-- What an operation's operand keeps of the operand field, put back in its place (R72, R73). -/
def keptBits : Format → Imm → Imm
  | .N, _ => 0
  | .B, imm => (imm.extractLsb' 0 8).setWidth 32
  | .C, imm => (imm.extractLsb' 0 8).setWidth 32
  | .A, imm => (imm.extractLsb' 0 16).setWidth 32
  | .F, imm => imm

/-- A field is its low bits where the bits above them are 0. -/
theorem lowBits_eq {imm m : Imm} {n : Nat} (hm : ∀ k < 32, n ≤ k → m.getLsbD k = true) (h : imm &&& m = 0#32) :
    (imm.extractLsb' 0 n).setWidth 32 = imm := by
  ext k hk
  rw [BitVec.getElem_setWidth, BitVec.getLsbD_extractLsb', Nat.zero_add, ← BitVec.getLsbD_eq_getElem]
  by_cases hkn : k < n
  · rw [decide_eq_true hkn, Bool.true_and]
  · have hbit : (imm &&& m).getLsbD k = false := by rw [h]; exact BitVec.getLsbD_zero
    rw [BitVec.getLsbD_and, hm k hk (Nat.le_of_not_lt hkn), Bool.and_true] at hbit
    rw [hbit, Bool.and_false]

theorem keptBits_eq {f : Format} {imm : Imm} (h : imm &&& f.mustBeZero = 0#32) : keptBits f imm = imm := by
  cases f with
  | N =>
    have hall : imm &&& BitVec.allOnes 32 = 0#32 := h
    rw [BitVec.and_allOnes] at hall
    exact hall.symm
  | B | C => exact lowBits_eq (by decide) h
  | A => exact lowBits_eq (by decide) h
  | F => rfl

theorem opcode_of_operationOf {op : Byte} {imm : Imm} {i : Instr} (h : operationOf op imm = some i) : opcode i = op := by
  unfold operationOf at h
  split at h <;> cases h <;> exact BitVec.eq_of_toNat_eq (Eq.symm ‹_›)

theorem immOf_of_operationOf {op : Byte} {imm : Imm} {f : Format} {i : Instr} (hf : formatOf op = some f)
    (h : operationOf op imm = some i) : immOf i = keptBits f imm := by
  obtain rfl := opcode_of_operationOf h
  cases i with
  | adcAvg | wghMass | wghTare =>
    cases hf
    cases h
    exact congrArg (BitVec.setWidth 32) ((BitVec.ofNat_toNat ..).trans (BitVec.setWidth_eq _))
  | _ =>
    cases hf
    cases h
    rfl

/-- A command that decodes has the one word of its operation (R71 to R76). -/
theorem encode_of_decode {w : CmdWord} {i : Instr} (h : decode w = .ok i) : encode i = w := by
  unfold decode at h
  split at h
  · next f j hf hj =>
    split at h
    · next hz =>
      cases h
      rw [encode, opcode_of_operationOf hj, immOf_of_operationOf hf hj, keptBits_eq hz, opField_append_immField]
    · cases h
  · cases h

/-! ### Acceptance (R23, R24) -/

/-- The operation's own admission test lets an admitted command pass (R211). -/
theorem admitOf_none {i : Instr} {s : State} (h : Admitted i s) : admitOf i s = none := by
  obtain ⟨hdisplay, hbus⟩ := h
  cases i with
  | lcdWri | lcdWrc | lcdWrs | dspRun => exact if_pos (hdisplay rfl)
  | twiStop | twiWrb | twiRda | twiRdn => exact if_pos (hbus rfl)
  | _ => rfl

/-- Settles O8: the event of acceptance is the word presented, since decoding loses nothing of it. -/
theorem acceptCommand : Obligations.AcceptCommand := by
  intro i s hp hs hv hd hadmit
  rw [step_decoded hp hs hv hd, exec_idle hs (admitOf_none hadmit), State.accept, encode_of_decode hd]
  rfl

/-! ### The last steps of the ADC and weighing operations (R145 to R166) -/

/-- After the last data pulse, with no extra pulses, the bit is shifted in and the sample is whole (R145). -/
theorem resume_lastPulse {i : Instr} {q : Reading} {done : State → Advance} (hq : ReadsSample i q done) {s : State} (hc : s.adcCnt = 23)
    (he : s.params.adcExtraPulses = 0) :
    resumeOf i (.adcPulse q) s = done { s with adcShift := shiftIn s.adcShift s.loc.bit, adcCnt := 24 } := by
  have hbit : s.takeBit = { s with adcShift := shiftIn s.adcShift s.loc.bit, adcCnt := 24 } := by rw [State.takeBit, hc]; rfl
  have hlast : ¬ s.takeBit.adcCnt < 24 := by rw [takeBit_adcCnt, hc]; decide
  rw [hq.pulse, adcAfterPulse, if_neg hlast, he, hbit]

/-- With the last sample of an average whole, the mean is taken (R149). -/
theorem averageAfterSample_last {s : State} {n : Nat} (hn : n < 256) (hi : s.avgI.toNat + 1 = n) (q : Reading)
    (done : FLOAT → State → Advance) :
    averageAfterSample n q done s = done (fdiv s.takeSample.avgSum (u2f n)) s.takeSample := by
  have hcount : s.takeSample.avgI.toNat = n := by
    rw [takeSample_avgI, BitVec.toNat_add, ← hi]
    exact Nat.mod_eq_of_lt (hi ▸ hn)
  exact if_neg (by omega)

/-- Both together: from the last pulse of the last sample to what the operation does with the mean. -/
theorem resume_lastMean {i : Instr} {q : Reading} {n : Nat} {done : FLOAT → State → Advance}
    (hq : ReadsSample i q (averageAfterSample n q done)) {s : State} (hc : s.adcCnt = 23) (he : s.params.adcExtraPulses = 0)
    (hn : n < 256) (hi : s.avgI.toNat + 1 = n) :
    resumeOf i (.adcPulse q) s =
      done (fdiv (fadd s.avgSum (u2f (rawSample (shiftIn s.adcShift s.loc.bit)).toNat)) (u2f n))
        { s with
          adcShift := shiftIn s.adcShift s.loc.bit
          adcCnt := 24
          avgSum := fadd s.avgSum (u2f (rawSample (shiftIn s.adcShift s.loc.bit)).toNat)
          avgI := s.avgI + 1 } := by
  rw [resume_lastPulse hq hc he, averageAfterSample_last (s := { s with adcShift := shiftIn s.adcShift s.loc.bit, adcCnt := 24 }) hn hi]
  rfl

theorem readsSample_adcRaw : ReadsSample .adcRaw .only fun s => returning s .ok (.u24 (rawSample s.adcShift)) :=
  ⟨fun _ => rfl, fun _ => rfl, fun _ => rfl⟩

theorem readsSample_adcAvg (n : Nat) :
    ReadsSample (.adcAvg n) .only (averageAfterSample n .only fun a s => returning s .ok (.float a)) :=
  ⟨fun _ => rfl, fun _ => rfl, fun _ => rfl⟩

theorem readsSample_wghMass (n : Nat) :
    ReadsSample (.wghMass n) .only (averageAfterSample n .only (massFinish fun m s => returning s .ok (.float m))) :=
  ⟨fun _ => rfl, fun _ => rfl, fun _ => rfl⟩

theorem readsSample_wghTare (n : Nat) :
    ReadsSample (.wghTare n) .only (averageAfterSample n .only fun a s => returning { s with wghOffset := a } .ok .none) :=
  ⟨fun _ => rfl, fun _ => rfl, fun _ => rfl⟩

theorem readsSample_wghCal (ref : FLOAT) :
    ReadsSample (.wghCal ref) .only (averageAfterSample Config.calSamples .only (calibrateFinish ref)) :=
  ⟨fun _ => rfl, fun _ => rfl, fun _ => rfl⟩

/-- Settles O53: each operation stands after its last data pulse, and goes on to its `return`. -/
theorem adcWghReturns : Obligations.AdcWghReturns := by
  intro s hc he
  refine ⟨fun hs => ?_, fun n hn hi hs => ?_, fun n hn hi hs hfin => ?_, fun n hn hi hs => ?_, fun ref hi hs hfin => ?_⟩
  · exact ⟨_, exec_returning hs (resume_lastPulse readsSample_adcRaw hc he), rfl⟩
  · exact ⟨_, exec_returning hs (resume_lastMean (readsSample_adcAvg n) hc he hn hi), rfl⟩
  · exact ⟨_, exec_returning hs ((resume_lastMean (readsSample_wghMass n) hc he hn hi).trans (if_pos hfin)), rfl⟩
  · exact ⟨_, exec_returning hs (resume_lastMean (readsSample_wghTare n) hc he hn hi), rfl⟩
  · have hcount : s.avgI.toNat + 1 = Config.calSamples := by rw [hi]; rfl
    have hr := (resume_lastMean (readsSample_wghCal ref) hc he (by decide) hcount).trans (if_pos hfin)
    rw [hi] at hr
    exact ⟨_, exec_returning hs hr, rfl⟩

end Sys2Proof.Machine

namespace Sys2Proof.Machine

/-! ### Canonical memories are equal when they read alike (R51) -/

theorem memory_wfFrom_cons {lo a : Nat} {v : Byte} {rest : Memory} :
    Memory.wfFrom lo ((a, v) :: rest) = true ↔
      lo ≤ a ∧ a < 65536 ∧ v ≠ strmemUnwritten ∧ Memory.wfFrom (a + 1) rest = true := by
  simp only [Memory.wfFrom, Bool.and_eq_true, decide_eq_true_eq, bne_iff_ne, and_assoc]

theorem memory_read_head (a : Nat) (v : Byte) (rest : Memory) : Memory.read ((a, v) :: rest) a = v := if_pos rfl

theorem memory_read_tail {a b : Nat} (h : a ≠ b) (v : Byte) (rest : Memory) :
    Memory.read ((a, v) :: rest) b = Memory.read rest b := if_neg h

/-- A canonical memory tells its first cell from any memory that begins after it: a listed byte is not what an unlisted one reads as. -/
theorem memory_read_head_ne {lo a : Nat} {v : Byte} {rest m : Memory} (h : Memory.wfFrom lo ((a, v) :: rest) = true)
    (hm : Memory.wfFrom (a + 1) m = true) : Memory.read ((a, v) :: rest) a ≠ Memory.read m a := by
  obtain ⟨-, -, hv, -⟩ := memory_wfFrom_cons.1 h
  rwa [memory_read_head, memory_read_below (Nat.lt_succ_self a) hm]

/-- Canonical memories that agree on every byte are the same list, cell by cell: neither begins before the other, and where they begin they
have the same byte. -/
theorem memory_ext {m m' : Memory} {lo lo' : Nat} (hm : Memory.wfFrom lo m = true) (hm' : Memory.wfFrom lo' m' = true)
    (h : ∀ a < 65536, Memory.read m a = Memory.read m' a) : m = m' := by
  induction m generalizing lo lo' m' with
  | nil =>
    cases m' with
    | nil => rfl
    | cons c' rest' =>
      obtain ⟨-, hb, -, -⟩ := memory_wfFrom_cons.1 hm'
      exact absurd (h c'.1 hb).symm (memory_read_head_ne hm' rfl)
  | cons c rest ih =>
    obtain ⟨a, v⟩ := c
    obtain ⟨-, ha, hv, hrest⟩ := memory_wfFrom_cons.1 hm
    cases m' with
    | nil => exact absurd (h a ha) (memory_read_head_ne hm rfl)
    | cons c' rest' =>
      obtain ⟨b, w⟩ := c'
      obtain ⟨-, hb, hw, hrest'⟩ := memory_wfFrom_cons.1 hm'
      have hab : ¬ a < b := fun hlt =>
        memory_read_head_ne hm (memory_wfFrom_cons.2 ⟨hlt, hb, hw, hrest'⟩) (h a ha)
      have hba : ¬ b < a := fun hlt =>
        memory_read_head_ne hm' (memory_wfFrom_cons.2 ⟨hlt, ha, hv, hrest⟩) (h b hb).symm
      obtain rfl : a = b := by omega
      obtain rfl : v = w := by simpa only [memory_read_head] using h a ha
      rw [ih hrest hrest' fun x hx => ?_]
      rcases Nat.lt_or_ge x (a + 1) with hxa | hxa
      · rw [memory_read_below hxa hrest, memory_read_below hxa hrest']
      · have hne : a ≠ x := by omega
        simpa only [memory_read_tail hne] using h x hx

/-- A restart empties string memory, and no other step writes it (R51, R234). -/
theorem step_memory_wf {s t : State} (hm : Memory.wf s.strmem = true) (h : step s = .next t) : Memory.wf t.strmem = true := by
  cases hp : s.powerCycle with
  | true =>
    rw [step_powerCycle hp] at h
    cases h
    rfl
  | false => rwa [step_strmem hp h]

/-- A host write keeps the form; a busy block does not take it (R225). -/
theorem hostWriteString_wf {s : State} (a : StrAddr) (v : Byte) (hm : Memory.wf s.strmem = true) :
    Memory.wf (s.hostWriteString a v).strmem = true := by
  unfold State.hostWriteString
  split
  · exact hm
  · exact memory_write_wf a.isLt hm

/-- Settles O17: reset has the empty list, the two ways to change the memory keep the form, and `memory_ext` tells memories apart. -/
theorem memoryCanonical : Obligations.MemoryCanonical :=
  ⟨rfl, fun _ _ => step_memory_wf, fun _ => hostWriteString_wf, fun _ _ hm hm' h =>
    memory_ext hm hm' fun a ha => by simpa only [BitVec.toNat_ofNat, Nat.mod_eq_of_lt ha] using h (BitVec.ofNat 16 a)⟩

end Sys2Proof.Machine

namespace Sys2Proof.Machine

/-! ### One character of `LCD.WRS`, and a whole string (R100) -/

/-- `s` after the character `w`, read at `addr` and written, with `rest` of the display's answers left: the bus is at rest, and
the pseudocode of `op` stands after the handshake. -/
def State.wroteChar (s : State) (op : Instr) (addr : StrAddr) (w : LcdWrite) (rest : List Nibble) : State :=
  { s with
    strPtr := addr
    lcdByte := w.byte
    lcdRs := false
    lcdRw := false
    lcdE := false
    lcdDOut := lowNibble w.byte
    lcdDDir := .output
    loc := { s.loc with c := w.byte, bf := false }
    env := { s.env with lcd := rest }
    hist := s.hist ++ .mem addr w.byte :: traceTransfer s.params true w.byte w.reads
    seq := .busy op [] (.lcdDone .string) }

/-- The byte read last is no terminator: it is written (R100). -/
theorem exec_strRead_char {a0 : StrAddr} {s : State} (hs : s.seq = .busy (.lcdWrs a0) [] .strRead) (hc : s.loc.c ≠ 0x00#8) :
    exec (.lcdWrs a0) s = (lcdTransfer true s.loc.c .string s).run (.lcdWrs a0) := by
  rw [exec_place hs, resumeOf, resumeLcdWrs, if_neg hc]

/-- The byte read last is the terminator: the operation returns (R100). -/
theorem exec_strRead_end {a0 : StrAddr} {s : State} (hs : s.seq = .busy (.lcdWrs a0) [] .strRead) (hc : s.loc.c = 0x00#8) :
    exec (.lcdWrs a0) s = .next (s.respond (.lcdWrs a0) .ok .none) :=
  exec_returning hs (if_pos hc)

/-- The byte at `addr` is read and, being no terminator, written with its handshake. -/
theorem runs_char {a0 addr : StrAddr} {w : LcdWrite} {rest : List Nibble} {place : Place} {s : State}
    (hs : s.seq = .busy (.lcdWrs a0) [] place)
    (hr : resumeLcdWrs a0 place s = .go { s with strPtr := addr } .memRead [] .strRead)
    (hb : s.strByte addr = w.byte) (hne : w.byte ≠ 0x00#8) (ha : w.answers s.params) (he : s.env.lcd = w.reads ++ rest) :
    Runs (.lcdWrs a0) (1 + transferSteps s.params (w.busy.length + 1)) s (s.wroteChar (.lcdWrs a0) addr w rest) := by
  obtain ⟨hbusy, hready⟩ := ha
  have hread := runs_memRead hs hr
  rw [hb] at hread
  have hwrite := runs_transfer (busy := w.busy) (ready := w.ready) (rest := rest) (exec_strRead_char (a0 := a0) (s := { s with
      strPtr := addr
      loc := { s.loc with c := w.byte }
      hist := s.hist ++ [.mem addr w.byte]
      seq := .busy (.lcdWrs a0) [] .strRead }) rfl hne) (fun _ => rfl) (by simpa [LcdWrite.reads] using he) hbusy hready
  simpa only [State.wroteChar, LcdWrite.reads, List.append_assoc, List.singleton_append] using runs_trans hread hwrite

/-- Once the display has been written, `lcd_rs` is 0 whatever follows (R97). -/
theorem lastRs_false (ws : List LcdWrite) : lastRs false ws = false := ite_self _

theorem holdsString_congr {s t : State} {addr : StrAddr} {cs : List Byte} (hc : holdsString s addr cs) (h : t.strmem = s.strmem) :
    holdsString t addr cs := by
  induction cs generalizing addr with
  | nil => exact (congrFun (strByte_congr h) addr).trans hc
  | cons c cs ih =>
    obtain ⟨hb, hne, hc⟩ := hc
    exact ⟨(congrFun (strByte_congr h) addr).trans hb, hne, ih hc⟩

/-- The operation has returned in `t`, having read the string of the writes `ws` from `addr` on and written it, from a block `s` whose pins
are at rest: what it leaves, and what it leaves open (R100, R103). -/
def WroteString (s : State) (addr : StrAddr) (ws : List LcdWrite) (rest : List Nibble) (t : State) : Prop :=
  t = { s.openTo t with
    seq := .idle
    rspValid := true
    rspOutcome := .ok
    strPtr := addr + BitVec.ofNat 16 ws.length
    lcdByte := lastByte s.lcdByte ws
    lcdRs := lastRs s.lcdRs ws
    lcdDOut := lastLatch s.lcdDOut ws
    env := { s.env with lcd := rest }
    hist := s.hist ++ (traceString s.params addr ws ++ [.ret 0x13 .ok .none]) }

/-- The empty string: the terminator is read, and nothing is written. -/
theorem wroteString_nil {a0 addr : StrAddr} {s : State} {rest : List Nibble} (he : s.env.lcd = rest) :
    WroteString s addr [] rest (State.respond { s with
      strPtr := addr
      loc := { s.loc with c := 0x00#8 }
      hist := s.hist ++ [.mem addr 0x00#8]
      seq := .busy (.lcdWrs a0) [] .strRead } (.lcdWrs a0) .ok .none) := by
  subst he
  simp only [WroteString, State.openTo, State.respond, State.emit, traceString, List.length_nil, BitVec.ofNat_eq_ofNat, BitVec.add_zero,
    List.append_assoc]
  rfl

/-- A first character, then the string after it. -/
theorem wroteString_cons {op : Instr} {s t : State} {addr : StrAddr} {w : LcdWrite} {ws : List LcdWrite} {rest rest' : List Nibble}
    (hrest : AtRest s) (h : WroteString (s.wroteChar op addr w rest') (addr + 1#16) ws rest t) :
    WroteString s addr (w :: ws) rest t := by
  obtain ⟨hE, hRw, hDir, -⟩ := hrest
  unfold WroteString at h ⊢
  rw [h]
  simp only [State.openTo, State.wroteChar, List.length_cons, addr_succ_add, lastByte_cons, lastLatch_cons, lastRs_false, traceString,
    List.append_assoc, List.cons_append, hE, hRw, hDir]
  rfl

/-- A string of any length, from before the read of its first byte to the `return`: by induction on its characters. -/
theorem runs_string {a0 addr : StrAddr} {ws : List LcdWrite} {rest : List Nibble} {place : Place} {s : State}
    (hs : s.seq = .busy (.lcdWrs a0) [] place)
    (hr : resumeLcdWrs a0 place s = .go { s with strPtr := addr } .memRead [] .strRead) (hrest : AtRest s)
    (hc : holdsString s addr (ws.map LcdWrite.byte)) (ha : ∀ w ∈ ws, w.answers s.params) (he : s.env.lcd = readsOf ws ++ rest) :
    ∃ k t, Runs (.lcdWrs a0) k s t ∧ WroteString s addr ws rest t := by
  induction ws generalizing s addr place with
  | nil =>
    have hterminator : s.strByte addr = 0x00#8 := hc
    have hread := runs_memRead hs hr
    rw [hterminator] at hread
    exact ⟨_, _, runs_trans hread (runs_one (exec_strRead_end rfl rfl)), wroteString_nil he⟩
  | cons w ws ih =>
    obtain ⟨hb, hne, hc⟩ := hc
    obtain ⟨hw, hws⟩ := List.forall_mem_cons.1 ha
    obtain ⟨hE, hRw, hDir, hpins⟩ := hrest
    have hchar := runs_char (rest := readsOf ws ++ rest) hs hr hb hne hw (by rw [he]; simp [readsOf])
    obtain ⟨k, t, hrun, ht⟩ := ih (s := s.wroteChar (.lcdWrs a0) addr w (readsOf ws ++ rest)) (addr := addr + 1#16)
      rfl rfl ⟨rfl, rfl, rfl, hpins⟩ (holdsString_congr hc rfl) hws rfl
    exact ⟨_, t, runs_trans hchar hrun, wroteString_cons ⟨hE, hRw, hDir, hpins⟩ ht⟩

/-- Settles O32: acceptance, then the string from its first byte on; the number of steps is the number of events. -/
theorem lcdWrsRun : Obligations.LcdWrsRun := by
  intro s addr ws rest hs hi hrest hc ha he h
  have haccept := runs_one (exec_idle (i := .lcdWrs addr) hs (admitOf_none ⟨fun _ => hi, nofun⟩))
  obtain ⟨k, t, hrun, ht⟩ := runs_string (s := s.accept (.lcdWrs addr)) (addr := addr) rfl rfl hrest (holdsString_congr hc rfl) ha he
  have hhist : (s.accept (.lcdWrs addr)).hist ++ (traceString s.params addr ws ++ [.ret 0x13 .ok .none]) = s.hist ++ h := by
    rw [accept_hist, encode_lcdWrs, List.append_assoc]
    rfl
  rw [WroteString, accept_params, hhist] at ht
  exact ⟨t, runs_count (.inl hs) (runs_trans haccept hrun) (congrArg State.hist ht), ht⟩

end Sys2Proof.Machine

namespace Sys2Proof.Machine

/-! ### `LCD.WRS` over a memory without a terminator (R100, R204) -/

theorem noRet_cons {p : Prim} {ps : List Prim} : NoRet (p :: ps) ↔ p.isRet = false ∧ NoRet ps := by
  simp only [NoRet, List.all_cons, Bool.and_eq_true, Bool.not_eq_true']

/-- A primitive other than `return` leaves the response as it is. -/
theorem doPrim_rspValid {op : Instr} {p : Prim} (h : p.isRet = false) (s : State) : (doPrim op p s).rspValid = s.rspValid := by
  cases p with
  | pinWrite p v => rw [doPrim, pinWrite_spec]
  | readBusy => obtain ⟨_, _, _, h⟩ := readBusy_spec s; rw [doPrim, h]
  | readReady => obtain ⟨_, _, _, h⟩ := readReady_spec s; rw [doPrim, h]
  | readBit => obtain ⟨_, _, _, h⟩ := readBit_spec s; rw [doPrim, h]
  | twiPoll => obtain ⟨_, _, _, h⟩ := pollTwi_spec s; rw [doPrim, h]
  | ret o v => cases h
  | _ => rfl

/-- With `c` the byte read last, the piece `todo` and what `LCD.WRS` does at `place` after it lead to no `return`: at the test for the
terminator, which follows the read at once, `c` is none. -/
def GoesOnAt (c : Byte) (todo : List Prim) : Place → Prop
  | .start => True
  | .strRead => todo = [] ∧ c ≠ 0x00#8
  | .lcdUntil _ => True
  | .lcdDone _ => True
  | _ => False

/-- `LCD.WRS addr` is running, has not responded, and is not about to return, in a memory without a terminator. -/
structure Endless (addr : StrAddr) (s : State) : Prop where
  memory : ∀ a, s.strByte a ≠ 0x00#8
  silent : s.rspValid = false
  position : ∃ todo place, s.seq = .busy (.lcdWrs addr) todo place ∧ NoRet todo ∧ GoesOnAt s.loc.c todo place

/-- What `LCD.WRS` does next when it does not return: it reads a byte, or it is inside a display transfer. -/
inductive GoesOn (s : State) : Advance → Prop
  | reads (a : StrAddr) : GoesOn s (.go { s with strPtr := a } .memRead [] .strRead)
  | transfers (s' : State) {p : Prim} {rest : List Prim} (u : LcdUse) :
      Silent s s' → NoRet (p :: rest) → GoesOn s (.go s' p rest (.lcdUntil u))
  | restores (u : LcdUse) : GoesOn s (.go s (.pinWrite .lcdRw false) [.pinDir .output] (.lcdDone u))

theorem resumeLcdWrs_goesOn {place : Place} {s : State} (addr : StrAddr) (h : GoesOnAt s.loc.c [] place) :
    GoesOn s (resumeLcdWrs addr place s) := by
  cases place with
  | start => exact .reads addr
  | strRead =>
    obtain ⟨-, hc⟩ := h
    rw [resumeLcdWrs, if_neg hc]
    exact .transfers _ .string rfl (noRet_transfer true s.loc.c s.params)
  | lcdUntil u =>
    simp only [resumeLcdWrs, lcdUntil]
    split
    · exact .transfers s u rfl (noRet_cons.2 ⟨rfl, noRet_lcdPollRest s.params⟩)
    · exact .restores u
  | lcdDone u => exact .reads (nextStringAddr s.strPtr)
  | _ => exact h.elim

/-- After a primitive that is no `return`, if it has led to a position from which the operation goes on. -/
theorem endless_doPrim {addr : StrAddr} {p : Prim} {rest : List Prim} {place : Place} {s : State}
    (hm : ∀ a, s.strByte a ≠ 0x00#8) (hv : s.rspValid = false) (h : NoRet (p :: rest))
    (hg : GoesOnAt (doPrim (.lcdWrs addr) p { s with seq := .busy (.lcdWrs addr) rest place }).loc.c rest place) :
    Endless addr (doPrim (.lcdWrs addr) p { s with seq := .busy (.lcdWrs addr) rest place }) := by
  obtain ⟨hp, hrest⟩ := noRet_cons.1 h
  refine ⟨fun a => ?_, (doPrim_rspValid hp _).trans hv, rest, place, doPrim_seq hp _, hrest, hg⟩
  rw [strByte_congr (doPrim_sameStore ..).strmem]
  exact hm a

/-- Every step goes on: in a piece with its next primitive, at a place with what `GoesOn` says. -/
theorem endless_exec {addr : StrAddr} {s : State} (h : Endless addr s) : ∃ t, exec (.lcdWrs addr) s = .next t ∧ Endless addr t := by
  obtain ⟨hm, hv, todo, place, hs, hn, hg⟩ := h
  cases todo with
  | cons p rest =>
    refine ⟨_, exec_todo hs, endless_doPrim hm hv hn ?_⟩
    cases place with
    | strRead => cases hg.1
    | start | lcdUntil | lcdDone => trivial
    | _ => exact hg
  | nil =>
    have hx := exec_place hs
    have hgo : GoesOn s (resumeOf (.lcdWrs addr) place s) := resumeLcdWrs_goesOn addr hg
    generalize resumeOf (.lcdWrs addr) place s = adv at hx hgo
    cases hgo with
    | reads a => exact ⟨_, hx, endless_doPrim (s := { s with strPtr := a }) hm hv rfl ⟨rfl, hm a⟩⟩
    | transfers s' u hsilent hn =>
      have hm' (a : StrAddr) : s'.strByte a ≠ 0x00#8 := by rw [strByte_congr (silent_strmem hsilent)]; exact hm a
      have hv' : s'.rspValid = false := by rw [hsilent]; exact hv
      exact ⟨_, hx, endless_doPrim hm' hv' hn trivial⟩
    | restores u => exact ⟨_, hx, endless_doPrim hm hv rfl trivial⟩

theorem endless_runs {addr : StrAddr} (k : Nat) {s : State} (h : Endless addr s) : ∃ t, Runs (.lcdWrs addr) k s t ∧ Endless addr t := by
  induction k generalizing s with
  | zero => exact ⟨s, runs_zero _ s, h⟩
  | succ k ih =>
    obtain ⟨u, hx, hu⟩ := endless_exec h
    obtain ⟨t, hr, ht⟩ := ih hu
    exact ⟨t, runs_succ hx hr, ht⟩

/-- Where no byte is a terminator, the bytes from `addr` on are characters, any number of them, past 0xFFFF too (R51). -/
theorem holdsChars_range {s : State} (h : ∀ a, s.strByte a ≠ 0x00#8) (addr : StrAddr) (n : Nat) :
    holdsChars s addr ((List.range n).map fun k => s.strByte (addr + BitVec.ofNat 16 k)) := by
  induction n with
  | zero => trivial
  | succ n ih =>
    rw [List.range_succ, List.map_append, List.map_singleton, holdsChars_append, List.length_map, List.length_range]
    exact ⟨ih, rfl, h _⟩

/-- Settles O59: acceptance leads to a state of `Endless`, which every step keeps; the bytes written are a run of characters. -/
theorem lcdWrsNeverEnds : Obligations.LcdWrsNeverEnds := by
  intro s addr hs hi hm
  have haccept := exec_idle (i := .lcdWrs addr) hs (admitOf_none ⟨fun _ => hi, nofun⟩)
  refine ⟨fun k => ?_, fun ws rest hbytes ha he => ?_⟩
  · obtain ⟨t, hrun, -, hsilent, todo, place, hseq, -, -⟩ :=
      endless_runs k (s := s.accept (.lcdWrs addr)) ⟨hm, rfl, [], .start, rfl, rfl, trivial⟩
    exact ⟨t, runs_succ haccept hrun, running_busy hseq, hsilent⟩
  · have hc : holdsChars (s.accept (.lcdWrs addr)) addr (ws.map LcdWrite.byte) := by
      rw [hbytes]
      exact holdsChars_congr (holdsChars_range hm addr ws.length) rfl
    obtain ⟨k, t, place, hrun, hseq, -, ht⟩ := runs_chars (s := s.accept (.lcdWrs addr)) rfl rfl hc ha he
    refine ⟨t, runsOn_of_runs hs (runs_succ haccept hrun) ?_ (running_busy hseq) ?_ ?_ ?_ ?_⟩
    · rw [ht, accept_hist, encode_lcdWrs, List.append_assoc]
      rfl
    all_goals rw [ht]; rfl

end Sys2Proof.Machine

namespace Sys2Proof.Machine

/-! ### The opcode map (R74) -/

/-- The op codes of a format (R74). -/
def opsOf : Format → List Byte
  | .N => [0x10, 0x20, 0x21, 0x23, 0x24, 0x30]
  | .B => [0x11, 0x12, 0x22]
  | .C => [0x31, 0x40, 0x41]
  | .A => [0x13]
  | .F => [0x42, 0x50]

theorem formatOf_of_mem_opsOf {f : Format} : ∀ op ∈ opsOf f, formatOf op = some f := by
  cases f <;> decide

theorem mem_opsOf_of_formatOf {op : Byte} {f : Format} (h : formatOf op = some f) : op ∈ opsOf f := by
  unfold formatOf at h
  split at h <;> cases h
  all_goals simp [opsOf, ← BitVec.toNat_inj, *]

/-- The opcode map has a format for the fifteen codes and for no other (R74). -/
theorem formatOf_eq_none_iff {op : Byte} : formatOf op = none ↔ op ∉ definedOps := by
  have hdefined : ∀ op ∈ definedOps, formatOf op ≠ none := by decide
  have hsubset (f : Format) : opsOf f ⊆ definedOps := by cases f <;> decide
  refine ⟨fun h hop => hdefined op hop h, fun h => ?_⟩
  cases hf : formatOf op with
  | none => rfl
  | some f => exact absurd (hsubset f (mem_opsOf_of_formatOf hf)) h

/-- A code with a format has an operation, whatever its operand field. -/
theorem operationOf_isSome (op : Byte) (imm : Imm) : (operationOf op imm).isSome = (formatOf op).isSome := by
  unfold operationOf formatOf
  split <;> rfl

theorem filter_mem_definedOps_perm :
    ((List.range 256).filter fun k => decide (BitVec.ofNat 8 k ∈ definedOps)).Perm (definedOps.map BitVec.toNat) := by
  refine (List.perm_ext_iff_of_nodup (List.nodup_range.filter _) (by decide)).2 fun k => ?_
  rw [List.mem_filter, List.mem_range, decide_eq_true_iff, List.mem_map]
  constructor
  · rintro ⟨hk, hmem⟩
    exact ⟨_, hmem, Nat.mod_eq_of_lt hk⟩
  · rintro ⟨op, hmem, rfl⟩
    exact ⟨op.isLt, by rwa [BitVec.ofNat_toNat, BitVec.setWidth_eq]⟩

/-- Fifteen of the 256 codes are in the map, so 241 are not (R75). -/
theorem length_filter_not_mem_definedOps :
    ((List.range 256).filter fun k => decide (BitVec.ofNat 8 k ∉ definedOps)).length = 241 := by
  have hdefined := filter_mem_definedOps_perm.length_eq
  have hall := List.length_eq_length_filter_add (l := List.range 256) fun k => decide (BitVec.ofNat 8 k ∈ definedOps)
  simp only [List.length_range, hdefined, ← decide_not] at hall
  rw [show (definedOps.map BitVec.toNat).length = 15 from rfl] at hall
  omega

/-! ### Operands in their fields (R72, R73) -/

theorem byteOperand_setWidth (b : Byte) : byteOperand (b.setWidth 32) = b := by
  rw [← zeros_append_byte]
  exact BitVec.extractLsb'_append_eq_right

theorem addrOperand_setWidth (a : StrAddr) : addrOperand (a.setWidth 32) = a := by
  rw [← zeros_append_addr]
  exact BitVec.extractLsb'_append_eq_right

theorem countOperand_setWidth {n : Nat} (hn : countFits n = true) : countOperand ((BitVec.ofNat 8 n).setWidth 32) = n :=
  calc
    countOperand ((BitVec.ofNat 8 n).setWidth 32) = (BitVec.ofNat 8 n).toNat := congrArg BitVec.toNat (byteOperand_setWidth _)
    _ = n := Nat.mod_eq_of_lt (of_decide_eq_true hn)

theorem countFits_countOperand (imm : Imm) : countFits (countOperand imm) = true :=
  decide_eq_true (imm.extractLsb' 0 8).isLt

/-- An operation that a code selects is well formed: its operand was read from a field that holds it. -/
theorem wf_of_operationOf {op : Byte} {imm : Imm} {i : Instr} (h : operationOf op imm = some i) : i.wf = true := by
  obtain rfl := opcode_of_operationOf h
  cases i with
  | adcAvg | wghMass | wghTare =>
    cases h
    exact countFits_countOperand imm
  | _ => rfl

theorem operationOf_opcode {i : Instr} (hi : i.wf = true) : operationOf (opcode i) (immOf i) = some i := by
  cases i with
  | lcdWri b => exact congrArg (some <| Instr.lcdWri ·) (byteOperand_setWidth b)
  | lcdWrc b => exact congrArg (some <| Instr.lcdWrc ·) (byteOperand_setWidth b)
  | twiWrb b => exact congrArg (some <| Instr.twiWrb ·) (byteOperand_setWidth b)
  | lcdWrs a => exact congrArg (some <| Instr.lcdWrs ·) (addrOperand_setWidth a)
  | adcAvg n => exact congrArg (some <| Instr.adcAvg ·) (countOperand_setWidth hi)
  | wghMass n => exact congrArg (some <| Instr.wghMass ·) (countOperand_setWidth hi)
  | wghTare n => exact congrArg (some <| Instr.wghTare ·) (countOperand_setWidth hi)
  | _ => rfl

/-- An operation's operand field respects the format of its code. -/
theorem formatOf_opcode (i : Instr) : ∃ f, formatOf (opcode i) = some f ∧ immOf i &&& f.mustBeZero = 0#32 := by
  cases i with
  | lcdWri | lcdWrc | twiWrb => exact ⟨.B, rfl, Laws.TableRow.byte_masked _⟩
  | adcAvg | wghMass | wghTare => exact ⟨.C, rfl, Laws.TableRow.byte_masked _⟩
  | lcdWrs => exact ⟨.A, rfl, Laws.TableRow.addr_masked _⟩
  | wghCal | dspRun => exact ⟨.F, rfl, BitVec.and_zero⟩
  | _ => exact ⟨.N, rfl, BitVec.zero_and⟩

/-! ### The must-be-zero bits of a word (R72) -/

theorem immField_getLsbD (w : CmdWord) {k : Nat} (hk : k < 32) : (immField w).getLsbD k = w.getLsbD k := by
  rw [immField, BitVec.getLsbD_extractLsb', decide_eq_true hk, Bool.true_and, Nat.zero_add]

/-- A mask of the bits from `n` on clears the operand field exactly where those bits of the word are 0. -/
theorem immField_and_eq_zero_iff {w : CmdWord} {m : Imm} {n : Nat} (hm : ∀ k < 32, m.getLsbD k = decide (n ≤ k)) :
    immField w &&& m = 0#32 ↔ w.extractLsb' n (32 - n) = 0#(32 - n) := by
  have hbit {k : Nat} (hk : k < 32) : (immField w &&& m).getLsbD k = (w.getLsbD k && decide (n ≤ k)) := by
    rw [BitVec.getLsbD_and, immField_getLsbD w hk, hm k hk]
  constructor
  · intro h
    apply BitVec.eq_of_getLsbD_eq
    intro k hk
    have hz := hbit (k := n + k) (by omega)
    rw [h, BitVec.getLsbD_zero, decide_eq_true (Nat.le_add_right n k), Bool.and_true] at hz
    rw [BitVec.getLsbD_extractLsb', ← hz, Bool.and_false, BitVec.getLsbD_zero]
  · intro h
    apply BitVec.eq_of_getLsbD_eq
    intro k hk
    rw [hbit hk, BitVec.getLsbD_zero]
    by_cases hn : n ≤ k
    · have hz : (w.extractLsb' n (32 - n)).getLsbD (k - n) = false := by rw [h, BitVec.getLsbD_zero]
      rw [BitVec.getLsbD_extractLsb', decide_eq_true (by omega : k - n < 32 - n), Bool.true_and, Nat.add_sub_cancel' hn] at hz
      rw [hz, Bool.false_and]
    · rw [decide_eq_false hn, Bool.and_false]

theorem mustBeZero_N_iff {w : CmdWord} : immField w &&& Format.N.mustBeZero = 0#32 ↔ w.extractLsb' 0 32 = 0#32 :=
  immField_and_eq_zero_iff (by decide)

theorem mustBeZero_B_iff {w : CmdWord} : immField w &&& Format.B.mustBeZero = 0#32 ↔ w.extractLsb' 8 24 = 0#24 :=
  immField_and_eq_zero_iff (by decide)

theorem mustBeZero_A_iff {w : CmdWord} : immField w &&& Format.A.mustBeZero = 0#32 ↔ w.extractLsb' 16 16 = 0#16 :=
  immField_and_eq_zero_iff (by decide)

/-! ### What the decoder answers (R75, R76) -/

theorem decode_of_formatOf_none {w : CmdWord} (h : formatOf (opField w) = none) : decode w = .error .reservedOp := by
  rw [decode, h]

theorem decode_eq_ite {w : CmdWord} {f : Format} {i : Instr} (hf : formatOf (opField w) = some f)
    (hi : operationOf (opField w) (immField w) = some i) :
    decode w = if immField w &&& f.mustBeZero = 0#32 then .ok i else .error .reservedBits := by
  rw [decode, hf, hi]

theorem decode_of_formatOf_some {w : CmdWord} {f : Format} (hf : formatOf (opField w) = some f) :
    ∃ i, operationOf (opField w) (immField w) = some i ∧
      decode w = if immField w &&& f.mustBeZero = 0#32 then .ok i else .error .reservedBits := by
  have hsome : (operationOf (opField w) (immField w)).isSome = true := by rw [operationOf_isSome, hf]; rfl
  obtain ⟨i, hi⟩ := Option.isSome_iff_exists.1 hsome
  exact ⟨i, hi, decode_eq_ite hf hi⟩

theorem operationOf_of_decode {w : CmdWord} {i : Instr} (h : decode w = .ok i) :
    operationOf (opField w) (immField w) = some i := by
  cases hf : formatOf (opField w) with
  | none =>
    rw [decode_of_formatOf_none hf] at h
    cases h
  | some f =>
    obtain ⟨j, hj, hd⟩ := decode_of_formatOf_some hf
    rw [hd] at h
    split at h <;> cases h
    exact hj

theorem decode_eq_reservedOp_iff {w : CmdWord} : decode w = .error .reservedOp ↔ formatOf (opField w) = none := by
  refine ⟨fun h => ?_, decode_of_formatOf_none⟩
  cases hf : formatOf (opField w) with
  | none => rfl
  | some f =>
    obtain ⟨i, -, hd⟩ := decode_of_formatOf_some hf
    rw [hd] at h
    split at h <;> cases h

theorem decode_eq_reservedBits_iff {w : CmdWord} :
    decode w = .error .reservedBits ↔ ∃ f, formatOf (opField w) = some f ∧ immField w &&& f.mustBeZero ≠ 0#32 := by
  cases hf : formatOf (opField w) with
  | none => simp [decode_of_formatOf_none hf]
  | some f =>
    obtain ⟨i, -, hd⟩ := decode_of_formatOf_some hf
    simp [hd]

theorem step_refused_of_presented {s : State} {r : Refusal} (hp : s.powerCycle = false) (hs : s.seq = .idle)
    (hv : s.cmdValid = true) (hr : s.presented = .error r) : step s = .refused r := by
  simp [step, hp, hs, hv, hr]

/-! ### The obligations of the encoding -/

/-- Settles O1: the word's two fields are the operation's code and operand field, and each operand is read back from its place. -/
theorem decodeAfterEncode : Obligations.DecodeAfterEncode := by
  intro i hi
  have hop : opField (encode i) = opcode i := opField_append ..
  have himm : immField (encode i) = immOf i := immField_append ..
  obtain ⟨f, hf, hz⟩ := formatOf_opcode i
  have hdecode : decode (encode i) = if immField (encode i) &&& f.mustBeZero = 0#32 then .ok i else .error .reservedBits :=
    decode_eq_ite (by rw [hop, hf]) (by rw [hop, himm, operationOf_opcode hi])
  rw [hdecode, himm, if_pos hz]

/-- Settles O2: operands read from the word fit their fields, and `encode_of_decode` gives the word back. -/
theorem encodeAfterDecode : Obligations.EncodeAfterDecode :=
  fun _ _ h => ⟨wf_of_operationOf (operationOf_of_decode h), encode_of_decode h⟩

/-- Settles O4: the decoder answers `ReservedOp` where the opcode map has no format, and the step passes the answer on. -/
theorem reservedOpRefused : Obligations.ReservedOpRefused := by
  have hdecode (w : CmdWord) : decode w = .error .reservedOp ↔ opField w ∉ definedOps :=
    decode_eq_reservedOp_iff.trans formatOf_eq_none_iff
  refine ⟨length_filter_not_mem_definedOps, fun w => ⟨hdecode w, ?_⟩⟩
  rintro s hp hs hv rfl hop
  exact step_refused_of_presented hp hs hv (by rw [State.presented, (hdecode _).2 hop])

/-- Settles O5: format by format, the mask of the must-be-zero bits is the range of the word that the statement names. -/
theorem reservedBitsRefused : Obligations.ReservedBitsRefused := by
  intro w op reserved
  have hreserved : decode w = .error .reservedBits ↔ reserved := by
    rw [decode_eq_reservedBits_iff]
    constructor
    · rintro ⟨f, hf, hz⟩
      have hop := mem_opsOf_of_formatOf hf
      cases f with
      | N => exact .inl ⟨hop, mt mustBeZero_N_iff.2 hz⟩
      | B => exact .inr (.inl ⟨List.mem_append_left (opsOf .C) hop, mt mustBeZero_B_iff.2 hz⟩)
      | C => exact .inr (.inl ⟨List.mem_append_right (opsOf .B) hop, mt mustBeZero_B_iff.2 hz⟩)
      | A => exact .inr (.inr ⟨List.mem_singleton.1 hop, mt mustBeZero_A_iff.2 hz⟩)
      | F => exact absurd BitVec.and_zero hz
    · rintro (⟨hop, hz⟩ | ⟨hop, hz⟩ | ⟨hop, hz⟩)
      · exact ⟨.N, formatOf_of_mem_opsOf _ hop, mt mustBeZero_N_iff.1 hz⟩
      · obtain hB | hC : op ∈ opsOf .B ∨ op ∈ opsOf .C := List.mem_append.1 hop
        · exact ⟨.B, formatOf_of_mem_opsOf _ hB, mt mustBeZero_B_iff.1 hz⟩
        · exact ⟨.C, formatOf_of_mem_opsOf _ hC, mt mustBeZero_B_iff.1 hz⟩
      · exact ⟨.A, formatOf_of_mem_opsOf _ (List.mem_singleton.2 hop), mt mustBeZero_A_iff.1 hz⟩
  refine ⟨hreserved, ?_⟩
  rintro s hp hs hv rfl hr
  exact step_refused_of_presented hp hs hv (by rw [State.presented, hreserved.2 hr])

/-- A word that is an operation's encoding decodes to it. -/
theorem decode_of_encode {w : CmdWord} {i : Instr} (hi : i.wf = true) (h : encode i = w) : decode w = .ok i :=
  h ▸ decodeAfterEncode i hi

/-- Settles O3: each of the fifteen words is the encoding of its operation. -/
theorem specWordsDecode : Obligations.SpecWordsDecode := by
  unfold Obligations.SpecWordsDecode
  and_intros <;> exact decode_of_encode rfl rfl

end Sys2Proof.Machine

namespace Sys2Proof.Machine

/-! ### Every reachable state is sound (R236) -/

/-- An act of the host is no step of the block: it moves neither the sequencer nor the lines nor the two-wire engine (R225). -/
theorem sound_hostPresent {s : State} (w : CmdWord) (h : Sound s) : Sound (s.hostPresent w) := by
  unfold State.hostPresent
  split
  · exact h
  · exact h

theorem sound_hostWriteString {s : State} (a : StrAddr) (v : Byte) (h : Sound s) : Sound (s.hostWriteString a v) := by
  unfold State.hostWriteString
  split
  · exact h
  · exact h

theorem sound_of_reachable {s : State} (h : Reachable s) : Sound s := by
  induction h with
  | reset p => exact sound_resetWith p
  | step _ hstep ih => exact soundKept _ _ ih hstep
  | present w _ ih => exact sound_hostPresent w ih
  | writeString a v _ ih => exact sound_hostWriteString a v ih
  | powerCycle _ ih => exact ih
  | answers env _ ih => exact ih

theorem atRest_of_sound {s : State} (h : Sound s) (hs : s.seq = .idle) : AtRest s := by
  simpa only [Sound, hs] using h

/-- Settles O24: reset is sound, and steps, acts of the host and answers of the environment keep a state sound. -/
theorem reachableSound : Obligations.ReachableSound :=
  fun _ h => ⟨sound_of_reachable h, atRest_of_sound (sound_of_reachable h)⟩

/-! ### One driver on the bus (R241) -/

/-- A piece is free of contention already where it begins. -/
theorem dir_of_contentionFree {l : Lines} {todo : List Prim} (h : contentionFree l todo = true) (hrw : l.rw = true) :
    l.dir = .input := by
  have hnow : (!l.rw || l.dir == .input) = true := by
    cases todo with
    | nil => exact h
    | cons p rest => exact (Bool.and_eq_true_iff.1 h).1
  rw [hrw] at hnow
  exact eq_of_beq hnow

/-- Settles O25: an idle block has `lcd_rw` 0, and the piece of a busy one is free of contention. -/
theorem noBusContention : Obligations.NoBusContention := by
  intro s h hrw
  cases hs : s.seq with
  | idle =>
    obtain ⟨-, hrest, -⟩ := atRest_of_sound h hs
    rw [hrest] at hrw
    cases hrw
  | busy i todo place =>
    obtain ⟨-, -, -, hfree, -⟩ := (sound_busy hs).1 h
    exact dir_of_contentionFree hfree hrw

/-! ### Refusals at acceptance (R104, R131, R238) -/

theorem exec_refused {i : Instr} {s : State} {r : Refusal} (hs : s.seq = .idle) (ha : admitOf i s = some r) :
    exec i s = .refused r := by
  rw [exec_eq, runOperation, hs]
  simp only [ha]

theorem admitOf_notInitialised {i : Instr} {s : State} (hi : needsDisplay i = true) (hs : s.lcdInited = false) :
    admitOf i s = some .lcdNotInitialised := by
  have hgate : admitDisplay s = some .lcdNotInitialised := by rw [admitDisplay, hs]; rfl
  cases i with
  | lcdWri | lcdWrc | lcdWrs | dspRun => exact hgate
  | _ => cases hi

theorem admitOf_notStarted {i : Instr} {s : State} (hi : needsBus i = true) (hs : s.twiOwned = false) :
    admitOf i s = some .twiNotStarted := by
  have hgate : admitOwned s = some .twiNotStarted := by rw [admitOwned, hs]; rfl
  cases i with
  | twiStop | twiWrb | twiRda | twiRdn => exact hgate
  | _ => cases hi

/-- Settles O11: an idle block's step tries the presented operation, whose own admission test refuses it. -/
theorem stateRefusals : Obligations.StateRefusals := by
  intro i s hp hs hv hd
  have hstep := step_decoded hp hs hv hd
  exact ⟨fun hi hl => hstep.trans (exec_refused hs (admitOf_notInitialised hi hl)),
    fun hi ho => hstep.trans (exec_refused hs (admitOf_notStarted hi ho))⟩

end Sys2Proof.Machine

namespace Sys2Proof.Machine

/-! ### From acceptance to the first transfer -/

/-- An accepted operation runs on, with the event of its acceptance (R23, R24). -/
theorem runsOn_accept {i : Instr} {s : State} (hs : s.seq = .idle) (h : Admitted i s) :
    RunsOn i s [.cmd (encode i)] s.motorLevel (s.accept i) :=
  runsOn_of_runs hs (runs_one (exec_idle hs (admitOf_none h))) rfl rfl rfl rfl rfl rfl

/-- An operation that runs on and begins a display transfer polls for as long as the display stays busy, in that transfer (R97, R105). -/
theorem pollsOn_of_transfer {i : Instr} {u : LcdUse} {rs : Bool} {v : Byte} {nibs rest : List Nibble} {s e : State} {h : List Event}
    {level : MotorLevel} (hs : s.seq = .idle) (he : RunsOn i s h level e) (hx : exec i e = (lcdTransfer rs v u e).run i)
    (hu : ∀ s, resumeOf i (.lcdUntil u) s = lcdUntil u s) (hp : e.params = s.params) (hq : e.env.lcd = nibs ++ rest)
    (hb : StaysBusy s.params nibs) : PollsOn i s (h ++ traceBusy s.params rs v nibs) level := by
  obtain ⟨hne, hbusy⟩ := hb
  rw [← hp] at hbusy
  obtain ⟨k, hrun⟩ := runs_transferBusy hx hu hne hq hbusy
  refine ⟨_, runsOn_of_runs hs (runs_trans he.run hrun) ?_ rfl he.silent he.motor he.offset he.scale, rfl, rfl⟩
  simp only [he.hist, hp, traceBusy, List.append_assoc]

/-! ### `LCD.WRI` and `LCD.WRC` (R98, R99) -/

/-- The operation writes the one byte `v` to the register `rs` selects, and returns: what `LCD.WRI` and `LCD.WRC` have in common (R98, R99). -/
structure WritesByte (i : Instr) (rs : Bool) (v : Byte) : Prop where
  bus : needsBus i = false
  start : ∀ s, resumeOf i .start s = lcdTransfer rs v .single s
  poll : ∀ s, resumeOf i (.lcdUntil .single) s = lcdUntil .single s
  done : ∀ s, resumeOf i (.lcdDone .single) s = returning s .ok .none

theorem writesByte_lcdWri (code : Byte) : WritesByte (.lcdWri code) false code := ⟨rfl, fun _ => rfl, fun _ => rfl, fun _ => rfl⟩
theorem writesByte_lcdWrc (byte : Byte) : WritesByte (.lcdWrc byte) true byte := ⟨rfl, fun _ => rfl, fun _ => rfl, fun _ => rfl⟩

section WritesByte
variable {i : Instr} {rs : Bool} {v : Byte} {s : State}

theorem WritesByte.admitted (h : WritesByte i rs v) (hi : s.lcdInited = true) : Admitted i s :=
  ⟨fun _ => hi, fun hbus => by rw [h.bus] at hbus; cases hbus⟩

theorem WritesByte.exec_start (h : WritesByte i rs v) : exec i (s.accept i) = (lcdTransfer rs v .single (s.accept i)).run i := by
  rw [exec_place (accept_seq s i), h.start]

/-- What the operation leaves in `t`, and what it leaves open, having appended the events `h` (R98, R99). -/
def WroteByte (s : State) (v : Byte) (rest : List Nibble) (h : List Event) (t : State) : Prop :=
  t = { s.openTo t with
    cmdValid := false
    seq := .idle
    rspValid := true
    rspOutcome := .ok
    lcdByte := v
    lcdRs := false
    lcdRw := false
    lcdE := false
    lcdDOut := v.extractLsb' 0 4
    lcdDDir := .output
    env := { s.env with lcd := rest }
    hist := s.hist ++ h }

/-- The events of the whole operation: acceptance, the transfer with its handshake, and the return (R98, R99). -/
def traceWrite (p : Params) (i : Instr) (rs : Bool) (v : Byte) (nibs : List Nibble) : List Event :=
  .cmd (encode i) :: (traceTransfer p rs v nibs ++ [.ret (opcode i) .ok .none])

theorem traceWrite_lcdWri (p : Params) (code : Byte) (nibs : List Nibble) : traceWrite p (.lcdWri code) false code nibs =
    .cmd (wordB 0x11 code) :: (traceTransfer p false code nibs ++ [.ret 0x11 .ok .none]) := by
  rw [traceWrite, encode_lcdWri]
  rfl

theorem traceWrite_lcdWrc (p : Params) (byte : Byte) (nibs : List Nibble) : traceWrite p (.lcdWrc byte) true byte nibs =
    .cmd (wordB 0x12 byte) :: (traceTransfer p true byte nibs ++ [.ret 0x12 .ok .none]) := by
  rw [traceWrite, encode_lcdWrc]
  rfl

/-- The operation run whole, for every answer of the busy flag that ends. -/
theorem WritesByte.runs_whole (h : WritesByte i rs v) {w : LcdWrite} {rest : List Nibble} (hs : s.seq = .idle)
    (hi : s.lcdInited = true) (ha : w.answers s.params) (he : s.env.lcd = w.reads ++ rest) :
    ∃ t, Runs i (traceWrite s.params i rs v w.reads).length s t ∧ WroteByte s v rest (traceWrite s.params i rs v w.reads) t := by
  obtain ⟨hbusy, hready⟩ := ha
  have haccept := (runsOn_accept hs (h.admitted hi)).run
  have htransfer := runs_transfer (rest := rest) (h.exec_start (s := s)) h.poll
    (by simpa [LcdWrite.reads] using he) hbusy hready
  have hrun := runs_trans haccept (runs_trans htransfer (runs_one (exec_returning (place := .lcdDone .single) rfl (h.done _))))
  refine ⟨_, runs_count (.inl hs) hrun ?_, ?_⟩
  · simp only [respond_hist, accept_hist, accept_params, List.append_assoc]
    rfl
  · simp only [WroteByte, State.openTo, State.respond, State.emit, accept_hist, accept_params, List.append_assoc]
    rfl

/-- A display that stays busy keeps the operation polling (R105). -/
theorem WritesByte.pollsOn (h : WritesByte i rs v) {nibs rest : List Nibble} (hs : s.seq = .idle) (hi : s.lcdInited = true)
    (he : s.env.lcd = nibs ++ rest) (hb : StaysBusy s.params nibs) :
    PollsOn i s (.cmd (encode i) :: traceBusy s.params rs v nibs) s.motorLevel :=
  pollsOn_of_transfer hs (runsOn_accept hs (h.admitted hi)) h.exec_start h.poll rfl he hb

end WritesByte

/-- Settles O30: `LCD.WRI` writes its code to the instruction register. -/
theorem lcdWriRun : Obligations.LcdWriRun := by
  intro s code w rest hs hi _ ha he h
  have hrun := (writesByte_lcdWri code).runs_whole hs hi ha he
  rw [traceWrite_lcdWri] at hrun
  exact hrun

/-- Settles O31: `LCD.WRC` writes its byte to the data register. -/
theorem lcdWrcRun : Obligations.LcdWrcRun := by
  intro s byte w rest hs hi _ ha he h
  have hrun := (writesByte_lcdWrc byte).runs_whole hs hi ha he
  rw [traceWrite_lcdWrc] at hrun
  exact hrun

end Sys2Proof.Machine

namespace Sys2Proof.Machine

/-! ### `LCD.INIT` (R101) -/

/-- `s` after the acceptance of `LCD.INIT` and its four bring-up writes: the list is still to be run (R101). -/
def State.broughtUp (s : State) : State :=
  { s.accept .lcdInit with
    lcdDDir := .output
    lcdRs := false
    lcdRw := false
    lcdE := false
    hist := s.hist ++
      .cmd (wordN 0x10) :: [.dir .lcdD .output, .write .lcdRs false, .write .lcdRw false, .write .lcdE false]
    seq := .busy .lcdInit [] (.lcdDone (.init s.params.lcdInitSeq)) }

theorem runs_broughtUp {s : State} (hs : s.seq = .idle) : Runs .lcdInit 5 s s.broughtUp := by
  have haccept := (runsOn_accept (i := .lcdInit) hs ⟨nofun, nofun⟩).run
  have hwrites := runs_place (i := .lcdInit) (ps := [.pinWrite .lcdRs false, .pinWrite .lcdRw false, .pinWrite .lcdE false])
    (accept_seq s .lcdInit) rfl rfl
  refine (runs_trans haccept hwrites).trans (congrArg _ ?_)
  simp [doPrims, doPrim, State.pinWrite, State.emit, State.broughtUp, encode_lcdInit]

/-- `LCD.INIT` stands before the steps `steps` of its list, with `lcd_rs` 0 and the lines at rest. -/
structure BeforeSteps (steps : List InitStep) (s : State) : Prop where
  seq : s.seq = .busy .lcdInit [] (.lcdDone (.init steps))
  rs : s.lcdRs = false
  rw : s.lcdRw = false
  e : s.lcdE = false
  dir : s.lcdDDir = .output

/-- What the steps of a list and the return after them leave in `t`, and what they leave open; `ws` are the writes of the `Instr` steps. -/
def RanSteps (s : State) (steps : List InitStep) (ws : List LcdWrite) (rest : List Nibble) (t : State) : Prop :=
  t = { s.openTo t with
    seq := .idle
    rspValid := true
    rspOutcome := .ok
    lcdInited := true
    lcdByte := lastByte s.lcdByte ws
    lcdDOut := latchAfterInit s.lcdDOut steps
    env := { s.env with lcd := rest }
    hist := s.hist ++ (traceInit s.params steps ws ++ [.ret 0x10 .ok .none]) }

/-- `s` after a `Wait` step. -/
def State.waited (s : State) (T : Duration) (steps : List InitStep) : State :=
  { s with hist := s.hist ++ [.delay T], seq := .busy .lcdInit [] (.lcdDone (.init steps)) }

/-- `s` after a `Nibble` step: one pulse of the enable line, and no poll. -/
def State.sentNibble (s : State) (x : Nibble) (steps : List InitStep) : State :=
  { s with
    lcdDOut := x
    lcdE := false
    hist := s.hist ++ traceNibble x
    seq := .busy .lcdInit [] (.lcdDone (.init steps)) }

/-- `s` after an `Instr` step, its byte written and the display ready, with `rest` of the display's answers left. -/
def State.sentInstr (s : State) (w : LcdWrite) (rest : List Nibble) (steps : List InitStep) : State :=
  { s with
    lcdByte := w.byte
    lcdRs := false
    lcdRw := false
    lcdE := false
    lcdDOut := lowNibble w.byte
    lcdDDir := .output
    loc := { s.loc with bf := false }
    env := { s.env with lcd := rest }
    hist := s.hist ++ traceTransfer s.params false w.byte w.reads
    seq := .busy .lcdInit [] (.lcdDone (.init steps)) }

section Steps
variable {steps : List InitStep} {s : State}

theorem runs_wait {T : Duration} (h : BeforeSteps (.wait T :: steps) s) :
    Runs .lcdInit 1 s (s.waited T steps) ∧ BeforeSteps steps (s.waited T steps) :=
  ⟨runs_place (i := .lcdInit) h.seq rfl rfl, rfl, h.rs, h.rw, h.e, h.dir⟩

theorem runs_nibble {x : Nibble} (h : BeforeSteps (.nibble x :: steps) s) :
    Runs .lcdInit 6 s (s.sentNibble x steps) ∧ BeforeSteps steps (s.sentNibble x steps) := by
  refine ⟨?_, rfl, h.rs, h.rw, rfl, h.dir⟩
  refine (runs_place (i := .lcdInit) (ps := lcdPulseE) h.seq rfl rfl).trans (congrArg _ ?_)
  simp [doPrims, lcdPulseE, doPrim, State.pinWrite, State.emit, State.sentNibble, traceNibble, tracePulseE]

theorem runs_instr {w : LcdWrite} {rest : List Nibble} (h : BeforeSteps (.instr w.byte :: steps) s) (ha : w.answers s.params)
    (he : s.env.lcd = w.reads ++ rest) :
    Runs .lcdInit (transferSteps s.params (w.busy.length + 1)) s (s.sentInstr w rest steps) ∧
      BeforeSteps steps (s.sentInstr w rest steps) := by
  obtain ⟨hbusy, hready⟩ := ha
  have hx : exec .lcdInit s = (lcdTransfer false w.byte (.init steps) s).run .lcdInit := by rw [exec_place h.seq]; rfl
  exact ⟨runs_transfer hx (fun _ => rfl) (by simpa [LcdWrite.reads] using he) hbusy hready, rfl, rfl, rfl, rfl, rfl⟩

/-- The end of the list: `LCD.INIT` returns. -/
theorem runs_noSteps {rest : List Nibble} (h : BeforeSteps [] s) (he : s.env.lcd = rest) :
    ∃ t, Runs .lcdInit 1 s t ∧ RanSteps s [] [] rest t := by
  subst he
  exact ⟨_, runs_one (exec_returning h.seq rfl), rfl⟩

theorem readsOf_cons (w : LcdWrite) (ws : List LcdWrite) : readsOf (w :: ws) = w.reads ++ readsOf ws := List.flatMap_cons

/-- A list of any length with its return, by induction on its steps. -/
theorem runs_steps {ws : List LcdWrite} {rest : List Nibble} (h : BeforeSteps steps s) (hw : ws.map LcdWrite.byte = initCodes steps)
    (ha : ∀ w ∈ ws, w.answers s.params) (he : s.env.lcd = readsOf ws ++ rest) :
    ∃ k t, Runs .lcdInit k s t ∧ RanSteps s steps ws rest t := by
  induction steps generalizing s ws with
  | nil =>
    obtain rfl : ws = [] := List.map_eq_nil_iff.1 hw
    exact ⟨1, runs_noSteps h he⟩
  | cons step steps ih =>
    cases step with
    | wait T =>
      obtain ⟨hstep, hbefore⟩ := runs_wait h
      obtain ⟨k, t, hrun, ht⟩ := ih hbefore hw ha he
      refine ⟨_, t, runs_trans hstep hrun, ?_⟩
      simpa only [RanSteps, State.waited, State.openTo, traceInit, latchAfterInit, List.append_assoc, List.cons_append,
        List.nil_append] using ht
    | nibble x =>
      obtain ⟨hstep, hbefore⟩ := runs_nibble h
      obtain ⟨k, t, hrun, ht⟩ := ih hbefore hw ha he
      refine ⟨_, t, runs_trans hstep hrun, ?_⟩
      simpa only [RanSteps, State.sentNibble, State.openTo, traceInit, latchAfterInit, List.append_assoc, h.e] using ht
    | instr code =>
      cases ws with
      | nil => cases hw
      | cons w ws =>
        obtain ⟨hcode, hcodes⟩ := List.cons.inj hw
        obtain ⟨hanswer, hanswers⟩ := List.forall_mem_cons.1 ha
        subst hcode
        obtain ⟨hstep, hbefore⟩ := runs_instr (rest := readsOf ws ++ rest) h hanswer (by rw [he, readsOf_cons, List.append_assoc])
        obtain ⟨k, t, hrun, ht⟩ := ih hbefore hcodes hanswers rfl
        refine ⟨_, t, runs_trans hstep hrun, ?_⟩
        simpa only [RanSteps, State.sentInstr, State.openTo, traceInit, latchAfterInit, lastByte_cons, lowNibble, List.append_assoc,
          h.rs, h.rw, h.e, h.dir] using ht

end Steps

/-- Settles O33: the four writes of the bring-up, then the list of the parameters with its return. -/
theorem lcdInitRun : Obligations.LcdInitRun := by
  intro s ws rest hs hw ha he h
  obtain ⟨k, t, hrun, ht⟩ := runs_steps (s := s.broughtUp) (rest := rest) ⟨rfl, rfl, rfl, rfl, rfl⟩ hw ha he
  have hhist : s.broughtUp.hist ++ (traceInit s.params s.params.lcdInitSeq ws ++ [.ret 0x10 .ok .none]) = s.hist ++ h := by
    simp only [State.broughtUp, h, List.append_assoc, List.cons_append]
  have ht : t = _ := ht
  refine ⟨t, runs_count (.inl hs) (runs_trans (runs_broughtUp hs) hrun) ?_, ?_⟩
  · exact (congrArg State.hist ht).trans hhist
  · rw [← hhist]; exact ht

/-! ### A busy flag that never clears (R105, R204) -/

/-- `LCD.WRS` at the character `c` of its string, after the characters `ws`. -/
theorem pollsOn_lcdWrs {s : State} {addr : StrAddr} {ws : List LcdWrite} {c : Byte} {nibs rest : List Nibble} (hs : s.seq = .idle)
    (hi : s.lcdInited = true) (hc : holdsChars s addr (ws.map LcdWrite.byte ++ [c])) (ha : ∀ w ∈ ws, w.answers s.params)
    (he : s.env.lcd = readsOf ws ++ nibs ++ rest) (hb : StaysBusy s.params nibs) :
    PollsOn (.lcdWrs addr) s (.cmd (wordA 0x13 addr) :: (traceChars s.params addr ws ++
      .mem (addr + BitVec.ofNat 16 ws.length) c :: traceBusy s.params true c nibs)) s.motorLevel := by
  obtain ⟨hchars, hbyte, hne⟩ := (holdsChars_append ..).1 hc
  rw [List.length_map] at hbyte
  have haccept := (runsOn_accept (i := .lcdWrs addr) hs ⟨fun _ => hi, nofun⟩).run
  obtain ⟨k, e, place, hrun, hseq, hresume, hkept⟩ := runs_chars (s := s.accept (.lcdWrs addr)) (rest := nibs ++ rest) rfl rfl
    (holdsChars_congr hchars rfl) ha (by rw [accept_env, he, List.append_assoc])
  have hread := runs_memRead hseq hresume
  have hbyte' : e.strByte (addr + BitVec.ofNat 16 ws.length) = c :=
    (congrFun (strByte_congr (by rw [hkept]; rfl)) _).trans hbyte
  rw [hbyte'] at hread
  have hon : RunsOn (.lcdWrs addr) s
      (.cmd (wordA 0x13 addr) :: (traceChars s.params addr ws ++ [.mem (addr + BitVec.ofNat 16 ws.length) c])) s.motorLevel _ :=
    runsOn_of_runs hs (runs_trans haccept (runs_trans hrun hread))
      (by rw [hkept, accept_hist, encode_lcdWrs]; simp) rfl (by rw [hkept]; rfl) (by rw [hkept]; rfl) (by rw [hkept]; rfl)
      (by rw [hkept]; rfl)
  have hpolls := pollsOn_of_transfer (u := .string) (rest := rest) hs hon (exec_strRead_char rfl hne) (fun _ => rfl) (by rw [hkept]; rfl)
    (by rw [hkept]) hb
  simpa using hpolls

/-- `LCD.INIT` at the `Instr` step with `code`, after the steps `before`. -/
theorem pollsOn_lcdInit {s : State} {before after : List InitStep} {code : Byte} {ws : List LcdWrite} {nibs rest : List Nibble}
    (hs : s.seq = .idle) (hl : s.params.lcdInitSeq = before ++ .instr code :: after) (hw : ws.map LcdWrite.byte = initCodes before)
    (ha : ∀ w ∈ ws, w.answers s.params) (he : s.env.lcd = readsOf ws ++ nibs ++ rest) (hb : StaysBusy s.params nibs) :
    PollsOn .lcdInit s (.cmd (wordN 0x10) ::
      ([.dir .lcdD .output, .write .lcdRs false, .write .lcdRw false, .write .lcdE false] ++ traceInit s.params before ws ++
        traceBusy s.params false code nibs)) s.motorLevel := by
  have hseq : s.broughtUp.seq = .busy .lcdInit [] (.lcdDone (.init (before ++ .instr code :: after))) := by rw [← hl]; rfl
  obtain ⟨k, e, hrun, hat, hkept⟩ := runs_initSteps (rest := nibs ++ rest) hseq hw ha (by rw [← List.append_assoc]; exact he)
  have hon : RunsOn .lcdInit s (.cmd (wordN 0x10) ::
      ([.dir .lcdD .output, .write .lcdRs false, .write .lcdRw false, .write .lcdE false] ++ traceInit s.params before ws))
      s.motorLevel e :=
    runsOn_of_runs hs (runs_trans (runs_broughtUp hs) hrun) (by rw [hkept]; simp [State.broughtUp]) (running_busy hat)
      (by rw [hkept]; rfl) (by rw [hkept]; rfl) (by rw [hkept]; rfl) (by rw [hkept]; rfl)
  have hx : exec .lcdInit e = (lcdTransfer false code (.init after) e).run .lcdInit := by rw [exec_place hat]; rfl
  exact pollsOn_of_transfer hs hon hx (fun _ => rfl) (by rw [hkept]; rfl) (by rw [hkept]) hb

/-- Settles O34: each operation reaches a transfer as its own run says, and polls on there by `pollsOn_of_transfer`. -/
theorem lcdHangs : Obligations.LcdHangs := by
  intro s nibs rest hs hb
  refine ⟨fun v hi he => ⟨?_, ?_⟩, fun addr ws c hi hc ha he => pollsOn_lcdWrs hs hi hc ha he hb,
    fun before after code ws hl hw ha he => pollsOn_lcdInit hs hl hw ha he hb⟩
  · rw [← encode_lcdWri]
    exact (writesByte_lcdWri v).pollsOn hs hi he hb
  · rw [← encode_lcdWrc]
    exact (writesByte_lcdWrc v).pollsOn hs hi he hb

end Sys2Proof.Machine

namespace Sys2Proof.Machine

/-! ### The runs of the two-wire operations (R122 to R134) -/

/-- `twi_owned` after a two-wire operation that found it at `owned`: `TWI.START` and `TWI.STOP` open and close the bracket (R125, R126). -/
def ownedAfter (i : Instr) (owned : Bool) : Bool :=
  match i with
  | .twiStart => true
  | .twiStop => false
  | _ => owned

/-- What a two-wire operation returns, with `b` in `twi_dr`: the reads return the byte (R125 to R129). -/
def valueOf (i : Instr) (b : Byte) : RetVal := if (actionOf i).receives then .byte b else .none

/-- `twi_dr` after a completed action that found it at `dr`, the slave supplying `r` (R122, R123). -/
def twiDrAfter (i : Instr) (dr r : Byte) : Byte := if (actionOf i).receives then r else (payloadOf i).getD dr

/-- The events of a whole two-wire operation whose action completes after `polls` answers 0, the slave supplying `r`. -/
def traceTwi (i : Instr) (polls : Nat) (r : Byte) : List Event :=
  .cmd (encode i) :: .twi (actionOf i) (payloadOf i) ::
    (List.replicate polls (.twiTc false none) ++ [twiEvent (actionOf i) { tc := true, byte := r }, .ret (opcode i) .ok (valueOf i r)])

/-- What a whole two-wire operation leaves in `t`, and what it leaves open, having appended the events `h` (R125 to R129). -/
def RanTwi (s : State) (i : Instr) (r : Byte) (rest : List TwiAnswer) (h : List Event) (t : State) : Prop :=
  t = { s.openTo t with
    cmdValid := false
    seq := .idle
    rspValid := true
    rspOutcome := .ok
    rspByte := if (actionOf i).receives then r else t.rspByte
    twiReq := .none
    twiTc := true
    twiDr := twiDrAfter i s.twiDr r
    twiOwned := ownedAfter i s.twiOwned
    env := { s.env with twi := rest }
    hist := s.hist ++ h }

section Twi
variable {i : Instr} {s : State} {waits rest : List TwiAnswer}

/-- At `until tc = 1` a two-wire operation with its action complete settles `twi_owned` and returns (R124 to R129). -/
theorem resumeOf_twiUntil_eq (hi : usesTwi i = true) (s : State) : resumeOf i .twiUntil s =
    twiUntil (fun s => returning { s with twiOwned := ownedAfter i s.twiOwned } .ok (valueOf i s.twiDr)) s := by
  cases i with
  | twiStart | twiStop | twiWrb | twiRda | twiRdn => rfl
  | _ => cases hi

/-- Only what a receive puts into `twi_dr` is returned. -/
theorem valueOf_twiDrAfter (i : Instr) (dr r : Byte) : valueOf i (twiDrAfter i dr r) = valueOf i r := by
  cases hr : (actionOf i).receives <;> simp [valueOf, twiDrAfter, hr]

/-- An accepted two-wire operation begins with its action (R122, R125 to R129). -/
theorem exec_accept_twi (hi : usesTwi i = true) (s : State) :
    exec i (s.accept i) = (twiAction (actionOf i) (payloadOf i) (s.accept i)).run i := by
  rw [exec_place (accept_seq s i), resumeOf_twiStart hi]

/-- A two-wire operation run whole: acceptance, its action with its wait, and the return. -/
theorem runs_twi {r : Byte} (hi : usesTwi i = true) (ha : Admitted i s) (hs : s.seq = .idle) (hw : ∀ a ∈ waits, a.tc = false)
    (he : s.env.twi = waits ++ { tc := true, byte := r } :: rest) :
    ∃ t, Runs i (traceTwi i waits.length r).length s t ∧ RanTwi s i r rest (traceTwi i waits.length r) t := by
  have haccept := (runsOn_accept hs ha).run
  obtain ⟨e, haction, hdone, hkept⟩ := runs_twiAction (resumeOf_twiUntil_eq hi) (exec_accept_twi hi s) hw (by simpa using he)
  have hreturn : exec i e =
      .next (({ e with twiOwned := ownedAfter i e.twiOwned } : State).respond i .ok (valueOf i e.twiDr)) := hdone
  have hrun := runs_trans haccept (runs_trans haction (runs_one hreturn))
  have hdr : e.twiDr = twiDrAfter i s.twiDr r := by rw [hkept]; rfl
  rw [hdr, valueOf_twiDrAfter] at hrun
  have hhist : e.hist ++ [.ret (opcode i) .ok (valueOf i r)] = s.hist ++ traceTwi i waits.length r := by
    rw [hkept]
    simp [traceTwi, twiEvent]
  refine ⟨_, runs_count (.inl hs) hrun hhist, ?_⟩
  rw [RanTwi, ← hhist, ← hdr]
  subst hkept
  cases hr : (actionOf i).receives <;> simp [State.openTo, State.respond, State.emit, State.accept, valueOf, hr]

/-! ### An action that never completes (R134, R204) -/

/-- The operation's next step is a poll of the two-wire engine: the first one of its wait, or one more after an answer 0 (R124). -/
def AwaitsTwi (i : Instr) (s : State) : Prop :=
  s.seq = .busy i [.twiPoll] .twiUntil ∨ s.seq = .busy i [] .twiUntil ∧ s.loc.tc = false

/-- `s` after a poll answered 0, with `rest` of the engine's answers left (R123). -/
def State.polledZero (s : State) (i : Instr) (rest : List TwiAnswer) : State :=
  { s with
    loc := { s.loc with tc := false }
    env := { s.env with twi := rest }
    hist := s.hist ++ [.twiTc false none]
    seq := .busy i [] .twiUntil }

/-- `s` after the acceptance of a two-wire operation and its request: the wait is still to be run (R122). -/
def State.handedOver (s : State) (i : Instr) : State :=
  ({ s.accept i with seq := .busy i [.twiPoll] .twiUntil } : State).requestTwi (actionOf i) (payloadOf i)

theorem runs_handedOver (hi : usesTwi i = true) (ha : Admitted i s) (hs : s.seq = .idle) : Runs i 2 s (s.handedOver i) :=
  runs_trans (runsOn_accept hs ha).run (runs_one (exec_accept_twi hi s))

theorem AwaitsTwi.running (h : AwaitsTwi i s) : s.running = some i := by
  obtain hfirst | ⟨hagain, -⟩ := h
  · exact running_busy hfirst
  · exact running_busy hagain

theorem exec_awaitsTwi (hi : usesTwi i = true) (h : AwaitsTwi i s) :
    exec i s = .next ({ s with seq := .busy i [] .twiUntil } : State).pollTwi := by
  obtain hfirst | ⟨hagain, htc⟩ := h
  · exact exec_todo hfirst
  · rw [exec_place hagain, resumeOf_twiUntil_eq hi, twiUntil, if_neg (by simp [htc])]
    rfl

/-- A poll that is answered 0 changes nothing of the engine, and another one follows (R123, R124). -/
theorem exec_awaitsTwi_zero {a : TwiAnswer} (hi : usesTwi i = true) (h : AwaitsTwi i s) (ha : a.tc = false) (he : s.env.twi = a :: rest) :
    exec i s = .next (s.polledZero i rest) := by
  rw [exec_awaitsTwi hi h, pollTwi_settled (ans := a) (rest := rest) (by simpa using he)]
  simp [ha, twiEvent, State.polledZero]

/-- Any number of polls answered 0, by induction on the answers. -/
theorem runs_polls_zero (hi : usesTwi i = true) (h : AwaitsTwi i s) (hw : ∀ a ∈ waits, a.tc = false) (he : s.env.twi = waits ++ rest) :
    ∃ t, Runs i waits.length s t ∧ AwaitsTwi i t ∧ t = { s with
      loc := t.loc
      env := t.env
      seq := t.seq
      hist := s.hist ++ List.replicate waits.length (.twiTc false none) } := by
  induction waits generalizing s with
  | nil => exact ⟨s, runs_zero i s, h, by simp⟩
  | cons a waits ih =>
    obtain ⟨ha, hw⟩ := List.forall_mem_cons.1 hw
    have hpoll := exec_awaitsTwi_zero hi h ha he
    obtain ⟨t, hrun, hawaits, hkept⟩ := ih (s := s.polledZero i (waits ++ rest)) (.inr ⟨rfl, rfl⟩) hw rfl
    refine ⟨t, runs_succ hpoll hrun, hawaits, ?_⟩
    simpa only [State.polledZero, List.length_cons, List.replicate_succ, List.append_assoc, List.cons_append,
      List.nil_append] using hkept

end Twi

/-- Settles O35: the action is START and `twi_owned` is set, whatever it was. -/
theorem twiStartRun : Obligations.TwiStartRun := by
  intro s waits r rest hs hw he h
  exact runs_twi (i := .twiStart) rfl ⟨nofun, nofun⟩ hs hw he

/-- Settles O36: the action is STOP and `twi_owned` is cleared. -/
theorem twiStopRun : Obligations.TwiStopRun := by
  intro s waits r rest hs ho hw he h
  exact runs_twi (i := .twiStop) rfl ⟨nofun, fun _ => ho⟩ hs hw he

/-- Settles O37: the action is TX, which leaves the byte in `twi_dr`. -/
theorem twiWrbRun : Obligations.TwiWrbRun := by
  intro s b waits r rest hs ho hw he h
  have hrun := runs_twi (i := .twiWrb b) rfl ⟨nofun, fun _ => ho⟩ hs hw he
  rw [traceTwi, encode_twiWrb] at hrun
  exact hrun

/-- Settles O38: the two receives put the slave's byte into `twi_dr`, and `return` gives it. -/
theorem twiReadRuns : Obligations.TwiReadRuns := by
  intro s waits r rest hs ho hw he
  exact ⟨runs_twi (i := .twiRda) rfl ⟨nofun, fun _ => ho⟩ hs hw he, runs_twi (i := .twiRdn) rfl ⟨nofun, fun _ => ho⟩ hs hw he⟩

/-- Settles O39: the operation hands its action over, and every poll after it leaves the action pending. -/
theorem twiHangs : Obligations.TwiHangs := by
  intro s i waits rest hi ha hs hw he h
  obtain ⟨t, hpolls, hawaits, hkept⟩ := runs_polls_zero (s := s.handedOver i) (rest := rest) hi (.inl rfl) hw he
  refine ⟨t, runsOn_of_runs hs (runs_trans (runs_handedOver hi ha hs) hpolls) ?_ hawaits.running ?_ ?_ ?_ ?_, ?_, ?_, ?_, ?_⟩
  · rw [hkept]
    simp [h, State.handedOver]
  all_goals rw [hkept]; rfl

end Sys2Proof.Machine

namespace Sys2Proof.Machine

/-! ### The raw sample (R146) -/

/-- Inverting the sign bit adds half the range, modulo the range. -/
theorem rawSample_toNat (w : Sample) : (rawSample w).toNat = (w.toNat + 2 ^ 23) % 2 ^ 24 := by
  have hdiv : (w.toNat ^^^ 2 ^ 23) / 2 ^ 23 = w.toNat / 2 ^ 23 ^^^ 1 := Nat.xor_div_two_pow
  have hmod : (w.toNat ^^^ 2 ^ 23) % 2 ^ 23 = w.toNat % 2 ^ 23 := by rw [Nat.xor_mod_two_pow, Nat.mod_self, Nat.xor_zero]
  have hraw : (rawSample w).toNat = w.toNat ^^^ 2 ^ 23 := BitVec.toNat_xor ..
  rw [← hraw] at hdiv hmod
  obtain h | h : w.toNat / 2 ^ 23 = 0 ∨ w.toNat / 2 ^ 23 = 1 := by omega
  · rw [h, Nat.zero_xor] at hdiv
    omega
  · rw [h, Nat.xor_self] at hdiv
    omega

/-- The raw sample is the two's-complement value without its bias. -/
theorem rawSample_toInt (w : Sample) : ((rawSample w).toNat : Int) = w.toInt + 8388608 := by
  rw [rawSample_toNat, BitVec.toInt_eq_toNat_cond]
  split <;> omega

/-- Settles O55: the map adds a constant, so it keeps the order. -/
theorem rawSampleMap : Obligations.RawSampleMap := by
  refine ⟨rawSample_toInt, fun w w' => ?_, rfl, rfl, rfl⟩
  have h := rawSample_toInt w
  have h' := rawSample_toInt w'
  omega

end Sys2Proof.Machine

namespace Sys2Proof.Machine

/-! ### The clock at 1 (R152, R248) -/

/-- Between straight-line pieces the clock is 0. -/
theorem linesAt_sck (place : Place) : (linesAt place).sck = false := by
  cases place with
  | adcUntil q | adcPulse q | adcExtra q => cases q <;> rfl
  | _ => rfl

/-- A piece without a write of 0 to the clock leaves a clock at 1 there. -/
theorem foldl_sck_of_not_mem {todo : List Prim} (h : Prim.pinWrite .adcSck false ∉ todo) {l : Lines} (hl : l.sck = true) :
    (todo.foldl Lines.after l).sck = true := by
  induction todo generalizing l with
  | nil => exact hl
  | cons p rest ih =>
    rw [List.mem_cons, not_or] at h
    refine ih h.2 ?_
    by_cases hp : (l.after p).sck = l.sck
    · exact hp.trans hl
    · obtain ⟨v, rfl⟩ := after_sck hp
      cases v with
      | true => rfl
      | false => exact absurd rfl h.1

/-- Only an operation that reads the ADC has a write of the clock in its piece. -/
theorem usesAdc_of_mem {i : Instr} {todo : List Prim} {place : Place} {v : Bool} (h : todoFits i todo place = true)
    (hm : Prim.pinWrite .adcSck v ∈ todo) : usesAdc i = true := by
  induction todo with
  | nil => cases hm
  | cons p rest ih =>
    obtain ⟨⟨o, r, rfl⟩, rfl, -⟩ | ⟨rfl, rfl, -⟩ | ⟨hp, hrest, -⟩ := todoFits_cons h
    · simp at hm
    · simp at hm
    · rcases List.mem_cons.1 hm with rfl | hm
      · exact hp
      · exact ih hrest hm

/-- Settles O27: the piece ends with the clock at 0, so it writes the clock 0. -/
theorem clockNeverRests : Obligations.ClockNeverRests := by
  intro s h hsck
  cases hs : s.seq with
  | idle =>
    obtain ⟨-, -, -, hrest, -⟩ := atRest_of_sound h hs
    rw [hrest] at hsck
    cases hsck
  | busy i todo place =>
    obtain ⟨-, hfits, hlines, -⟩ := (sound_busy hs).1 h
    have hmem : Prim.pinWrite .adcSck false ∈ todo := by
      by_contra hno
      have hend := foldl_sck_of_not_mem hno (l := s.lines) hsck
      rw [hlines, linesAt_sck] at hend
      cases hend
    exact ⟨i, todo, place, rfl, usesAdc_of_mem hfits hmem, hmem⟩

end Sys2Proof.Machine

namespace Sys2Proof.Machine

/-! ### The runs of `ADC.RAW` and `ADC.AVG` (R145 to R150) -/

theorem runs_accept {i : Instr} {s : State} (hs : s.seq = .idle) (h : Admitted i s) : Runs i 1 s (s.accept i) :=
  runs_one (exec_idle hs (admitOf_none h))

/-- Settles O40: acceptance, one sample run whole, and the return of its word with the sign bit inverted. -/
theorem adcRawRun : Obligations.AdcRawRun := by
  intro s c rest hs hc he h
  obtain ⟨e, e', hsample, hx, -, he'⟩ := runs_sample readsSample_adcRaw hc (rest := rest) (s := s.accept .adcRaw) (s0 := s.accept .adcRaw)
    (exec_place (place := .start) rfl) he
  have hret : exec .adcRaw e = .next (e'.respond .adcRaw .ok (.u24 (rawSample e'.adcShift))) := hx
  have hrun := runs_trans (runs_accept (i := .adcRaw) hs ⟨nofun, nofun⟩) (runs_trans hsample (runs_one hret))
  generalize e'.loc = loc, e'.seq = seq at he'
  subst he'
  have hraw : rawSample c.word = c.raw := rfl
  refine ⟨_, runs_count (.inl hs) hrun ?_, ?_⟩
  · simp [h, hraw, encode_adcRaw, opcode]
  · simp [h, hraw, State.openTo, State.respond, State.emit, encode_adcRaw, opcode]

/-- Settles O41: acceptance, an average run whole, and the return of the mean. -/
theorem adcAvgRun : Obligations.AdcAvgRun := by
  intro s cs rest hs hpos hlen hw he h
  have hne : cs ≠ [] := List.ne_nil_of_length_pos hpos
  obtain ⟨k, e, e', haverage, hx, -, he'⟩ := runs_meanOf (n := fun _ => cs.length) (readsSample_adcAvg cs.length) hw hne hlen (rest := rest)
    (s := s.accept (.adcAvg cs.length)) (s0 := s.accept (.adcAvg cs.length)) rfl (exec_place (place := .start) rfl) he
  have hret : exec (.adcAvg cs.length) e = .next (e'.respond (.adcAvg cs.length) .ok (.float (meanOf cs))) := hx
  have hrun := runs_trans (runs_accept (i := .adcAvg cs.length) hs ⟨nofun, nofun⟩) (runs_trans haverage (runs_one hret))
  generalize e'.loc = loc, e'.seq = seq at he'
  subst he'
  refine ⟨_, runs_count (.inl hs) hrun ?_, ?_⟩
  · simp [h, encode_adcAvg, opcode]
  · simp [h, State.openTo, State.respond, State.emit, encode_adcAvg, opcode]

end Sys2Proof.Machine

namespace Sys2Proof.Machine

/-! ### Runs that have not ended -/

/-- The events `h` of a running operation have made `t` of `s`: no response, calibration and parameters as they were, and the motor at
`level`. -/
structure Underway (s : State) (h : List Event) (level : MotorLevel) (t : State) : Prop where
  hist : t.hist = s.hist ++ h
  silent : t.rspValid = false
  motor : t.motorLevel = level
  offset : t.wghOffset = s.wghOffset
  scale : t.wghScale = s.wghScale
  params : t.params = s.params

theorem underway_accept (s : State) (i : Instr) : Underway s [.cmd (encode i)] s.motorLevel (s.accept i) :=
  ⟨rfl, rfl, rfl, rfl, rfl, rfl⟩

section
variable {i : Instr} {s e e' : State} {h : List Event} {level : MotorLevel} {k : Nat}

/-- A reading of the ADC that begins with one or more reads of 1 keeps the operation at its wait (R142, R153). -/
theorem awaitsReady_of_readSample {q : Reading} {n : Nat} {rest : List Bool} (hs : s.seq = .idle) (hr : Runs i k s e)
    (hx : exec i e = (adcReadSample q e').run i) (hq : ∀ s, resumeOf i (.adcUntil q) s = adcUntil q s) (hu : Underway s h level e')
    (hn : 0 < n) (he : e'.env.adc = List.replicate n true ++ rest) :
    AwaitsReady i s (h ++ List.replicate n (.adcRead true)) level q e'.adcSck := by
  obtain ⟨n, rfl⟩ : ∃ m, n = m + 1 := ⟨n - 1, by omega⟩
  have hwait := runs_adcNotReady hq hx he
  refine ⟨_, runsOn_of_runs hs (runs_trans hr hwait) ?_ rfl hu.silent hu.motor hu.offset hu.scale, rfl, rfl⟩
  simp only [hu.hist, List.append_assoc]

/-- An average that has taken fewer samples than it needs, and then reads 1 and nothing else, keeps the operation at its wait (R149, R153). -/
theorem awaitsReady_of_average {q : Reading} {n : Params → Nat} {fin : FLOAT → State → Advance} {cs : List Conversion} {m : Nat}
    {rest : List Bool} (hs : s.seq = .idle) (hr : Runs i k s e) (hx : exec i e = (averageStart (n e'.params) q e').run i)
    (hq : ReadsSample i q fun s => averageAfterSample (n s.params) q fin s) (hu : Underway s h level e') (hn : n e'.params < 256)
    (hlen : cs.length < n e'.params) (hw : WholeSamples cs) (hm : 0 < m)
    (he : e'.env.adc = levelsOf cs ++ List.replicate m true ++ rest) :
    AwaitsReady i s (h ++ (cs.flatMap (traceSample s.params) ++ List.replicate m (.adcRead true))) level q
      (cs.isEmpty && e'.adcSck) := by
  have hz : countIsZero (n e'.params) = false := by simp [countIsZero]; omega
  rw [averageStart, hz, if_neg Bool.false_ne_true] at hx
  obtain ⟨k', f, f', hsamples, hnext, hsck, hf⟩ := runs_samples (rest := List.replicate m true ++ rest) hq hw
    (s0 := { e' with avgSum := u2f 0, avgI := 0 }) hn hx (by simpa using hlen) (by simpa using he)
  have hsamples' : Underway s (h ++ cs.flatMap (traceSample s.params)) level f' := by
    rw [hf]
    exact ⟨by simp only [hu.hist, hu.params, List.append_assoc], hu.silent, hu.motor, hu.offset, hu.scale, hu.params⟩
  have hwait := awaitsReady_of_readSample (rest := rest) hs (runs_trans hr hsamples) hnext hq.poll hsamples' hm (by rw [hf])
  rw [hsck, List.append_assoc] at hwait
  exact hwait

end

/-! ### An ADC that never goes ready, `DSP.RUN` apart (R153, R169) -/

/-- An operation whose checks pass and which begins with an average of `n` samples waits in any of them. -/
theorem awaitsReady_only {i : Instr} {s : State} {n : Nat} {fin : FLOAT → State → Advance} {cs : List Conversion} {k : Nat}
    {rest : List Bool} (hq : ReadsSample i .only (averageAfterSample n .only fin)) (ha : Admitted i s)
    (hstart : resumeOf i .start (s.accept i) = averageStart n .only (s.accept i)) (hn : n < 256) (hs : s.seq = .idle)
    (hlen : cs.length < n) (hw : WholeSamples cs) (hk : 0 < k) (he : s.env.adc = levelsOf cs ++ List.replicate k true ++ rest) :
    AwaitsReady i s (.cmd (encode i) :: (cs.flatMap (traceSample s.params) ++ List.replicate k (.adcRead true))) s.motorLevel .only
      (cs.isEmpty && s.adcSck) :=
  awaitsReady_of_average (n := fun _ => n) hs (runs_accept hs ha) ((exec_place rfl).trans (congrArg _ hstart)) hq
    (underway_accept s i) hn hlen hw hk he

theorem calibrateStart_checked {s : State} {ref : FLOAT} (hz : isZero ref = false) (hf : isFinite ref = true)
    (ho : isFinite s.wghOffset = true) : calibrateStart ref s = averageStart Config.calSamples .only s := by
  simp [calibrateStart, badReference, hz, hf, ho]

/-- Settles O45: `ADC.RAW` waits in its one sample, the others in any sample of their average. -/
theorem adcHangs : Obligations.AdcHangs := by
  intro s i cs k rest hi hwf hchecks hs hlen hw hk he
  cases i with
  | adcRaw =>
    obtain rfl : cs = [] := List.length_eq_zero_iff.1 (Nat.lt_one_iff.1 hlen)
    exact awaitsReady_of_readSample hs (runs_accept (i := .adcRaw) hs ⟨nofun, nofun⟩) (exec_place (i := .adcRaw) (place := .start) rfl)
      (fun _ => rfl) (underway_accept s .adcRaw) hk he
  | adcAvg n =>
    exact awaitsReady_only (readsSample_adcAvg n) ⟨nofun, nofun⟩ rfl (of_decide_eq_true hwf) hs hlen hw hk he
  | wghTare n =>
    exact awaitsReady_only (readsSample_wghTare n) ⟨nofun, nofun⟩ rfl (of_decide_eq_true hwf) hs hlen hw hk he
  | wghMass n =>
    have hn : n ≠ 0 := Nat.ne_zero_of_lt hlen
    exact awaitsReady_only (readsSample_wghMass n) ⟨nofun, nofun⟩ (massStart_calibrated .only hn hchecks) (of_decide_eq_true hwf) hs hlen
      hw hk he
  | wghCal ref =>
    obtain ⟨hz, hf, ho⟩ := hchecks
    exact awaitsReady_only (readsSample_wghCal ref) ⟨nofun, nofun⟩ (calibrateStart_checked hz hf ho) (by decide) hs hlen hw hk he
  | dspRun target => cases hlen
  | _ => cases hi

end Sys2Proof.Machine

namespace Sys2Proof.Machine

/-! ### The hangs of `DSP.RUN` (R190, R204) -/

/-- The display lines of a state between transfers. -/
structure BusFree (s : State) : Prop where
  rw : s.lcdRw = false
  e : s.lcdE = false
  dir : s.lcdDDir = .output

/-- What `AtRest` says of the block that `DSP.RUN` finds: the bus is free, the clock 0 and the motor idle (R236). -/
theorem DspStarts.atRest {s : State} {target : FLOAT} (h : DspStarts s target) :
    BusFree s ∧ s.adcSck = false ∧ s.motorLevel = .idle := by
  obtain ⟨he, hrw, hdir, hsck, -, hmotor⟩ := h.rest
  exact ⟨⟨hrw, he, hdir⟩, hsck, hmotor⟩

section
variable {s e e' : State} {target : FLOAT} {h : List Event} {level : MotorLevel} {k : Nat}

/-- A message of which the display takes the elements `before` and stays busy in the next: `DSP.RUN` polls on there (R105, R182). -/
theorem pollsOn_of_message {m : Msg} {before after : List MsgElem} {el : MsgElem} {shown : List LcdWrite} {nibs rest : List Nibble}
    (hs : s.seq = .idle) (hr : Runs (.dspRun target) k s e)
    (hx : exec (.dspRun target) e = (showMessage m (before ++ el :: after) (dspAfterMessage m) e').run (.dspRun target))
    (hu : Underway s h level e') (hbus : BusFree e') (hw : ShowsMessage s.params before shown) (hb : StaysBusy s.params nibs)
    (he : e'.env.lcd = readsOf shown ++ nibs ++ rest) :
    PollsOn (.dspRun target) s
      (h ++ (traceMessage s.params before shown ++ traceBusy s.params (elemRs el) (elemCode el) nibs)) level := by
  obtain ⟨hne, hbusy⟩ := hb
  rw [← hu.params] at hw hbusy
  obtain ⟨k', f, f', hshown, hnext, -, hf⟩ := runs_elements (rest := nibs ++ rest) hx hw (by rw [he, List.append_assoc])
    hbus.rw hbus.e hbus.dir
  have hfp : f'.params = e'.params := by rw [hf]
  have hfh : f'.hist = e'.hist ++ traceMessage e'.params before shown := by rw [hf]
  have hel : exec (.dspRun target) f = (lcdTransfer (elemRs el) (elemCode el) (.message m after) f').run (.dspRun target) := by
    rw [hnext]
    cases el <;> rfl
  obtain ⟨k'', hstuck⟩ := runs_transferBusy (rest := rest) hel (fun _ => rfl) hne (by rw [hf]) (by rw [hfp]; exact hbusy)
  refine ⟨_, runsOn_of_runs hs (runs_trans hr (runs_trans hshown hstuck)) ?_ rfl ?_ ?_ ?_ ?_, rfl, rfl⟩
  · simp only [hfp, hfh, hu.hist, hu.params, traceBusy, List.append_assoc]
  · rw [hf]; exact hu.silent
  · rw [hf]; exact hu.motor
  · rw [hf]; exact hu.offset
  · rw [hf]; exact hu.scale

variable {before after : List MsgElem} {el : MsgElem} {shown ws : List LcdWrite} {nibs restL : List Nibble} {cs ls : List Conversion}
  {c : Conversion} {restA : List Bool}

/-- In the waiting message. -/
theorem pollsOn_waiting (h : DspStarts s target) (hw : ShowsMessage s.params before shown) (hb : StaysBusy s.params nibs)
    (hm : s.params.msgWait = before ++ el :: after) (he : s.env.lcd = readsOf shown ++ nibs ++ restL) :
    PollsOn (.dspRun target) s (.cmd (wordF 0x50 target) ::
      (traceMessage s.params before shown ++ traceBusy s.params (elemRs el) (elemCode el) nibs)) .idle := by
  have hstart := exec_dspStart (s := s) h.target
  rw [hm] at hstart
  obtain ⟨⟨hrw, hE, hdir⟩, -, hmotor⟩ := h.atRest
  exact pollsOn_of_message (h := [.cmd (wordF 0x50 target)]) h.idle (runs_dspAccept h.idle h.inited) hstart
    ⟨rfl, rfl, hmotor, rfl, rfl, rfl⟩ ⟨hrw, hE, hdir⟩ hw hb he

/-- In the insufficient-supply message, after a reading that the gate turns away. -/
theorem pollsOn_insufficient (h : DspOpens s target ws cs (readsOf shown ++ nibs ++ restL) restA) (hf : FiniteMass s cs)
    (hg : ¬ GatePasses s target cs) (hw : ShowsMessage s.params before shown) (hb : StaysBusy s.params nibs)
    (hm : s.params.msgInsuff = before ++ el :: after) :
    PollsOn (.dspRun target) s (traceOpening s.params target ws cs ++
      (traceMessage s.params before shown ++ traceBusy s.params (elemRs el) (elemCode el) nibs)) .idle := by
  obtain ⟨k, e, e', hopen, hx, -, he'⟩ := runs_dspOpening h
  have hmass : calibrated (meanOf cs) e'.wghOffset e'.wghScale = massOf s cs := by rw [he']; rfl
  have hgate : supplyInsufficient e'.params (massOf s cs) e'.dspTarget = true := by
    rw [he']
    simpa [supplyInsufficient, GatePasses, -not_and, not_and_or] using hg
  rw [massFinish_finite hmass hf, dspGate, if_pos hgate, show e'.params = s.params by rw [he'], hm] at hx
  obtain ⟨⟨hrw, hE, hdir⟩, -, hmotor⟩ := h.atRest
  refine pollsOn_of_message (rest := restL) h.idle hopen hx ?_ ?_ hw hb ?_
  · rw [he']; exact ⟨rfl, rfl, hmotor, rfl, rfl, rfl⟩
  · rw [he']; exact ⟨hrw, hE, hdir⟩
  · rw [he']

/-- In the success message, after a run that has released the target. -/
theorem pollsOn_released (h : DspOpens s target ws cs (readsOf shown ++ nibs ++ restL) (levelsOf (ls ++ [c]) ++ restA))
    (hf : FiniteMass s cs) (hg : GatePasses s target cs) (hl : FeedsOver s target cs ls) (hwhole : WholeSamples (ls ++ [c]))
    (hc : FiniteMass s [c]) (hr : fge (fsub (massOf s cs) (massOf s [c])) target = true) (hw : ShowsMessage s.params before shown)
    (hb : StaysBusy s.params nibs) (hm : s.params.msgDone = before ++ el :: after) :
    PollsOn (.dspRun target) s (traceOpening s.params target ws cs ++ [.motor .feeding] ++ traceLoop s.params (ls ++ [c]) ++
      .motor .idle :: (traceMessage s.params before shown ++ traceBusy s.params (elemRs el) (elemCode el) nibs)) .idle := by
  obtain ⟨k, e, hrun, hseq, he⟩ := runs_dspReleased h hf hg hl hwhole hc hr
  have hx : exec (.dspRun target) e =
      (showMessage .done (before ++ el :: after) (dspAfterMessage .done) e).run (.dspRun target) := by
    rw [exec_place hseq, hm]
    rfl
  obtain ⟨⟨hrw, hE, hdir⟩, -, hmotor⟩ := h.atRest
  have hpolls := pollsOn_of_message (level := .idle) h.idle hrun hx (by rw [he]; exact ⟨rfl, rfl, hmotor, rfl, rfl, rfl⟩)
    (by rw [he]; exact ⟨hrw, hE, hdir⟩) hw hb (by rw [he])
  simpa only [List.append_assoc, List.cons_append, List.nil_append] using hpolls

variable {n : Nat}

/-- In the availability reading. -/
theorem awaitsReady_base (h : DspStarts s target) (hw : ShowsMessage s.params s.params.msgWait ws) (hL : s.env.lcd = readsOf ws ++ restL)
    (hc : Calibrated s) (hlen : cs.length < s.params.nAvail) (hwhole : WholeSamples cs) (hn : 0 < n)
    (hA : s.env.adc = levelsOf cs ++ List.replicate n true ++ restA) :
    AwaitsReady (.dspRun target) s (traceOpening s.params target ws cs ++ List.replicate n (.adcRead true)) .idle .base false := by
  obtain ⟨k, e, e', hrun, hx, -, -, he'⟩ := runs_dspWaiting h hw hL
  obtain ⟨hn0, hn256⟩ := nAvail_range h.params
  obtain ⟨-, hsck, hmotor⟩ := h.atRest
  have hp : e'.params = s.params := by rw [he']
  have hu : Underway s (.cmd (wordF 0x50 target) :: traceMessage s.params s.params.msgWait ws) .idle e' := by
    rw [he']; exact ⟨rfl, rfl, hmotor, rfl, rfl, rfl⟩
  rw [massStart_calibrated _ (by rw [hp]; exact hn0) (by rw [he']; exact hc)] at hx
  have hwait := awaitsReady_of_average (n := Params.nAvail) (rest := restA) h.idle hrun hx (readsSample_base target) hu (by rw [hp]; exact hn256)
    (by rw [hp]; exact hlen) hwhole hn (by rw [he']; exact hA)
  rw [show e'.adcSck = false by rw [he']; exact hsck, Bool.and_false] at hwait
  simpa [traceOpening] using hwait

/-- In a reading of the loop, the motor feeding. -/
theorem awaitsReady_loop (h : DspOpens s target ws cs restL (levelsOf ls ++ List.replicate n true ++ restA)) (hf : FiniteMass s cs)
    (hg : GatePasses s target cs) (hl : FeedsOver s target cs ls) (hwhole : WholeSamples ls) (hn : 0 < n) :
    AwaitsReady (.dspRun target) s (traceOpening s.params target ws cs ++ [.motor .feeding] ++ traceLoop s.params ls ++
      .delay .tDispPoll :: List.replicate n (.adcRead true)) .feeding .loop false := by
  rw [List.append_assoc] at h
  obtain ⟨k, e, hrun, hseq, he⟩ := runs_dspFeeding h hf hg hl hwhole
  have hx : exec (.dspRun target) e = (averageStart 1 .loop e).run (.dspRun target) := by
    rw [exec_place hseq]
    exact congrArg _ (massStart_calibrated .loop one_ne_zero (by rw [he]; exact h.calibrated))
  have hu : Underway s (traceOpening s.params target ws cs ++ [.motor .feeding] ++ traceLoop s.params ls ++ [.delay .tDispPoll])
      .feeding e := by
    rw [he]; exact ⟨rfl, rfl, rfl, rfl, rfl, rfl⟩
  have hwait := awaitsReady_of_average (n := fun _ => 1) (cs := []) (rest := restA) h.idle hrun hx (readsSample_loop target) hu
    (by decide) Nat.one_pos nofun hn (by rw [he]; rfl)
  obtain ⟨-, hsck, -⟩ := h.atRest
  rw [show e.adcSck = false by rw [he]; exact hsck] at hwait
  simpa using hwait

end

/-- Settles O60: the display hangs by `pollsOn_of_message`, the ADC hangs by `awaitsReady_of_average`. -/
theorem dspHangs : Obligations.DspHangs := by
  intro s target
  refine ⟨fun before after el shown nibs hw hb => ⟨fun restL h hm he => ?_, fun ws cs restL restA h hf hg hm => ?_,
    fun ws cs ls c restL restA h hf hg hl hwhole hc hr hm => ?_⟩, fun n hn => ⟨fun ws cs restL restA h hw hL hc hlen hwhole hA => ?_,
    fun ws cs ls restL restA h hf hg hl hwhole => ?_⟩⟩
  · exact pollsOn_waiting h hw hb hm he
  · exact pollsOn_insufficient h hf hg hw hb hm
  · exact pollsOn_released h hf hg hl hwhole hc hr hw hb hm
  · exact awaitsReady_base h hw hL hc hlen hwhole hn hA
  · exact awaitsReady_loop h hf hg hl hwhole hn

end Sys2Proof.Machine

namespace Sys2Proof.Machine

/-! ### Who raises which fault (R205 to R209) -/

/-- The condition under which operation `i` raises a fault in `s` (R207, R208). -/
def FaultCause (i : Instr) (s : State) : Fault → Prop
  | .zeroSamples => i = .adcAvg 0 ∨ i = .wghMass 0 ∨ i = .wghTare 0
  | .badCalibration =>
    ¬ Calibrated s ∧ ((∃ n, i = .wghMass n) ∨ (∃ ref, i = .wghCal ref ∧ isFinite s.wghOffset = false) ∨ ∃ target, i = .dspRun target)
  | .badArgument =>
    (∃ ref, i = .wghCal ref ∧ (isZero ref = true ∨ isFinite ref = false)) ∨ ∃ target, i = .dspRun target ∧ isFinite target = false
  | .notFinite =>
    (∃ n, i = .wghMass n ∧ s.reading = some .only ∧ s.quotientNotFinite n s.wghScale) ∨
      (∃ ref, i = .wghCal ref ∧ s.reading = some .only ∧ s.quotientNotFinite 100 ref) ∨
      ∃ target, i = .dspRun target ∧
        ((s.reading = some .base ∧ s.quotientNotFinite s.params.nAvail s.wghScale) ∨
          (s.reading = some .loop ∧ s.quotientNotFinite 1 s.wghScale))
  | .positionOutsideOperation => False

/-- If the advance faults, the fault meets `P`. -/
def Advance.FaultsBy (P : Fault → Prop) : Advance → Prop
  | .go _ _ _ _ => True
  | .fault f => P f

theorem faultsBy_ite {P : Fault → Prop} {c : Prop} [Decidable c] {a b : Advance} (ha : c → a.FaultsBy P) (hb : ¬ c → b.FaultsBy P) :
    (if c then a else b).FaultsBy P := by
  split
  · next h => exact ha h
  · next h => exact hb h

theorem not_calibrated {s : State} (h : badCalibration s.wghOffset s.wghScale = true) : ¬ Calibrated s := by
  rintro ⟨hzero, hscale, hoffset⟩
  simp [badCalibration, hzero, hscale, hoffset] at h

/-! #### A whole sample and what follows it -/

/-- Reading `q` has its sample whole in `t`, after the silent statements of the step from `s` (R145). -/
structure SampleWhole (s : State) (q : Reading) (t : State) : Prop where
  reading : s.reading = some q
  word : t.adcShift = s.finishedWord
  same : t = { s with adcShift := t.adcShift, adcCnt := t.adcCnt }

theorem sampleWhole_pulse {s : State} {i : Instr} {q : Reading} (hs : s.seq = .busy i [] (.adcPulse q)) : SampleWhole s q s.takeBit :=
  ⟨by simp only [State.reading, hs], by simp only [State.finishedWord, hs, takeBit_adcShift], rfl⟩

theorem sampleWhole_extra {s : State} {i : Instr} {q : Reading} (hs : s.seq = .busy i [] (.adcExtra q)) : SampleWhole s q s :=
  ⟨by simp only [State.reading, hs], by simp only [State.finishedWord, hs], rfl⟩

theorem SampleWhole.mean {s t : State} {q : Reading} (h : SampleWhole s q t) (n : Nat) :
    fdiv t.takeSample.avgSum (u2f n) = s.finishedMean n := by
  have hsum : t.avgSum = s.avgSum := by rw [h.same]
  rw [takeSample_avgSum, hsum, h.word, State.finishedMean]

section Blocks

variable {P : Fault → Prop} {i : Instr} {s t : State} {q : Reading}

theorem faultsBy_averageStart {n : Nat} (hzero : n = 0 → P .zeroSamples) : (averageStart n q s).FaultsBy P :=
  faultsBy_ite (fun h => hzero (beq_iff_eq.1 h)) fun _ => trivial

theorem faultsBy_massStart {n : Nat} (hzero : n = 0 → P .zeroSamples) (hcal : ¬ Calibrated s → P .badCalibration) :
    (massStart n q s).FaultsBy P :=
  faultsBy_ite (fun h => hzero (beq_iff_eq.1 h)) fun _ =>
    faultsBy_ite (fun h => hcal (not_calibrated h)) fun _ => faultsBy_averageStart hzero

/-- After a sample of an average, only what follows the last one can fault. -/
theorem faultsBy_averageAfterSample {n : Nat} {fin : FLOAT → State → Advance} (ht : SampleWhole s q t)
    (hfin : n ≤ (s.avgI + 1).toNat → (fin (s.finishedMean n) t.takeSample).FaultsBy P) :
    (averageAfterSample n q fin t).FaultsBy P := by
  refine faultsBy_ite (fun _ => trivial) fun hlast => ?_
  have hcount : t.avgI = s.avgI := by rw [ht.same]
  rw [takeSample_avgI, hcount] at hlast
  rw [ht.mean]
  exact hfin (not_lt.1 hlast)

/-- The last sample of `Mass(n)` faults when the mass is not finite (R163, R208). -/
theorem faultsBy_mass {n : Nat} {done : FLOAT → State → Advance} (ht : SampleWhole s q t) (hdone : ∀ a u, (done a u).FaultsBy P)
    (hP : s.quotientNotFinite n s.wghScale → P .notFinite) : (averageAfterSample n q (massFinish done) t).FaultsBy P := by
  refine faultsBy_averageAfterSample ht fun hlast => faultsBy_ite (fun _ => hdone _ _) fun hinf => hP ⟨hlast, ?_⟩
  rw [ht.same] at hinf
  exact Bool.eq_false_iff.2 hinf

/-- The last sample of `WGH.CAL` faults when the scale is not finite (R166, R208). -/
theorem faultsBy_calibrate {ref : FLOAT} (ht : SampleWhole s q t) (hP : s.quotientNotFinite 100 ref → P .notFinite) :
    (averageAfterSample Config.calSamples q (calibrateFinish ref) t).FaultsBy P := by
  refine faultsBy_averageAfterSample ht fun hlast => faultsBy_ite (fun _ => trivial) fun hinf => hP ⟨hlast, ?_⟩
  rw [ht.same] at hinf
  exact Bool.eq_false_iff.2 hinf

/-- Inside `ReadRawSample()` nothing faults: a fault comes from what follows the whole sample. -/
theorem faultsBy_reading {done : State → Advance} {place : Place} (hq : ReadsSample i q done) (hs : s.seq = .busy i [] place)
    (hplace : place = .adcUntil q ∨ place = .adcPulse q ∨ place = .adcExtra q)
    (hdone : ∀ t, SampleWhole s q t → (done t).FaultsBy P) : (resumeOf i place s).FaultsBy P := by
  obtain rfl | rfl | rfl := hplace
  · rw [hq.poll]
    exact faultsBy_ite (fun _ => trivial) fun _ => trivial
  · rw [hq.pulse]
    refine faultsBy_ite (fun _ => trivial) fun _ => ?_
    split
    · exact hdone _ (sampleWhole_pulse hs)
    · trivial
  · rw [hq.extra]
    exact hdone _ (sampleWhole_extra hs)

theorem faultsBy_message (m : Msg) (elems : List MsgElem) {done : State → Advance} (hdone : (done s).FaultsBy P) :
    (showMessage m elems done s).FaultsBy P := by
  match elems with
  | [] => exact hdone
  | .instr _ :: _ => trivial
  | .char _ :: _ => trivial

/-! #### The units -/

theorem not_usesDisplay_of_usesAdc (ha : usesAdc i = true) (hd : isDispense i = false) : usesDisplay i = false ∧ usesTwi i = false := by
  cases i with
  | adcRaw | adcAvg | wghMass | wghTare | wghCal => exact ⟨rfl, rfl⟩
  | dspRun => cases hd
  | _ => cases ha

/-- The places of an operation that makes one reading. -/
theorem place_of_usesAdc {place : Place} (ha : usesAdc i = true) (hd : isDispense i = false) (hp : placeFits i place = true) :
    place = .start ∨ place = .adcUntil .only ∨ place = .adcPulse .only ∨ place = .adcExtra .only := by
  obtain ⟨hdisplay, htwi⟩ := not_usesDisplay_of_usesAdc ha hd
  have honly (q : Reading) (h : readingFits i q = true) : q = .only := by simpa [readingFits, ha, hd] using h
  cases place with
  | start => exact .inl rfl
  | adcUntil q => rw [honly q hp]; exact .inr (.inl rfl)
  | adcPulse q => rw [honly q hp]; exact .inr (.inr (.inl rfl))
  | adcExtra q => rw [honly q hp]; exact .inr (.inr (.inr rfl))
  | dspMass | finished => exact absurd hp (by simp [placeFits, hd])
  | lcdUntil u | lcdDone u => exact absurd (useFits_usesDisplay hp) (by simp [hdisplay])
  | strRead => exact absurd (useFits_usesDisplay (u := .string) hp) (by simp [hdisplay])
  | twiUntil => exact absurd hp (by simp [placeFits, htwi])

theorem faultsBy_lcdUntil (u : LcdUse) : (lcdUntil u s).FaultsBy P := faultsBy_ite (fun _ => trivial) fun _ => trivial

/-- `LCD.INIT`, `LCD.WRI`, `LCD.WRC` and `LCD.WRS` raise no fault (R209). -/
theorem faultsBy_display {place : Place} (hi : usesDisplay i = true) (hd : isDispense i = false) (hp : placeFits i place = true) :
    (resumeOf i place s).FaultsBy P := by
  cases i with
  | lcdInit =>
    cases place with
    | start => trivial
    | lcdUntil u => exact faultsBy_lcdUntil u
    | lcdDone u =>
      cases u with
      | init steps =>
        match steps with
        | [] | .wait _ :: _ | .nibble _ :: _ | .instr _ :: _ => trivial
      | _ => cases hp
    | _ => cases hp
  | lcdWri | lcdWrc =>
    cases place with
    | start | lcdDone => trivial
    | lcdUntil u => exact faultsBy_lcdUntil u
    | _ => cases hp
  | lcdWrs =>
    cases place with
    | start | lcdDone => trivial
    | strRead => exact faultsBy_ite (fun _ => trivial) fun _ => trivial
    | lcdUntil u => exact faultsBy_lcdUntil u
    | _ => cases hp
  | dspRun => cases hd
  | _ => cases hi

/-- The two-wire operations raise no fault (R209). -/
theorem faultsBy_twi {place : Place} (hi : usesTwi i = true) (hp : placeFits i place = true) : (resumeOf i place s).FaultsBy P := by
  obtain rfl | rfl := place_of_usesTwi hi hp
  · rw [resumeOf_twiStart hi]
    trivial
  · obtain ⟨u, v, h⟩ := resumeOf_twiUntil hi s
    rw [h]
    exact faultsBy_ite (fun _ => trivial) fun _ => trivial

/-- `DSP.RUN` from every place but its last (R184, R207, R208). -/
theorem faultsBy_dspRun {target : FLOAT} {place : Place} (hs : s.seq = .busy (.dspRun target) [] place)
    (hp : placeFits (.dspRun target) place = true) (hne : place ≠ .finished) (hwf : s.params.wf = true) :
    (resumeOf (.dspRun target) place s).FaultsBy (FaultCause (.dspRun target) s) := by
  have hn : s.params.nAvail ≠ 0 := (nAvail_range hwf).1
  have hcal (h : ¬ Calibrated s) : FaultCause (.dspRun target) s .badCalibration := ⟨h, .inr (.inr ⟨target, rfl⟩)⟩
  have message (m : Msg) (t : State) (hpar : t.params = s.params) (hc : ¬ Calibrated t → ¬ Calibrated s) :
      (dspAfterMessage m t).FaultsBy (FaultCause (.dspRun target) s) := by
    cases m with
    | wait => exact faultsBy_massStart (fun h => absurd (hpar ▸ h) hn) fun h => hcal (hc h)
    | insuff | done => trivial
  have gate (a : FLOAT) (t : State) : (dspGate a t).FaultsBy (FaultCause (.dspRun target) s) :=
    faultsBy_ite (fun _ => faultsBy_message .insuff _ trivial) fun _ => trivial
  have test (a : FLOAT) (t : State) : (dspTest a t).FaultsBy (FaultCause (.dspRun target) s) :=
    faultsBy_ite (fun _ => trivial) fun _ => trivial
  have base (hplace : place = .adcUntil .base ∨ place = .adcPulse .base ∨ place = .adcExtra .base) :
      (resumeOf (.dspRun target) place s).FaultsBy (FaultCause (.dspRun target) s) := by
    refine faultsBy_reading (readsSample_base target) hs hplace fun t ht => ?_
    rw [show t.params = s.params by rw [ht.same]]
    exact faultsBy_mass ht gate fun h => .inr (.inr ⟨target, rfl, .inl ⟨ht.reading, h⟩⟩)
  have loop (hplace : place = .adcUntil .loop ∨ place = .adcPulse .loop ∨ place = .adcExtra .loop) :
      (resumeOf (.dspRun target) place s).FaultsBy (FaultCause (.dspRun target) s) :=
    faultsBy_reading (readsSample_loop target) hs hplace fun t ht =>
      faultsBy_mass ht test fun h => .inr (.inr ⟨target, rfl, .inr ⟨ht.reading, h⟩⟩)
  cases place with
  | start =>
    refine faultsBy_ite (fun h => .inr ⟨target, rfl, ?_⟩) fun _ => faultsBy_message .wait _ (message .wait _ rfl id)
    simpa [badTarget] using h
  | lcdUntil u => exact faultsBy_lcdUntil u
  | lcdDone u =>
    cases u with
    | message m elems => exact faultsBy_message m elems (message m s rfl id)
    | _ => cases hp
  | dspMass => exact faultsBy_massStart (fun h => absurd h one_ne_zero) hcal
  | finished => exact absurd rfl hne
  | adcUntil q =>
    cases q with
    | only => cases hp
    | base => exact base (.inl rfl)
    | loop => exact loop (.inl rfl)
  | adcPulse q =>
    cases q with
    | only => cases hp
    | base => exact base (.inr (.inl rfl))
    | loop => exact loop (.inr (.inl rfl))
  | adcExtra q =>
    cases q with
    | only => cases hp
    | base => exact base (.inr (.inr rfl))
    | loop => exact loop (.inr (.inr rfl))
  | strRead | twiUntil => cases hp

/-- The operations of the ADC and the weighing service, from each of their places (R207, R208). -/
theorem faultsBy_adc {place : Place} (ha : usesAdc i = true) (hd : isDispense i = false) (hs : s.seq = .busy i [] place)
    (hp : placeFits i place = true) : (resumeOf i place s).FaultsBy (FaultCause i s) := by
  obtain rfl | hplace := place_of_usesAdc ha hd hp
  · cases i with
    | adcRaw => trivial
    | adcAvg n => exact faultsBy_averageStart fun h => .inl (by rw [h])
    | wghMass n => exact faultsBy_massStart (fun h => .inr (.inl (by rw [h]))) fun h => ⟨h, .inl ⟨n, rfl⟩⟩
    | wghTare n => exact faultsBy_averageStart fun h => .inr (.inr (by rw [h]))
    | wghCal ref =>
      refine faultsBy_ite (fun h => .inl ⟨ref, rfl, ?_⟩) fun _ => faultsBy_ite (fun h => ?_) fun _ => faultsBy_averageStart nofun
      · simpa [badReference] using h
      · have hoffset : isFinite s.wghOffset = false := by simpa using h
        exact ⟨fun ⟨_, _, hfin⟩ => by simp [hoffset] at hfin, .inr (.inl ⟨ref, rfl, hoffset⟩)⟩
    | dspRun => cases hd
    | _ => cases ha
  · cases i with
    | adcRaw => exact faultsBy_reading readsSample_adcRaw hs hplace fun _ _ => trivial
    | adcAvg n => exact faultsBy_reading (readsSample_adcAvg n) hs hplace fun _ ht => faultsBy_averageAfterSample ht fun _ => trivial
    | wghMass n =>
      exact faultsBy_reading (readsSample_wghMass n) hs hplace fun _ ht =>
        faultsBy_mass ht (fun _ _ => trivial) fun h => .inl ⟨n, rfl, ht.reading, h⟩
    | wghTare n => exact faultsBy_reading (readsSample_wghTare n) hs hplace fun _ ht => faultsBy_averageAfterSample ht fun _ => trivial
    | wghCal ref =>
      exact faultsBy_reading (readsSample_wghCal ref) hs hplace fun _ ht =>
        faultsBy_calibrate ht fun h => .inr (.inl ⟨ref, rfl, ht.reading, h⟩)
    | dspRun => cases hd
    | _ => cases ha

end Blocks

/-! #### A step that faults -/

/-- From every sound place the pseudocode of an operation faults only for a cause of its own. -/
theorem resume_faults {i : Instr} {s : State} {place : Place} (h : Sound s) (hwf : s.params.wf = true) (hs : s.seq = .busy i [] place) :
    (resumeOf i place s).FaultsBy (FaultCause i s) := by
  obtain ⟨hp, htodo, -⟩ := (sound_busy hs).1 h
  have hne : place ≠ .finished := by rintro rfl; cases htodo
  cases i with
  | lcdInit | lcdWri | lcdWrc | lcdWrs => exact faultsBy_display rfl rfl hp
  | twiStart | twiStop | twiWrb | twiRda | twiRdn => exact faultsBy_twi rfl hp
  | adcRaw | adcAvg | wghMass | wghTare | wghCal => exact faultsBy_adc rfl rfl hs hp
  | dspRun target => exact faultsBy_dspRun hs hp hne hwf

/-- An idle block's step of an operation is its acceptance or its refusal, no fault (R211). -/
theorem exec_idle_ne_fault {i : Instr} {s : State} (hs : s.seq = .idle) (f : Fault) : exec i s ≠ .fault f := by
  rw [exec_eq, runOperation, hs]
  cases admitOf i s <;> simp

/-- A step that faults stands at the end of a straight-line piece, and the fault is that of the pseudocode going on from there. -/
theorem step_fault {s : State} {f : Fault} (h : step s = .fault f) :
    ∃ i place, s.seq = .busy i [] place ∧ resumeOf i place s = .fault f := by
  unfold step at h
  split at h
  · cases h
  · split at h
    · next i todo place hs =>
      cases todo with
      | cons p rest =>
        rw [exec_todo hs] at h
        cases h
      | nil =>
        rw [exec_place hs] at h
        cases hr : resumeOf i place s with
        | go t p rest place' => rw [hr] at h; cases h
        | fault g => rw [hr] at h; cases h; exact ⟨i, place, hs, hr⟩
    · next hs =>
      split at h
      · split at h
        · exact absurd h (exec_idle_ne_fault hs f)
        · cases h
      · cases h

/-- Settles O29: the fault is that of the pseudocode going on from a sound place, and has a cause of its operation. -/
theorem faultTable : Obligations.FaultTable := by
  intro s f h hwf hstep
  obtain ⟨i, place, hs, hr⟩ := step_fault hstep
  have hcause := resume_faults h hwf hs
  rw [hr] at hcause
  exact ⟨i, running_busy hs, hcause⟩

end Sys2Proof.Machine

namespace Sys2Proof.Machine

/-! ### An operation that takes one average (R149, R164 to R166) -/

/-- The idle block `s` accepts operation `i`, whose checks pass and which begins with an average of `n` samples, going on with `fin` of the
mean; the ADC answers with the whole conversions `cs`, and `rest` are its answers after them. -/
structure TakesAverage (i : Instr) (n : Nat) (fin : FLOAT → State → Advance) (s : State) (cs : List Conversion) (rest : List Bool) :
    Prop where
  idle : s.seq = .idle
  admitted : Admitted i s
  reads : ReadsSample i .only (averageAfterSample n .only fin)
  start : resumeOf i .start (s.accept i) = averageStart n .only (s.accept i)
  count : cs.length = n
  pos : 0 < n
  small : n < 256
  whole : WholeSamples cs
  adc : s.env.adc = levelsOf cs ++ rest

/-- What acceptance and the average make of the block; the pseudocode's local variables and the sequencer's position are open. -/
def State.averaged (s : State) (i : Instr) (cs : List Conversion) (rest : List Bool) (loc : Locals) (seq : Seq) : State :=
  { s with
    cmdValid := false
    rspValid := false
    seq := seq
    loc := loc
    adcShift := shiftAfter s.adcShift cs
    adcCnt := 24
    adcSck := false
    avgSum := sumOf cs
    avgI := BitVec.ofNat 8 cs.length
    env := { s.env with adc := rest }
    hist := s.hist ++ .cmd (encode i) :: cs.flatMap (traceSample s.params) }

section
variable {i : Instr} {n : Nat} {fin : FLOAT → State → Advance} {s : State} {cs : List Conversion} {rest : List Bool}

/-- Such an operation up to its last sample: the pseudocode goes on with `fin` of the mean. -/
theorem runs_averaged (h : TakesAverage i n fin s cs rest) :
    ∃ k e loc seq, Runs i k s e ∧ exec i e = (fin (meanOf cs) (s.averaged i cs rest loc seq)).run i ∧
      AfterSample i e (s.averaged i cs rest loc seq) := by
  obtain ⟨hs, hadmit, hreads, hstart, rfl, hpos, hsmall, hw, he⟩ := h
  obtain ⟨k, e, e', haverage, hx, hafter, he'⟩ := runs_meanOf (n := fun _ => cs.length) hreads hw (List.ne_nil_of_length_pos hpos) hsmall
    (s := s.accept i) (s0 := s.accept i) rfl ((exec_place rfl).trans (congrArg _ hstart)) he
  have hstate : e' = s.averaged i cs rest e'.loc e'.seq := by
    rw [he']
    simp [State.averaged, State.accept, State.emit]
  rw [hstate] at hx hafter
  exact ⟨_, e, _, _, runs_trans (runs_accept hs hadmit) haverage, hx, hafter⟩

/-- Such an operation, whole, when it returns `v` on the mean, the calibration left at `offset` and `scale`. -/
theorem runs_averaged_returning {offset scale : FLOAT} {v : RetVal} (h : TakesAverage i n fin s cs rest)
    (hfin : ∀ loc seq, fin (meanOf cs) (s.averaged i cs rest loc seq) =
      returning { s.averaged i cs rest loc seq with wghOffset := offset, wghScale := scale } .ok v) :
    ∃ loc seq, Runs i (Event.cmd (encode i) :: (cs.flatMap (traceSample s.params) ++ [.ret (opcode i) .ok v])).length s
      ({ s.averaged i cs rest loc seq with wghOffset := offset, wghScale := scale }.respond i .ok v) := by
  obtain ⟨k, e, loc, seq, hrun, hx, -⟩ := runs_averaged h
  rw [hfin] at hx
  refine ⟨loc, seq, runs_count (.inl h.idle) (runs_trans hrun (runs_one hx)) ?_⟩
  simp [State.averaged]

end

section
variable {s : State} {cs : List Conversion} {rest : List Bool}

theorem takesAverage_wghMass (hs : s.seq = .idle) (hpos : 0 < cs.length) (hlen : cs.length < 256) (hw : WholeSamples cs)
    (he : s.env.adc = levelsOf cs ++ rest) (hc : Calibrated s) :
    TakesAverage (.wghMass cs.length) cs.length (massFinish fun m s => returning s .ok (.float m)) s cs rest :=
  ⟨hs, ⟨nofun, nofun⟩, readsSample_wghMass _, massStart_calibrated .only hpos.ne' hc, rfl, hpos, hlen, hw, he⟩

theorem takesAverage_wghTare (hs : s.seq = .idle) (hpos : 0 < cs.length) (hlen : cs.length < 256) (hw : WholeSamples cs)
    (he : s.env.adc = levelsOf cs ++ rest) :
    TakesAverage (.wghTare cs.length) cs.length (fun a s => returning { s with wghOffset := a } .ok .none) s cs rest :=
  ⟨hs, ⟨nofun, nofun⟩, readsSample_wghTare _, rfl, rfl, hpos, hlen, hw, he⟩

theorem takesAverage_wghCal {ref : FLOAT} (hs : s.seq = .idle) (hz : isZero ref = false) (hf : isFinite ref = true)
    (ho : isFinite s.wghOffset = true) (hlen : cs.length = 100) (hw : WholeSamples cs) (he : s.env.adc = levelsOf cs ++ rest) :
    TakesAverage (.wghCal ref) Config.calSamples (calibrateFinish ref) s cs rest :=
  ⟨hs, ⟨nofun, nofun⟩, readsSample_wghCal _, calibrateStart_checked hz hf ho, hlen, by decide, by decide, hw, he⟩

end

/-! ### The runs of the weighing service (R163 to R166) -/

/-- Settles O42: with a finite mass the operation returns it, and the calibration stays. -/
theorem wghMassRun : Obligations.WghMassRun := by
  intro s cs rest hs hpos hlen hw he hc hfin h
  obtain ⟨loc, seq, hrun⟩ := runs_averaged_returning (offset := s.wghOffset) (scale := s.wghScale)
    (takesAverage_wghMass hs hpos hlen hw he hc) fun _ _ => massFinish_finite rfl hfin
  rw [encode_wghMass] at hrun
  exact ⟨_, hrun, by simp [h, State.averaged, State.openTo, State.respond, State.emit, encode_wghMass, opcode]⟩

/-- Settles O43: the operation returns with the mean as the offset. -/
theorem wghTareRun : Obligations.WghTareRun := by
  intro s cs rest hs hpos hlen hw he h
  obtain ⟨loc, seq, hrun⟩ := runs_averaged_returning (offset := meanOf cs) (scale := s.wghScale)
    (takesAverage_wghTare hs hpos hlen hw he) fun _ _ => rfl
  rw [encode_wghTare] at hrun
  exact ⟨_, hrun, by simp [h, State.averaged, State.openTo, State.respond, State.emit, encode_wghTare, opcode]⟩

/-- Settles O44: with a finite quotient the operation returns with it as the scale. -/
theorem wghCalRun : Obligations.WghCalRun := by
  intro s ref cs rest hs hlen hw he hz hf ho hfin h
  obtain ⟨loc, seq, hrun⟩ := runs_averaged_returning (offset := s.wghOffset) (scale := fdiv (fsub (meanOf cs) s.wghOffset) ref)
    (takesAverage_wghCal hs hz hf ho hlen hw he) fun _ _ => if_pos hfin
  rw [encode_wghCal] at hrun
  exact ⟨_, hrun, by simp [h, hlen, State.averaged, State.openTo, State.respond, State.emit, encode_wghCal, opcode]⟩

/-! ### Where the floating-point faults are raised (R206, R208) -/

section
variable {i : Instr} {s e e' : State} {h : List Event} {level : MotorLevel} {f : Fault} {k : Nat}

/-- A run that is under way and whose next step is the fault. -/
theorem faultsAfter_of_underway (hs : s.seq = .idle) (hr : Runs i k s e) (hu : Underway s h level e) (hrunning : e.running = some i)
    (hx : exec i e = .fault f) : FaultsAfter i s h level f :=
  ⟨e, runsOn_of_runs hs hr hu.hist hrunning hu.silent hu.motor hu.offset hu.scale, hx⟩

/-- A check before the first primitive fails: the fault follows acceptance. -/
theorem faultsAfter_accept (hs : s.seq = .idle) (ha : Admitted i s) (hstart : resumeOf i .start (s.accept i) = .fault f) :
    FaultsAfter i s [.cmd (encode i)] s.motorLevel f :=
  faultsAfter_of_underway hs (runs_accept hs ha) (underway_accept s i) rfl ((exec_place rfl).trans (congrArg _ hstart))

/-- A check of a reading's mean fails: the fault follows the last sample (R163, R166). -/
theorem faultsAfter_of_afterSample (hs : s.seq = .idle) (hr : Runs i k s e) (hafter : AfterSample i e e') (hu : Underway s h level e')
    (hx : exec i e = .fault f) : FaultsAfter i s h level f := by
  refine faultsAfter_of_underway hs hr ?_ hafter.running hx
  rw [hafter.state]
  exact ⟨hu.hist, hu.silent, hu.motor, hu.offset, hu.scale, hu.params⟩

theorem faultsAfter_averaged {n : Nat} {fin : FLOAT → State → Advance} {cs : List Conversion} {rest : List Bool}
    (ht : TakesAverage i n fin s cs rest) (hfin : ∀ loc seq, fin (meanOf cs) (s.averaged i cs rest loc seq) = .fault f) :
    FaultsAfter i s (.cmd (encode i) :: cs.flatMap (traceSample s.params)) s.motorLevel f := by
  obtain ⟨k, e, loc, seq, hrun, hx, hafter⟩ := runs_averaged ht
  rw [hfin] at hx
  exact faultsAfter_of_afterSample ht.idle hrun hafter ⟨rfl, rfl, rfl, rfl, rfl, rfl⟩ hx

end

section
variable {s : State} {target : FLOAT} {ws : List LcdWrite} {cs ls : List Conversion} {c : Conversion} {restL : List Nibble}
  {restA : List Bool}

/-- `DSP.RUN` with a bad calibration, after its waiting message (R184, R208). -/
theorem faultsAfter_dspWaiting (h : DspStarts s target) (hc : ¬ Calibrated s) (hw : ShowsMessage s.params s.params.msgWait ws)
    (he : s.env.lcd = readsOf ws ++ restL) :
    FaultsAfter (.dspRun target) s (.cmd (wordF 0x50 target) :: traceMessage s.params s.params.msgWait ws) .idle .badCalibration := by
  obtain ⟨k, e, e', hrun, hx, hsilent, ⟨place, hseq⟩, he'⟩ := runs_dspWaiting h hw he
  obtain ⟨-, -, hmotor⟩ := h.atRest
  have hn : e'.params.nAvail ≠ 0 := by rw [he']; exact (nAvail_range h.params).1
  rw [massStart_uncalibrated _ hn (by rw [he']; exact hc)] at hx
  refine faultsAfter_of_underway h.idle hrun ?_ ?_ hx
  · rw [hsilent, he']
    exact ⟨rfl, rfl, hmotor, rfl, rfl, rfl⟩
  · rw [hsilent]
    exact running_busy hseq

/-- `DSP.RUN` whose availability mass is not finite, after that reading (R184, R208). -/
theorem faultsAfter_dspOpening (h : DspOpens s target ws cs restL restA) (hf : ¬ FiniteMass s cs) :
    FaultsAfter (.dspRun target) s (traceOpening s.params target ws cs) .idle .notFinite := by
  obtain ⟨k, e, e', hrun, hx, hafter, he'⟩ := runs_dspOpening h
  obtain ⟨-, -, hmotor⟩ := h.atRest
  rw [massFinish_notFinite (m := massOf s cs) (by rw [he']; rfl) hf] at hx
  refine faultsAfter_of_afterSample h.idle hrun hafter ?_ hx
  rw [he']
  exact ⟨rfl, rfl, hmotor, rfl, rfl, rfl⟩

/-- `DSP.RUN` in a reading of its loop whose mass is not finite: the motor is left feeding (R187 (4), R206). -/
theorem faultsAfter_dspLoop (h : DspOpens s target ws cs restL (levelsOf (ls ++ [c]) ++ restA)) (hf : FiniteMass s cs)
    (hg : GatePasses s target cs) (hl : FeedsOver s target cs ls) (hw : WholeSamples (ls ++ [c])) (hc : ¬ FiniteMass s [c]) :
    FaultsAfter (.dspRun target) s (traceOpening s.params target ws cs ++ [.motor .feeding] ++ traceLoop s.params (ls ++ [c])) .feeding
      .notFinite := by
  have hlevels : levelsOf (ls ++ [c]) ++ restA = levelsOf ls ++ (c.levels ++ restA) := by simp [levelsOf]
  rw [hlevels] at h
  obtain ⟨k, e, hfeeding, hseq, he⟩ := runs_dspFeeding h hf hg hl fun l hmem => hw l (List.mem_append_left _ hmem)
  obtain ⟨k', e', e'', hreading, hx, hafter, he''⟩ := runs_loopReading (c := c) (rest := restA) hseq (by rw [he]; exact h.calibrated)
    (hw c (by simp)) (by rw [he])
  rw [massFinish_notFinite (m := massOf s [c]) (by rw [he'', he]; rfl) hc] at hx
  refine faultsAfter_of_afterSample h.idle (runs_trans hfeeding hreading) hafter ?_ hx
  rw [he'', he]
  exact ⟨by simp [traceLoop], rfl, rfl, rfl, rfl, rfl⟩

end

/-- Settles O47: a check at the beginning faults after `Cmd`, a check of a mean after the samples of its reading. -/
theorem floatFaults : Obligations.FloatFaults := by
  intro s hs
  refine ⟨fun ref href => ?_, fun target hinited htarget => ?_, fun ref hz hf ho => ?_, fun n hn hc => ?_,
    fun target ws rest h hc hw he => ?_, fun cs rest hpos hlen hw he hc hfin => ?_, fun ref cs rest hz hf ho hlen hw he hfin => ?_,
    fun target ws cs restL restA h hfin => ?_, fun target ws cs ls c restL restA h hf hg hl hw hc => ?_⟩
  · have hbad : badReference ref = true := by simpa [badReference] using href
    exact faultsAfter_accept (i := .wghCal ref) hs ⟨nofun, nofun⟩ (if_pos hbad)
  · have hbad : badTarget target = true := by simpa [badTarget] using htarget
    exact faultsAfter_accept (i := .dspRun target) hs ⟨fun _ => hinited, nofun⟩ (if_pos hbad)
  · have hgood : ¬ badReference ref = true := by simp [badReference, hz, hf]
    have hoffset : (!isFinite s.wghOffset) = true := by simp [ho]
    exact faultsAfter_accept (i := .wghCal ref) hs ⟨nofun, nofun⟩ ((if_neg hgood).trans (if_pos hoffset))
  · rw [← encode_wghMass]
    exact faultsAfter_accept hs ⟨nofun, nofun⟩ (massStart_uncalibrated .only hn.ne' hc)
  · exact faultsAfter_dspWaiting h hc hw he
  · rw [← encode_wghMass]
    exact faultsAfter_averaged (takesAverage_wghMass hs hpos hlen hw he hc) fun _ _ => massFinish_notFinite rfl hfin
  · have hquotient : ¬ isFinite (fdiv (fsub (meanOf cs) s.wghOffset) ref) = true := by simp [hfin]
    exact faultsAfter_averaged (takesAverage_wghCal hs hz hf ho hlen hw he) fun _ _ => if_neg hquotient
  · exact faultsAfter_dspOpening h hfin
  · exact faultsAfter_dspLoop h hf hg hl hw hc

end Sys2Proof.Machine

namespace Sys2Proof.Machine

/-! ### Whole runs of `DSP.RUN` (R182 to R192) -/

theorem readsOf_append (ws ws' : List LcdWrite) : readsOf (ws ++ ws') = readsOf ws ++ readsOf ws' := List.flatMap_append

theorem levelsOf_append (cs cs' : List Conversion) : levelsOf (cs ++ cs') = levelsOf cs ++ levelsOf cs' := List.flatMap_append

theorem lastByte_append (v : Byte) (ws ws' : List LcdWrite) : lastByte v (ws ++ ws') = lastByte (lastByte v ws) ws' := by
  induction ws generalizing v with
  | nil => rfl
  | cons w ws ih => rw [List.cons_append, lastByte_cons, lastByte_cons, ih]

theorem lastLatch_append (x : Nibble) (ws ws' : List LcdWrite) : lastLatch x (ws ++ ws') = lastLatch (lastLatch x ws) ws' := by
  induction ws generalizing x with
  | nil => rfl
  | cons w ws ih => rw [List.cons_append, lastLatch_cons, lastLatch_cons, ih]

theorem lastRs_append (rs : Bool) (ws ws' : List LcdWrite) : lastRs rs (ws ++ ws') = lastRs (lastRs rs ws) ws' := by
  cases ws with
  | nil => rfl
  | cons w ws => rw [List.cons_append, lastRs_cons, lastRs_cons, lastRs_false, lastRs_false, lastRs_false]

section
variable {s : State} {target : FLOAT}

/-- What the last message of a run, its hold and the `return` of `o` and `n` leave of `s` in `t`, and what they leave open: the message has
the elements `elems` and is taken as the writes `ws` (R182, R189, R192). -/
def Closed (s : State) (elems : List MsgElem) (ws : List LcdWrite) (rest : List Nibble) (o : RspOutcome) (n : RspNext) (t : State) : Prop :=
  t = { s.openTo t with
    seq := .idle
    rspValid := true
    rspOutcome := o
    rspNext := n
    lcdByte := lastByte s.lcdByte ws
    lcdRs := lastRs s.lcdRs ws
    lcdDOut := lastLatch s.lcdDOut ws
    env := { s.env with lcd := rest }
    hist := s.hist ++ (traceMessage s.params elems ws ++ [.delay .tMsg, .ret 0x50 o (.next n)]) }

/-- A message that is followed by its hold and a `return`, run whole with them. -/
theorem runs_closing {s0 : State} {m : Msg} {o : RspOutcome} {n : RspNext} {elems : List MsgElem} {ws : List LcdWrite} {rest : List Nibble}
    (hm : ∀ t, dspAfterMessage m t = .go t (.delay .tMsg) [.ret o (.next n)] .finished)
    (hx : exec (.dspRun target) s = (showMessage m elems (dspAfterMessage m) s0).run (.dspRun target)) (hbus : BusFree s0)
    (hw : ShowsMessage s0.params elems ws) (he : s0.env.lcd = readsOf ws ++ rest) :
    ∃ k t, Runs (.dspRun target) k s t ∧ Closed s0 elems ws rest o n t := by
  obtain ⟨k, e, e', hshown, hnext, -, he'⟩ := runs_message hx hw he hbus.rw hbus.e hbus.dir
  rw [hm] at hnext
  refine ⟨_, _, runs_trans hshown (runs_succ hnext (runs_one (exec_todo rfl))), ?_⟩
  unfold Closed
  rw [he']
  simp [State.openTo, doPrim, State.respond, State.emit, opcode]

/-- A run whose availability reading the gate turns away: the insufficient-supply message begins (R183, R184). -/
theorem runs_dspInsufficient {ws : List LcdWrite} {cs : List Conversion} {restL : List Nibble} {restA : List Bool}
    (h : DspOpens s target ws cs restL restA) (hf : FiniteMass s cs)
    (hg : flt (massOf s cs) s.params.minSupply = true ∨ flt (massOf s cs) target = true) :
    ∃ k, ∃ e e' : State, Runs (.dspRun target) k s e ∧
      exec (.dspRun target) e = (showMessage .insuff s.params.msgInsuff (dspAfterMessage .insuff) e').run (.dspRun target) ∧
      e' = { s with
        cmdValid := false
        seq := e'.seq
        rspValid := false
        dspTarget := target
        dspBase := massOf s cs
        lcdByte := lastByte s.lcdByte ws
        lcdRs := lastRs s.lcdRs ws
        lcdDOut := lastLatch s.lcdDOut ws
        adcShift := shiftAfter s.adcShift cs
        adcCnt := 24
        avgSum := sumOf cs
        avgI := BitVec.ofNat 8 cs.length
        loc := e'.loc
        env := { s.env with lcd := restL, adc := restA }
        hist := s.hist ++ traceOpening s.params target ws cs } := by
  obtain ⟨k, e, e', hopen, hx, -, he'⟩ := runs_dspOpening h
  have hmass : calibrated (meanOf cs) e'.wghOffset e'.wghScale = massOf s cs := by rw [he']; rfl
  have hgate : supplyInsufficient e'.params (massOf s cs) e'.dspTarget = true := by
    rw [he']
    exact (Bool.or_eq_true ..).mpr hg
  rw [massFinish_finite hmass hf, dspGate, if_pos hgate, show e'.params.msgInsuff = s.params.msgInsuff by rw [he']] at hx
  exact ⟨k, e, { e' with dspBase := massOf s cs }, hopen, hx, by rw [he']⟩

end

/-- Settles O48: the gate turns the reading away, and the insufficient-supply message closes the run. -/
theorem dspAbortRun : Obligations.DspAbortRun := by
  intro s target cs ws ws' restL restA hs hi hrest hp ht hc hwait hinsuff hL hlen hwhole hA hf hg h
  have hopens : DspOpens s target ws cs (readsOf ws' ++ restL) restA :=
    { idle := hs
      inited := hi
      rest := hrest
      params := hp
      target := ht
      shows := hwait
      lcd := by rw [hL, readsOf_append, List.append_assoc]
      calibrated := hc
      count := hlen
      whole := hwhole
      adc := hA }
  obtain ⟨⟨hrw, hE, hdir⟩, -⟩ := hopens.atRest
  obtain ⟨k, e, e', hrun, hx, he'⟩ := runs_dspInsufficient hopens hf hg
  obtain ⟨k', t, hclose, hclosed⟩ := runs_closing (fun _ => rfl) hx (by rw [he']; exact ⟨hrw, hE, hdir⟩) (by rw [he']; exact hinsuff)
    (by rw [he'])
  rw [he'] at hclosed
  have hkept : t = _ := hclosed
  refine ⟨t, runs_count (.inl hs) (runs_trans hrun hclose) ?_, hkept.trans ?_⟩
  · rw [hkept]
    simp [h, traceOpening]
  · simp [h, traceOpening, State.openTo, lastByte_append, lastRs_append, lastLatch_append]

/-- Settles O49: the loop ends with the first reading that has fallen by the target, and the success message closes the run. -/
theorem dspGoodRun : Obligations.DspGoodRun := by
  intro s target cs ls c ws ws' restL restA hs hi hrest hp ht hc hwait hdone hL hlen hwhole hA hf hfl hg hg' hl hr h
  rw [List.append_assoc] at hwhole hA
  have hopens : DspOpens s target ws cs (readsOf ws' ++ restL) (levelsOf (ls ++ [c]) ++ restA) :=
    { idle := hs
      inited := hi
      rest := hrest
      params := hp
      target := ht
      shows := hwait
      lcd := by rw [hL, readsOf_append, List.append_assoc]
      calibrated := hc
      count := hlen
      whole := fun x hx => hwhole x (List.mem_append_left _ hx)
      adc := by rw [hA, levelsOf_append, List.append_assoc] }
  have hfeeds : FeedsOver s target cs ls := fun l hmem => ⟨hfl l (List.mem_append_left _ hmem), hl l hmem⟩
  obtain ⟨⟨hrw, hE, hdir⟩, -, hmotor⟩ := hopens.atRest
  obtain ⟨k, e, hrun, hseq, he⟩ := runs_dspReleased hopens hf ⟨hg, hg'⟩ hfeeds (fun x hx => hwhole x (List.mem_append_right _ hx))
    (hfl c List.mem_concat_self) hr
  have hx : exec (.dspRun target) e = (showMessage .done s.params.msgDone (dspAfterMessage .done) e).run (.dspRun target) :=
    exec_place hseq
  obtain ⟨k', t, hclose, hclosed⟩ := runs_closing (fun _ => rfl) hx (by rw [he]; exact ⟨hrw, hE, hdir⟩) (by rw [he]; exact hdone)
    (by rw [he])
  rw [he] at hclosed
  have hkept : t = _ := hclosed
  refine ⟨t, runs_count (.inl hs) (runs_trans hrun hclose) ?_, hkept.trans ?_⟩
  · rw [hkept]
    simp [h, traceOpening]
  · simp [h, traceOpening, State.openTo, lastByte_append, lastRs_append, lastLatch_append, hmotor]

/-- Settles O50: `runs_loop` says what the readings leave, and the number of steps is the number of their events. -/
theorem dspLoopRunsOn : Obligations.DspLoopRunsOn := by
  intro s target ls restA hs hm ht hc hw he hf hl h
  obtain ⟨k, e, hrun, -, hkept⟩ := runs_loop hs hc hw he fun l hmem => ⟨hf l hmem, ht ▸ hl l hmem⟩
  have hhist : e.hist = s.hist ++ h := by rw [hkept]
  have hseq : e.seq = .busy (.dspRun target) [] .dspMass := by rw [hkept]; exact hs
  refine ⟨e, runs_count (.inr ⟨_, _, hs⟩) hrun hhist, hhist, running_busy hseq, ?_, ?_, ?_⟩
  · rw [hkept]; exact hm
  · rw [hkept]
  · rw [hkept]

end Sys2Proof.Machine

namespace Sys2Proof.Machine

/-! ### Refusals come at acceptance only (R210, R211) -/

theorem run_ne_refused (i : Instr) (a : Advance) (r : Refusal) : a.run i ≠ .refused r := by
  cases a <;> exact nofun

theorem exec_busy_ne_refused {i : Instr} {s : State} {todo : List Prim} {place : Place} (hs : s.seq = .busy i todo place) (r : Refusal) :
    exec i s ≠ .refused r := by
  cases todo with
  | nil => exact exec_place hs ▸ run_ne_refused i (resumeOf i place s) r
  | cons p rest => exact exec_todo hs ▸ nofun

/-- Settles O12: a restart, a step of the running operation and a step with no command presented each answer something else. -/
theorem busyNeverRefused : Obligations.BusyNeverRefused := by
  intro s r h
  cases hp : s.powerCycle with
  | true => rw [step_powerCycle hp] at h; cases h
  | false =>
    cases hs : s.seq with
    | busy i todo place => exact absurd (step_busy hp hs ▸ h) (exec_busy_ne_refused hs r)
    | idle =>
      cases hv : s.cmdValid with
      | false =>
        obtain ⟨-, -, hnothing⟩ := stepRunsDecoded s hp
        rw [hnothing hs hv] at h
        cases h
      | true => exact ⟨rfl, rfl, rfl⟩

/-! ### A sample count of 0 (R207) -/

theorem averageStart_zero (q : Reading) (s : State) : averageStart 0 q s = .fault .zeroSamples := rfl

theorem massStart_zero (q : Reading) (s : State) : massStart 0 q s = .fault .zeroSamples := rfl

/-- An operation whose pseudocode faults where it begins is accepted, and faults in its second step. -/
theorem runOp_fault_at_start {i : Instr} {s : State} {f : Fault} (hs : s.seq = .idle) (ha : Admitted i s)
    (hstart : resumeOf i .start (s.accept i) = .fault f) : runOp i 2 s = .fault f := by
  have hfault : exec i (s.accept i) = .fault f := (exec_place (accept_seq s i)).trans (congrArg _ hstart)
  simp only [runOp, exec_idle hs (admitOf_none ha), hfault]

/-- Settles O46: the three operations have no test at acceptance, and each begins with the test of its sample count. -/
theorem zeroSamplesFault : Obligations.ZeroSamplesFault := by
  intro i s hi hs
  obtain ⟨ha, hstart⟩ : Admitted i s ∧ resumeOf i .start (s.accept i) = .fault .zeroSamples := by
    obtain rfl | rfl | rfl := hi
    · exact ⟨⟨nofun, nofun⟩, averageStart_zero .only (s.accept (.adcAvg 0))⟩
    · exact ⟨⟨nofun, nofun⟩, massStart_zero .only (s.accept (.wghMass 0))⟩
    · exact ⟨⟨nofun, nofun⟩, averageStart_zero .only (s.accept (.wghTare 0))⟩
  exact ⟨exec_idle hs (admitOf_none ha), rfl, accept_hist s i, runOp_fault_at_start hs ha hstart⟩

end Sys2Proof.Machine
